-- ==== Sys2Proof/Word.lean ====
section
/-! DEFINITION. The widths of R14 and the four encoded forms of R85. -/

namespace Sys2Proof

/-- A host register (R14). -/
abbrev Word := BitVec 16

/-- What a buffer cell holds once it is written (R14). -/
abbrev Byte := BitVec 8

/-- The 4-bit instance index of the CMD, EVT and STEP words (R87, R94, R95) and of the views (R24). -/
abbrev Idx := Fin 16

/-- One entry of a trace: a transition in one of the four encoded forms of R85. The form is the transition's
kind (R17), not part of the word (R96). -/
inductive Entry where
  /-- A host access: the 9-bit access word of R86, and the data of a write (no part of a read). -/
  | bus (access : BitVec 9) (wdata : Word)
  /-- A command word, the data of a write to CMD (R87). -/
  | cmd (w : Word)
  /-- An environment event (R94). -/
  | evt (w : Word)
  /-- An engine step (R95). -/
  | step (w : Word)
  deriving DecidableEq, Repr, Inhabited

end Sys2Proof
end

