-- ==== Sys2Proof/Config.lean ====
section
/-! DEFINITION. The parameters of 00_scope.md R5 to R13, the configuration of the reset machine, and the free value. -/

namespace Sys2Proof

/-- CH_SINK (R11): where a channel's transfers go. -/
inductive Sink where
  | uartTx (p : Idx)
  | external
  deriving DecidableEq, Repr, Inhabited

/-- The parameters of one channel (R11). -/
structure ChanCfg where
  /-- DMA_BUF_CAP -/
  bufCap : Nat
  /-- FORCE_CAPABLE -/
  forceCapable : Bool
  /-- CH_SINK -/
  sink : Sink
  deriving DecidableEq, Repr, Inhabited

/-- The parameters of one serial port (R7 to R10). -/
structure UartCfg where
  /-- RX_CAP -/
  rxCap : Nat
  /-- RX_LEN, the frame length -/
  rxLen : Nat
  /-- TX_CAP -/
  txCap : Nat
  /-- RX_FIFO_DEPTH -/
  rxDepth : Nat
  /-- TX_FIFO_DEPTH -/
  txDepth : Nat
  /-- HALF_DUPLEX -/
  halfDuplex : Bool
  /-- TX_DMA_CH, or NONE -/
  txDmaCh : Option Idx
  deriving DecidableEq, Repr, Inhabited

/-- The parameters of one I2C port (R12). -/
structure I2cCfg where
  /-- I2C_TXCAP -/
  txCap : Nat
  /-- I2C_RXCAP -/
  rxCap : Nat
  deriving DecidableEq, Repr, Inhabited

/-- A parameter set. A bank has a place for each of the 16 indices; the places at and above the instance count mean
nothing (assumption 9). Which sets are valid is `Machine.configValid`. -/
structure Config where
  /-- N_CH (R5) -/
  nCh : Nat
  /-- N_UART (R6) -/
  nUart : Nat
  /-- N_I2C (R6) -/
  nI2c : Nat
  chan : Vector ChanCfg 16
  uart : Vector UartCfg 16
  i2c : Vector I2cCfg 16
  /-- STG_CAP (R13) -/
  stgCap : Nat
  /-- BLOCK_BASE (R75): the platform's; registers are addressed by index, so no transition reads it. -/
  blockBase : Nat
  deriving DecidableEq, Repr, Inhabited

/-- CFG-A of 95_test_vectors.md section 0. DESIGN CHOICE (assumption 1): the configuration of the reset machine.
Unsafe for a claim about `State.reset` alone; claims about every state range over every configuration. -/
def Config.cfgA : Config where
  nCh := 2
  nUart := 1
  nI2c := 1
  chan := (Vector.replicate 16 ⟨4, false, .external⟩).set 0 ⟨8, true, .uartTx 0⟩
  uart := Vector.replicate 16 ⟨8, 5, 4, 4, 1, false, some 0⟩
  i2c := Vector.replicate 16 ⟨4, 4⟩
  stgCap := 8
  blockBase := 0

/-- FREE VALUE (assumption 4): the n-th transition that nothing placed in the trace chooses. It has no body, so
nothing can be proved of it: any enabled transition may be taken next (R17, R79, R124, R134, R179), and the
environment's operands are draws under no law (D48). -/
opaque Config.draw : Nat → Entry

end Sys2Proof
end

