-- ==== Sys2Proof/Syntax.lean ====
section
/-! DEFINITION. The instructions: one constructor per row of spec/opcode_table.json. A write carries its WDATA `d`
(R86); an index operand is the IDX field or the low four bits of a view's index. -/

namespace Sys2Proof

/-- The transitions of the block that an encoded form names. -/
inductive Instr where
  /-- RD CMD (R100) -/
  | rdCmd
  /-- RD ARG0 (R100) -/
  | rdArg0
  /-- RD ARG1 (R100) -/
  | rdArg1
  /-- RD RESULT (R100) -/
  | rdResult
  /-- RD STG_PTR (R100) -/
  | rdStgPtr
  /-- RD STG_DATA (R104) -/
  | rdStgData
  /-- RD BUF_SEL (R100) -/
  | rdBufSel
  /-- RD BUF_PTR (R100) -/
  | rdBufPtr
  /-- RD BUF_DATA (R107) -/
  | rdBufData
  /-- WR CMD (R110, R112) -/
  | wrCmd (d : Word)
  /-- WR ARG0 (R101) -/
  | wrArg0 (d : Word)
  /-- WR ARG1 (R101) -/
  | wrArg1 (d : Word)
  /-- WR STG_PTR (R102) -/
  | wrStgPtr (d : Word)
  /-- WR STG_DATA (R103) -/
  | wrStgData (d : Word)
  /-- WR BUF_SEL (R105) -/
  | wrBufSel (d : Word)
  /-- WR BUF_PTR (R106) -/
  | wrBufPtr (d : Word)
  /-- WR BUF_DATA (R108) -/
  | wrBufData (d : Word)
  /-- WR RESULT (R113: refused) -/
  | wrResult (d : Word)
  /-- RD CHSTAT<i> (R109) -/
  | rdChstat (i : Idx)
  /-- RD CHCNT<i> (R109) -/
  | rdChcnt (i : Idx)
  /-- RD CHREM<i> (R109) -/
  | rdChrem (i : Idx)
  /-- RD USTAT<i> (R109) -/
  | rdUstat (i : Idx)
  /-- RD URXCNT<i> (R109) -/
  | rdUrxcnt (i : Idx)
  /-- RD UTXCNT<i> (R109) -/
  | rdUtxcnt (i : Idx)
  /-- RD UTXLEN<i> (R109) -/
  | rdUtxlen (i : Idx)
  /-- RD ISTAT<i> (R109) -/
  | rdIstat (i : Idx)
  /-- RD ITXCNT<i> (R109) -/
  | rdItxcnt (i : Idx)
  /-- RD IRXCNT<i> (R109) -/
  | rdIrxcnt (i : Idx)
  /-- RD IWLEN<i> (R109) -/
  | rdIwlen (i : Idx)
  /-- RD IRLEN<i> (R109) -/
  | rdIrlen (i : Idx)
  /-- WR CHSTAT<i> (R113: refused) -/
  | wrChstat (i : Idx) (d : Word)
  /-- WR CHCNT<i> (R113: refused) -/
  | wrChcnt (i : Idx) (d : Word)
  /-- WR CHREM<i> (R113: refused) -/
  | wrChrem (i : Idx) (d : Word)
  /-- WR USTAT<i> (R113: refused) -/
  | wrUstat (i : Idx) (d : Word)
  /-- WR URXCNT<i> (R113: refused) -/
  | wrUrxcnt (i : Idx) (d : Word)
  /-- WR UTXCNT<i> (R113: refused) -/
  | wrUtxcnt (i : Idx) (d : Word)
  /-- WR UTXLEN<i> (R113: refused) -/
  | wrUtxlen (i : Idx) (d : Word)
  /-- WR ISTAT<i> (R113: refused) -/
  | wrIstat (i : Idx) (d : Word)
  /-- WR ITXCNT<i> (R113: refused) -/
  | wrItxcnt (i : Idx) (d : Word)
  /-- WR IRXCNT<i> (R113: refused) -/
  | wrIrxcnt (i : Idx) (d : Word)
  /-- WR IWLEN<i> (R113: refused) -/
  | wrIwlen (i : Idx) (d : Word)
  /-- WR IRLEN<i> (R113: refused) -/
  | wrIrlen (i : Idx) (d : Word)
  /-- RD (`none`) or WR (`some d`) of index 0x09 (R113: refused) -/
  | rsv09 (d : Option Word)
  /-- RD or WR of index 0x0A + b (R113: refused) -/
  | rsv0A (b : BitVec 1) (d : Option Word)
  /-- RD or WR of index 0x0C + b (R113: refused) -/
  | rsv0C (b : BitVec 2) (d : Option Word)
  /-- RD or WR of index 0xD0 + b (R113: refused) -/
  | rsvD0 (b : BitVec 4) (d : Option Word)
  /-- RD or WR of index 0xE0 + b (R113: refused) -/
  | rsvE0 (b : BitVec 5) (d : Option Word)
  /-- NOP (R111) -/
  | nop
  /-- CH.ACQUIRE c (R115) -/
  | chAcquire (c : Idx)
  /-- CH.ENABLE c (R116) -/
  | chEnable (c : Idx)
  /-- CH.DISABLE c (R117) -/
  | chDisable (c : Idx)
  /-- CH.FORCE c (R118) -/
  | chForce (c : Idx)
  /-- CH.POLL c (R119) -/
  | chPoll (c : Idx)
  /-- CH.SETCNT c (R120) -/
  | chSetcnt (c : Idx)
  /-- UART.FILL p (R138) -/
  | uartFill (p : Idx)
  /-- UART.START p (R139) -/
  | uartStart (p : Idx)
  /-- UART.SEND_DMA p (R146) -/
  | uartSendDma (p : Idx)
  /-- UART.RX_READY p (R135) -/
  | uartRxReady (p : Idx)
  /-- UART.TX_READY p (R136) -/
  | uartTxReady (p : Idx)
  /-- UART.CLEAR_RX p (R137) -/
  | uartClearRx (p : Idx)
  /-- I2C.WRITE q (R151) -/
  | i2cWrite (q : Idx)
  /-- I2C.READ q (R152) -/
  | i2cRead (q : Idx)
  /-- I2C.PROBE q (R153) -/
  | i2cProbe (q : Idx)
  /-- EV.RXB p, b (R129) -/
  | evRxb (p : Idx) (b : Byte)
  /-- EV.RXFE p (R130); the DATA field is ignored -/
  | evRxfe (p : Idx) (x : Byte)
  /-- EV.TXLD p (R143); the DATA field is ignored -/
  | evTxld (p : Idx) (x : Byte)
  /-- EV.TXSH p (R144); the DATA field is ignored -/
  | evTxsh (p : Idx) (x : Byte)
  /-- EV.CHRQ c (R123); the DATA field is ignored -/
  | evChrq (c : Idx) (x : Byte)
  /-- EV.I2CD q, d (R166) -/
  | evI2cd (q : Idx) (d : Byte)
  /-- ST.RXSV p (R131) -/
  | stRxsv (p : Idx)
  /-- ST.RXER p (R133) -/
  | stRxer (p : Idx)
  /-- ST.TXSV p (R141) -/
  | stTxsv (p : Idx)
  /-- ST.XFER c (R121) -/
  | stXfer (c : Idx)
  /-- ST.CHCP c (R122) -/
  | stChcp (c : Idx)
  /-- ST.I2SV q (R157) -/
  | stI2sv (q : Idx)
  /-- ST.HCONT (R156) -/
  | stHcont
  deriving DecidableEq, Repr

end Sys2Proof
end

