-- ==== Sys2Proof/WellFormed.lean ====
section
/-! DEFINITION. Well-formed instructions: an EVT or STEP word whose IDX names an absent instance names no transition
(R94, R95). An absent index in a command or a view is legal (R93, R46), so every other instruction is well-formed. -/

namespace Sys2Proof

/-- The instance that an event or an engine step names exists in the configuration. -/
def Instr.wellFormed (cfg : Config) : Instr → Bool
  | .evRxb p _ | .evRxfe p _ | .evTxld p _ | .evTxsh p _ => p.val < cfg.nUart
  | .evChrq c _ => c.val < cfg.nCh
  | .evI2cd q _ => q.val < cfg.nI2c
  | .stRxsv p | .stRxer p | .stTxsv p => p.val < cfg.nUart
  | .stXfer c | .stChcp c => c.val < cfg.nCh
  | .stI2sv q => q.val < cfg.nI2c
  | .stHcont => true
  | .rdCmd | .rdArg0 | .rdArg1 | .rdResult | .rdStgPtr | .rdStgData | .rdBufSel | .rdBufPtr | .rdBufData => true
  | .wrCmd _ | .wrArg0 _ | .wrArg1 _ | .wrStgPtr _ | .wrStgData _ | .wrBufSel _ | .wrBufPtr _ | .wrBufData _ => true
  | .wrResult _ => true
  | .rdChstat _ | .rdChcnt _ | .rdChrem _ | .rdUstat _ | .rdUrxcnt _ | .rdUtxcnt _
  | .rdUtxlen _ | .rdIstat _ | .rdItxcnt _ | .rdIrxcnt _ | .rdIwlen _ | .rdIrlen _ => true
  | .wrChstat _ _ | .wrChcnt _ _ | .wrChrem _ _ | .wrUstat _ _ | .wrUrxcnt _ _ | .wrUtxcnt _ _
  | .wrUtxlen _ _ | .wrIstat _ _ | .wrItxcnt _ _ | .wrIrxcnt _ _ | .wrIwlen _ _ | .wrIrlen _ _ => true
  | .rsv09 _ | .rsv0A _ _ | .rsv0C _ _ | .rsvD0 _ _ | .rsvE0 _ _ => true
  | .nop => true
  | .chAcquire _ | .chEnable _ | .chDisable _ | .chForce _ | .chPoll _ | .chSetcnt _ => true
  | .uartFill _ | .uartStart _ | .uartSendDma _ | .uartRxReady _ | .uartTxReady _ | .uartClearRx _ => true
  | .i2cWrite _ | .i2cRead _ | .i2cProbe _ => true

end Sys2Proof
end

