-- ==== Sys2Proof/Decode.lean ====
section
/-! DEFINITION. Decoding and encoding of the four forms (30_encoding.md R85 to R96), and the host's reading of one
opcode-table word. -/

namespace Sys2Proof

/-- The field of `len` bits from bit `lo` up (R15). -/
def field {n : Nat} (w : BitVec n) (lo len : Nat) : BitVec len := w.extractLsb' lo len

/-- A 4-bit index field as the number it denotes (R88). -/
def idxAt {n : Nat} (w : BitVec n) (lo : Nat) : Idx := (field w lo 4).toFin

/-- Why a word names no instruction (R93). -/
inductive Reject where
  /-- a reserved CMD word -/
  | reservedCommand
  /-- an EVT word with an unlisted kind -/
  | eventKind
  /-- a STEP word with an unlisted kind -/
  | stepKind
  /-- a STEP word with a nonzero low byte -/
  | stepLowByte
  /-- an ST.HCONT word with a nonzero IDX -/
  | hcontIdx
  deriving DecidableEq, Repr

/-- Indices 0x00 to 0x0F of the register map (R24, R46): `od` is the write data, if it is a write. -/
def decodeReg (acc : BitVec 9) (od : Option Word) : Instr :=
  match (field acc 0 4).toNat, od with
  | 0, none => .rdCmd
  | 0, some d => .wrCmd d
  | 1, none => .rdArg0
  | 1, some d => .wrArg0 d
  | 2, none => .rdArg1
  | 2, some d => .wrArg1 d
  | 3, none => .rdResult
  | 3, some d => .wrResult d
  | 4, none => .rdStgPtr
  | 4, some d => .wrStgPtr d
  | 5, none => .rdStgData
  | 5, some d => .wrStgData d
  | 6, none => .rdBufSel
  | 6, some d => .wrBufSel d
  | 7, none => .rdBufPtr
  | 7, some d => .wrBufPtr d
  | 8, none => .rdBufData
  | 8, some d => .wrBufData d
  | 9, od => .rsv09 od
  | 10, od => .rsv0A (field acc 0 1) od
  | 11, od => .rsv0A (field acc 0 1) od
  | _, od => .rsv0C (field acc 0 2) od

/-- A host access (R86). Every access word names an instruction. -/
def decodeBus (acc : BitVec 9) (wdata : Word) : Instr :=
  let od := if acc.getLsbD 8 then some wdata else none
  match (field acc 4 4).toNat, od with
  | 0, od => decodeReg acc od
  | 1, none => .rdChstat (idxAt acc 0)
  | 1, some d => .wrChstat (idxAt acc 0) d
  | 2, none => .rdChcnt (idxAt acc 0)
  | 2, some d => .wrChcnt (idxAt acc 0) d
  | 3, none => .rdChrem (idxAt acc 0)
  | 3, some d => .wrChrem (idxAt acc 0) d
  | 4, none => .rdUstat (idxAt acc 0)
  | 4, some d => .wrUstat (idxAt acc 0) d
  | 5, none => .rdUrxcnt (idxAt acc 0)
  | 5, some d => .wrUrxcnt (idxAt acc 0) d
  | 6, none => .rdUtxcnt (idxAt acc 0)
  | 6, some d => .wrUtxcnt (idxAt acc 0) d
  | 7, none => .rdUtxlen (idxAt acc 0)
  | 7, some d => .wrUtxlen (idxAt acc 0) d
  | 8, none => .rdIstat (idxAt acc 0)
  | 8, some d => .wrIstat (idxAt acc 0) d
  | 9, none => .rdItxcnt (idxAt acc 0)
  | 9, some d => .wrItxcnt (idxAt acc 0) d
  | 10, none => .rdIrxcnt (idxAt acc 0)
  | 10, some d => .wrIrxcnt (idxAt acc 0) d
  | 11, none => .rdIwlen (idxAt acc 0)
  | 11, some d => .wrIwlen (idxAt acc 0) d
  | 12, none => .rdIrlen (idxAt acc 0)
  | 12, some d => .wrIrlen (idxAt acc 0) d
  | 13, od => .rsvD0 (field acc 0 4) od
  | _, od => .rsvE0 (field acc 0 5) od

/-- A command word (R87, R89 to R93): UNIT, OP, IDX, and four zero bits. -/
def decodeCmd (w : Word) : Except Reject Instr :=
  if field w 0 4 ≠ 0 then .error .reservedCommand
  else
    match (field w 12 4).toNat, (field w 8 4).toNat with
    | 0, 0 => if field w 4 4 = 0 then .ok .nop else .error .reservedCommand
    | 1, 0 => .ok (.chAcquire (idxAt w 4))
    | 1, 1 => .ok (.chEnable (idxAt w 4))
    | 1, 2 => .ok (.chDisable (idxAt w 4))
    | 1, 3 => .ok (.chForce (idxAt w 4))
    | 1, 4 => .ok (.chPoll (idxAt w 4))
    | 1, 5 => .ok (.chSetcnt (idxAt w 4))
    | 2, 0 => .ok (.uartFill (idxAt w 4))
    | 2, 1 => .ok (.uartStart (idxAt w 4))
    | 2, 2 => .ok (.uartSendDma (idxAt w 4))
    | 2, 3 => .ok (.uartRxReady (idxAt w 4))
    | 2, 4 => .ok (.uartTxReady (idxAt w 4))
    | 2, 5 => .ok (.uartClearRx (idxAt w 4))
    | 3, 0 => .ok (.i2cWrite (idxAt w 4))
    | 3, 1 => .ok (.i2cRead (idxAt w 4))
    | 3, 2 => .ok (.i2cProbe (idxAt w 4))
    | _, _ => .error .reservedCommand

/-- An event word (R94). -/
def decodeEvt (w : Word) : Except Reject Instr :=
  match (field w 12 4).toNat with
  | 1 => .ok (.evRxb (idxAt w 8) (field w 0 8))
  | 2 => .ok (.evRxfe (idxAt w 8) (field w 0 8))
  | 3 => .ok (.evTxld (idxAt w 8) (field w 0 8))
  | 4 => .ok (.evTxsh (idxAt w 8) (field w 0 8))
  | 5 => .ok (.evChrq (idxAt w 8) (field w 0 8))
  | 6 => .ok (.evI2cd (idxAt w 8) (field w 0 8))
  | _ => .error .eventKind

/-- An engine-step word (R95). -/
def decodeStep (w : Word) : Except Reject Instr :=
  if field w 0 8 ≠ 0 then .error .stepLowByte
  else
    match (field w 12 4).toNat with
    | 1 => .ok (.stRxsv (idxAt w 8))
    | 2 => .ok (.stRxer (idxAt w 8))
    | 3 => .ok (.stTxsv (idxAt w 8))
    | 4 => .ok (.stXfer (idxAt w 8))
    | 5 => .ok (.stChcp (idxAt w 8))
    | 6 => .ok (.stI2sv (idxAt w 8))
    | 7 => if field w 8 4 = 0 then .ok .stHcont else .error .hcontIdx
    | _ => .error .stepKind

/-- The instruction an entry names. The form decides the decoder (R96). -/
def decode : Entry → Except Reject Instr
  | .bus acc d => .ok (decodeBus acc d)
  | .cmd w => decodeCmd w
  | .evt w => decodeEvt w
  | .step w => decodeStep w

/-! The encoder, from the same tables. -/

/-- A host access to index `a`: a write of `d`, or a read, which carries no data (R86). -/
def busEntry (a : BitVec 8) : Option Word → Entry
  | none => .bus (0#1 ++ a) 0
  | some d => .bus (1#1 ++ a) d

/-- The index of instance `i` in the view block `u` (R24). -/
def viewIndex (u : BitVec 4) (i : Idx) : BitVec 8 := u ++ BitVec.ofFin (w := 4) i

/-- A command word (R87). -/
def cmdWord (unit op : BitVec 4) (i : Idx) : Word := unit ++ op ++ BitVec.ofFin (w := 4) i ++ 0#4

/-- An event word (R94); a step word has data 0 (R95). -/
def evtWord (kind : BitVec 4) (i : Idx) (d : Byte) : Word := kind ++ BitVec.ofFin (w := 4) i ++ d

/-- The entry that names an instruction. -/
def encode : Instr → Entry
  | .rdCmd => busEntry 0#8 none
  | .rdArg0 => busEntry 1#8 none
  | .rdArg1 => busEntry 2#8 none
  | .rdResult => busEntry 3#8 none
  | .rdStgPtr => busEntry 4#8 none
  | .rdStgData => busEntry 5#8 none
  | .rdBufSel => busEntry 6#8 none
  | .rdBufPtr => busEntry 7#8 none
  | .rdBufData => busEntry 8#8 none
  | .wrCmd d => busEntry 0#8 (some d)
  | .wrArg0 d => busEntry 1#8 (some d)
  | .wrArg1 d => busEntry 2#8 (some d)
  | .wrResult d => busEntry 3#8 (some d)
  | .wrStgPtr d => busEntry 4#8 (some d)
  | .wrStgData d => busEntry 5#8 (some d)
  | .wrBufSel d => busEntry 6#8 (some d)
  | .wrBufPtr d => busEntry 7#8 (some d)
  | .wrBufData d => busEntry 8#8 (some d)
  | .rdChstat i => busEntry (viewIndex 1#4 i) none
  | .rdChcnt i => busEntry (viewIndex 2#4 i) none
  | .rdChrem i => busEntry (viewIndex 3#4 i) none
  | .rdUstat i => busEntry (viewIndex 4#4 i) none
  | .rdUrxcnt i => busEntry (viewIndex 5#4 i) none
  | .rdUtxcnt i => busEntry (viewIndex 6#4 i) none
  | .rdUtxlen i => busEntry (viewIndex 7#4 i) none
  | .rdIstat i => busEntry (viewIndex 8#4 i) none
  | .rdItxcnt i => busEntry (viewIndex 9#4 i) none
  | .rdIrxcnt i => busEntry (viewIndex 10#4 i) none
  | .rdIwlen i => busEntry (viewIndex 11#4 i) none
  | .rdIrlen i => busEntry (viewIndex 12#4 i) none
  | .wrChstat i d => busEntry (viewIndex 1#4 i) (some d)
  | .wrChcnt i d => busEntry (viewIndex 2#4 i) (some d)
  | .wrChrem i d => busEntry (viewIndex 3#4 i) (some d)
  | .wrUstat i d => busEntry (viewIndex 4#4 i) (some d)
  | .wrUrxcnt i d => busEntry (viewIndex 5#4 i) (some d)
  | .wrUtxcnt i d => busEntry (viewIndex 6#4 i) (some d)
  | .wrUtxlen i d => busEntry (viewIndex 7#4 i) (some d)
  | .wrIstat i d => busEntry (viewIndex 8#4 i) (some d)
  | .wrItxcnt i d => busEntry (viewIndex 9#4 i) (some d)
  | .wrIrxcnt i d => busEntry (viewIndex 10#4 i) (some d)
  | .wrIwlen i d => busEntry (viewIndex 11#4 i) (some d)
  | .wrIrlen i d => busEntry (viewIndex 12#4 i) (some d)
  | .rsv09 d => busEntry 0x09#8 d
  | .rsv0A b d => busEntry (0b0000101#7 ++ b) d
  | .rsv0C b d => busEntry (0b000011#6 ++ b) d
  | .rsvD0 b d => busEntry (0xD#4 ++ b) d
  | .rsvE0 b d => busEntry (0b111#3 ++ b) d
  | .nop => .cmd (cmdWord 0 0 0)
  | .chAcquire i => .cmd (cmdWord 1 0 i)
  | .chEnable i => .cmd (cmdWord 1 1 i)
  | .chDisable i => .cmd (cmdWord 1 2 i)
  | .chForce i => .cmd (cmdWord 1 3 i)
  | .chPoll i => .cmd (cmdWord 1 4 i)
  | .chSetcnt i => .cmd (cmdWord 1 5 i)
  | .uartFill i => .cmd (cmdWord 2 0 i)
  | .uartStart i => .cmd (cmdWord 2 1 i)
  | .uartSendDma i => .cmd (cmdWord 2 2 i)
  | .uartRxReady i => .cmd (cmdWord 2 3 i)
  | .uartTxReady i => .cmd (cmdWord 2 4 i)
  | .uartClearRx i => .cmd (cmdWord 2 5 i)
  | .i2cWrite i => .cmd (cmdWord 3 0 i)
  | .i2cRead i => .cmd (cmdWord 3 1 i)
  | .i2cProbe i => .cmd (cmdWord 3 2 i)
  | .evRxb i d => .evt (evtWord 1 i d)
  | .evRxfe i d => .evt (evtWord 2 i d)
  | .evTxld i d => .evt (evtWord 3 i d)
  | .evTxsh i d => .evt (evtWord 4 i d)
  | .evChrq i d => .evt (evtWord 5 i d)
  | .evI2cd i d => .evt (evtWord 6 i d)
  | .stRxsv i => .step (evtWord 1 i 0)
  | .stRxer i => .step (evtWord 2 i 0)
  | .stTxsv i => .step (evtWord 3 i 0)
  | .stXfer i => .step (evtWord 4 i 0)
  | .stChcp i => .step (evtWord 5 i 0)
  | .stI2sv i => .step (evtWord 6 i 0)
  | .stHcont => .step (evtWord 7 0 0)

/-! The host's reading of one word of spec/opcode_table.json. -/

/-- The first form in the order BUS, CMD, EVT, STEP in which the word `w` names an instruction. DESIGN CHOICE
(assumption 8): the table's word does not say its form (R96). The access word of a host access is the first 16-bit
word, its WDATA the second. Safe: only the host's probe reads it, never a step. -/
def tableEntry (w : Nat) : Option Entry :=
  let lo : Word := BitVec.ofNat 16 w
  if lo.toNat < 512 ∧ w < 2 ^ 32 then some (.bus (BitVec.ofNat 9 w) (BitVec.ofNat 16 (w / 2 ^ 16)))
  else if 2 ^ 16 ≤ w then none
  else if (decodeCmd lo).isOk then some (.cmd lo)
  else if (decodeEvt lo).isOk then some (.evt lo)
  else if (decodeStep lo).isOk then some (.step lo)
  else none

/-- The instruction the decoder reads from an opcode-table word of `nbits` bits; the bits above `nbits` are 0. -/
def decodeTableWord (nbits w : Nat) : Option Instr :=
  match tableEntry (w % 2 ^ nbits) with
  | some e => (decode e).toOption
  | none => none

end Sys2Proof
end

