-- ==== Sys2Proof/Machine/State.lean ====
section
/-! DEFINITION. The state of the block (10_state.md R24 to R65), its reset values (R65), and the reasons a run ends. -/

namespace Sys2Proof.Machine

/-- The cells of one buffer space (R66): (cell, byte) pairs, cells strictly rising. An unlisted cell is unwritten, the
value the spec writes as a bottom (R14, R20, R65), which no byte equals. -/
abbrev Mem := List Host.Cell

/-- The canonical form of a buffer: cells strictly rising. -/
abbrev Mem.wf (m : Mem) : Prop := m.Pairwise fun x y => x.1 < y.1

/-- The buffer spaces (R66). -/
inductive Buf where
  | stg
  | uartRx (p : Idx)
  | uartTx (p : Idx)
  | i2cRx (q : Idx)
  | i2cTx (q : Idx)
  | chBuf (c : Idx)
  deriving DecidableEq, Repr

/-- FAULT reasons (R174). They are recorded in `State.fault` by the transition that raises them; a state that records
one answers every transition with it. Safe: the spec itself ends the run there. -/
inductive Fault where
  /-- Raised by ST.TXSV, ST.XFER, ST.I2SV, RD STG_DATA and RD BUF_DATA, which observe an unwritten cell. Safe. -/
  | unwrittenRead (buf : Buf) (cell : Nat)
  /-- Raised by ST.I2SV in a phase that the phase table does not give (R167). Safe. -/
  | unreachablePhase (q : Idx)
  deriving DecidableEq, Repr

/-- REFUSED reasons (R175). They are recorded in `State.refused` by the transition that refuses; a state that records
one answers every transition with it. Safe: the spec itself ends the run there. -/
inductive Refusal where
  /-- An instruction without a meaning. Raised by no arm of `exec`: every instruction has its meaning. Safe. -/
  | notModelled (mnemonic : String)
  /-- WR CMD and the trace's CMD form, with a reserved command word (R112). Safe. -/
  | reservedCommand
  /-- RD and WR of indices 0x09 to 0x0F and 0xD0 to 0xFF (R113). Safe. -/
  | unmappedRegister
  /-- WR of RESULT and of a status view (R113). Safe. -/
  | readOnlyWrite
  /-- WR BUF_SEL with a reserved bit or kind (R105), and an access through such a BUF_SEL (assumption 10). Safe. -/
  | reservedBits
  /-- WR BUF_SEL naming an absent instance (R105). Safe. -/
  | indexRange
  /-- WR STG_PTR and WR BUF_PTR beyond the capacity (R102, R106). Safe. -/
  | pointerRange
  /-- RD STG_DATA and RD BUF_DATA at the capacity (R104, R107). Safe. -/
  | readPastEnd
  /-- WR BUF_DATA to a buffer that is no channel buffer (R108). Safe. -/
  | bufWriteKind
  /-- UART.FILL and UART.START while a synchronous send is armed (R138, R139). Safe. -/
  | txBusy
  /-- UART.SEND_DMA on a port without a channel (R146). Safe. -/
  | noDmaChannel
  /-- UART.SEND_DMA, I2C.WRITE and I2C.READ of length 0 (R146, R151, R152). Safe. -/
  | zeroLength
  /-- CH.FORCE on a channel without a software trigger (R118). Safe. -/
  | notForceCapable
  /-- CH.SETCNT with a count at or above the channel's capacity (R120). Safe. -/
  | countRange
  /-- Any transition of a machine whose parameters violate R5 to R13 (R193): no run exists. Safe. -/
  | badConfig
  /-- An entry that names no transition, or one that is not enabled (R175). Safe. -/
  | badTrace
  deriving DecidableEq, Repr

/-- The code of a fault (R174). -/
def Fault.code : Fault → Nat
  | .unwrittenRead _ _ => 0x01
  | .unreachablePhase _ => 0x02

/-- The code of a refusal (R175), none for the model's own. -/
def Refusal.code : Refusal → Option Nat
  | .notModelled _ => none
  | .reservedCommand => some 0x10
  | .unmappedRegister => some 0x11
  | .readOnlyWrite => some 0x12
  | .reservedBits => some 0x13
  | .indexRange => some 0x14
  | .pointerRange => some 0x15
  | .readPastEnd => some 0x16
  | .bufWriteKind => some 0x17
  | .txBusy => some 0x18
  | .noDmaChannel => some 0x19
  | .zeroLength => some 0x1A
  | .notForceCapable => some 0x1B
  | .countRange => some 0x1C
  | .badConfig => some 0x1D
  | .badTrace => some 0x1E

/-- state[c] (R47). -/
inductive ChanState where
  | unassigned
  | assigned
  | enabled
  | disabled
  deriving DecidableEq, Repr

/-- transfer_state[c] (R47). -/
inductive XferState where
  | idle
  | inProgress
  | done
  deriving DecidableEq, Repr

/-- A channel descriptor (R47, R49). -/
structure Channel where
  state : ChanState
  /-- transfer_state -/
  xfer : XferState
  /-- IE -/
  ie : Bool
  /-- IF -/
  pend : Bool
  /-- FPEND -/
  fpend : Bool
  /-- RPEND -/
  rpend : Bool
  cnt : Word
  rem : Word
  xidx : Word
  /-- CH_BUF -/
  buf : Mem
  deriving DecidableEq, Repr

/-- DIR[p] (R54). -/
inductive Dir where
  | rx
  | tx
  deriving DecidableEq, Repr

/-- A serial port record (R50 to R54). -/
structure UartPort where
  txBuf : Mem
  txLength : Word
  txCounter : Word
  /-- tx_done: true is Complete (90_conflicts.md C6) -/
  txDone : Bool
  txIe : Bool
  rxBuf : Mem
  rxCounter : Word
  rxDone : Bool
  /-- RXQ, oldest byte first -/
  rxq : List Byte
  oerr : Bool
  ferr : Bool
  /-- TXQ, oldest byte first -/
  txq : List Byte
  /-- TSR: `none` is EMPTY -/
  tsr : Option Byte
  dir : Dir
  /-- WIRE_OUT, oldest pair first -/
  wireOut : List (Byte × Bool)
  deriving DecidableEq, Repr

/-- mode[q] (R56). -/
inductive Mode where
  | write
  | read
  deriving DecidableEq, Repr

/-- A bus operation (R57). -/
inductive BusOp where
  | none
  | start
  | send
  | restart
  | rcen
  | ackrcv
  | nackstop
  | stop
  deriving DecidableEq, Repr

/-- An I2C port record (R56, R57). -/
structure I2cPort where
  txData : Mem
  rxData : Mem
  txCounter : Word
  rxCounter : Word
  writeLength : Word
  readLength : Word
  /-- phase_counter -/
  phase : BitVec 3
  mode : Mode
  busy : Bool
  /-- I2C_IE -/
  ie : Bool
  bop : BusOp
  bopData : Byte
  mif : Bool
  /-- ACKSTAT: true is 1, NACK (93_implementation_defined.md G2) -/
  ackstat : Bool
  /-- RCV: `none` is unwritten -/
  rcv : Option Byte
  /-- BUS_OUT, oldest operation first -/
  busOut : List (BusOp × Option Byte)
  deriving DecidableEq, Repr

/-- The kinds of a POSTARM wait (R60). -/
inductive WaitKind where
  | read
  | probe
  deriving DecidableEq, Repr

/-- HOST_WAIT (R60). -/
inductive HostWait where
  | none
  | preArm (cmd : Word)
  | postArm (q : Idx) (kind : WaitKind)
  deriving DecidableEq, Repr

/-- The machine. `rdata`, `pending` and `draws` are the model's own (assumptions 7, 3 and 4). -/
structure State where
  /-- The parameters, fixed for a run (assumption 1). -/
  cfg : Config
  ch : Vector Channel 16
  uart : Vector UartPort 16
  i2c : Vector I2cPort 16
  cmd : Word
  arg0 : Word
  arg1 : Word
  result : Word
  stgPtr : Word
  bufSel : Word
  bufPtr : Word
  stg : Mem
  hostWait : HostWait
  /-- FAULT -/
  fault : Option Fault
  /-- REFUSED -/
  refused : Option Refusal
  /-- EXT_OUT, oldest pair first -/
  extOut : List (Idx × Byte)
  /-- RDATA, what the last host read returned -/
  rdata : Word
  /-- the entries of the trace not yet taken, next first -/
  pending : List Entry
  /-- how many draws have been made -/
  draws : Nat
  deriving DecidableEq, Repr

/-- A channel after reset (R65). -/
def Channel.reset : Channel where
  state := .unassigned
  xfer := .idle
  ie := false
  pend := false
  fpend := false
  rpend := false
  cnt := 0
  rem := 0
  xidx := 0
  buf := []

/-- A serial port after reset (R65). -/
def UartPort.reset : UartPort where
  txBuf := []
  txLength := 0
  txCounter := 0
  txDone := false
  txIe := false
  rxBuf := []
  rxCounter := 0
  rxDone := false
  rxq := []
  oerr := false
  ferr := false
  txq := []
  tsr := none
  dir := .rx
  wireOut := []

/-- An I2C port after reset (R65). -/
def I2cPort.reset : I2cPort where
  txData := []
  rxData := []
  txCounter := 0
  rxCounter := 0
  writeLength := 0
  readLength := 0
  phase := 0
  mode := .write
  busy := false
  ie := false
  bop := .none
  bopData := 0
  mif := false
  ackstat := false
  rcv := none
  busOut := []

/-- The reset state of the block with the parameters `cfg` (R65, R190). `rdata` and `draws` are 0 and `pending` is
empty by DESIGN CHOICE (assumptions 7, 4 and 3). -/
def State.init (cfg : Config) : State where
  cfg := cfg
  ch := Vector.replicate 16 Channel.reset
  uart := Vector.replicate 16 UartPort.reset
  i2c := Vector.replicate 16 I2cPort.reset
  cmd := 0
  arg0 := 0
  arg1 := 0
  result := 0
  stgPtr := 0
  bufSel := 0
  bufPtr := 0
  stg := []
  hostWait := .none
  fault := none
  refused := none
  extOut := []
  rdata := 0
  pending := []
  draws := 0

/-- The machine right after reset, with the parameters of CFG-A (assumption 1). -/
def State.reset : State := State.init Config.cfgA

end Sys2Proof.Machine
end

