-- ==== Sys2Proof/Machine/Ops.lean ====
section
/-! DEFINITION. The named operations over the state: which parameters are valid, buffer cells, the records of an
instance, and the outcomes of a transition (fault, refusal, not enabled). -/

namespace Sys2Proof.Machine

/-- What a transition answers. -/
abbrev Result := Host.Outcome State Fault Refusal

/-! ## Valid parameters (R5 to R13, R193) -/

/-- 1..65535, the range of every capacity. -/
abbrev CapOk (n : Nat) : Prop := 1 ≤ n ∧ n ≤ 65535

/-- R7, R8, R10, R13 for one serial port. -/
abbrev UartOk (cfg : Config) (u : UartCfg) : Prop :=
  CapOk u.rxCap ∧ 1 ≤ u.rxLen ∧ u.rxLen ≤ u.rxCap ∧ CapOk u.txCap ∧ 1 ≤ u.rxDepth ∧ 1 ≤ u.txDepth ∧
    u.txCap ≤ cfg.stgCap ∧ ∀ c : Idx, u.txDmaCh = some c → c.val < cfg.nCh

/-- TX_DMA_CH[p] = c, for a port that exists (R10). -/
abbrev BoundTo (cfg : Config) (p c : Idx) : Prop := p.val < cfg.nUart ∧ cfg.uart[p].txDmaCh = some c

/-- R11, R13 for one channel: its sink is the port that names it, or EXTERNAL, and a bound channel can be forced. -/
abbrev ChanOk (cfg : Config) (c : Idx) (k : ChanCfg) : Prop :=
  CapOk k.bufCap ∧ k.bufCap ≤ cfg.stgCap ∧ ∀ p : Idx,
    (k.sink = .uartTx p ↔ BoundTo cfg p c) ∧ (BoundTo cfg p c → k.forceCapable = true)

/-- R12, R13 for one I2C port. -/
abbrev I2cOk (cfg : Config) (x : I2cCfg) : Prop := CapOk x.txCap ∧ CapOk x.rxCap ∧ x.txCap ≤ cfg.stgCap

/-- The instance counts and the staging capacity (R5, R6, R13). -/
abbrev CountsOk (cfg : Config) : Prop :=
  (1 ≤ cfg.nCh ∧ cfg.nCh ≤ 16) ∧ (1 ≤ cfg.nUart ∧ cfg.nUart ≤ 16) ∧ (1 ≤ cfg.nI2c ∧ cfg.nI2c ≤ 16) ∧ CapOk cfg.stgCap

/-- Two ports never name the same channel (R10). -/
abbrev BindingsOk (cfg : Config) : Prop :=
  ∀ p c : Idx, BoundTo cfg p c → ∀ p' : Idx, BoundTo cfg p' c → p = p'

/-- A valid parameter set (R193). -/
def configValid (cfg : Config) : Bool :=
  decide (CountsOk cfg) && decide (BindingsOk cfg) &&
    decide (∀ p : Idx, p.val < cfg.nUart → UartOk cfg cfg.uart[p]) &&
    decide (∀ c : Idx, c.val < cfg.nCh → ChanOk cfg c cfg.chan[c]) &&
    decide (∀ q : Idx, q.val < cfg.nI2c → I2cOk cfg cfg.i2c[q])

/-! ## Buffer cells (R14, R16) -/

/-- The byte in cell `a`, or unwritten. -/
def Mem.read : Mem → Nat → Option Byte
  | [], _ => none
  | (k, v) :: m, a => if k = a then some v else Mem.read m a

/-- Cell `a` holds the byte `v`. -/
def Mem.put : Mem → Nat → Byte → Mem
  | [], a, v => [(a, v)]
  | (k, w) :: m, a, v =>
    if a < k then (a, v) :: (k, w) :: m
    else if a = k then (a, v) :: m
    else (k, w) :: Mem.put m a v

/-- Cell `a` becomes unwritten. -/
def Mem.erase (m : Mem) (a : Nat) : Mem := m.filter fun x => x.1 ≠ a

/-- Cell `a` takes a value that may be unwritten: a copy moves unwritten as unwritten (R138). -/
def Mem.write (m : Mem) (a : Nat) : Option Byte → Mem
  | some v => Mem.put m a v
  | none => Mem.erase m a

/-- Cells 0 to n - 1 of `dst` take those of `src` (R72). -/
def Mem.copy (src : Mem) : Nat → Mem → Mem
  | 0, dst => dst
  | n + 1, dst => Mem.write (Mem.copy src n dst) n (Mem.read src n)

/-- Cells 0 to n - 1 take the byte `v` (R137). -/
def Mem.fill (v : Byte) : Nat → Mem → Mem
  | 0, dst => dst
  | n + 1, dst => Mem.put (Mem.fill v n dst) n v

/-! ## The records of an instance -/

def State.chan (s : State) (c : Idx) : Channel := s.ch[c]
def State.port (s : State) (p : Idx) : UartPort := s.uart[p]
def State.i2cp (s : State) (q : Idx) : I2cPort := s.i2c[q]
def State.chanCfg (s : State) (c : Idx) : ChanCfg := s.cfg.chan[c]
def State.portCfg (s : State) (p : Idx) : UartCfg := s.cfg.uart[p]
def State.i2cCfg (s : State) (q : Idx) : I2cCfg := s.cfg.i2c[q]

def State.setChan (s : State) (c : Idx) (x : Channel) : State := { s with ch := s.ch.set c x }
def State.setPort (s : State) (p : Idx) (x : UartPort) : State := { s with uart := s.uart.set p x }
def State.setI2c (s : State) (q : Idx) (x : I2cPort) : State := { s with i2c := s.i2c.set q x }

/-- RESULT is written by the commands of R28 only. -/
def State.setResult (s : State) (w : Word) : State := { s with result := w }
/-- HOST_WAIT (R60). -/
def State.setWait (s : State) (w : HostWait) : State := { s with hostWait := w }
/-- BUF_PTR (R32). -/
def State.setBufPtr (s : State) (w : Word) : State := { s with bufPtr := w }

/-- The cells of a buffer space. -/
def State.mem (s : State) : Buf → Mem
  | .stg => s.stg
  | .uartRx p => (s.port p).rxBuf
  | .uartTx p => (s.port p).txBuf
  | .i2cRx q => (s.i2cp q).rxData
  | .i2cTx q => (s.i2cp q).txData
  | .chBuf c => (s.chan c).buf

/-- The capacity of a buffer space (R66). -/
def State.cap (s : State) : Buf → Nat
  | .stg => s.cfg.stgCap
  | .uartRx p => (s.portCfg p).rxCap
  | .uartTx p => (s.portCfg p).txCap
  | .i2cRx q => (s.i2cCfg q).rxCap
  | .i2cTx q => (s.i2cCfg q).txCap
  | .chBuf c => (s.chanCfg c).bufCap

/-! ## Outcomes (R173) -/

/-- A refusal is recorded in REFUSED and nothing else changes (R61, R175). -/
def refuse (r : Refusal) (s : State) : Result := .next { s with refused := some r }

/-- A fault is recorded in FAULT; the state is otherwise the one before the transition (R61, R180). -/
def raise (f : Fault) (s : State) : Result := .next { s with fault := some f }

/-- `observe` (R16): the byte of a cell, or Fault.UnwrittenRead over the state `s` before the transition. -/
def observe (s : State) (b : Buf) (cell : Nat) (k : Byte → Result) : Result :=
  match Mem.read (s.mem b) cell with
  | some v => k v
  | none => raise (.unwrittenRead b cell) s

/-- A run exists for a valid configuration only (R193), and after a fault or a refusal no transition is enabled
(R61, R173): the machine answers the recorded reason. -/
def live (s : State) (k : State → Result) : Result :=
  if configValid s.cfg then
    match s.fault, s.refused with
    | some f, _ => .fault f
    | none, some r => .refused r
    | none, none => k s
  else .refused .badConfig

/-- A transition that is enabled when `en` holds (R16). Naming one that is not enabled is refused as BadTrace (R175). -/
def transition (en : State → Bool) (s : State) (k : State → Result) : Result :=
  live s fun s => if en s then k s else refuse .badTrace s

/-- A host access is enabled while the host is not held (R99). -/
def hostAccess (s : State) (k : State → Result) : Result :=
  transition (fun s => s.hostWait = .none) s k

/-- A host read returns `v` on the bus (R86, R100). -/
def hostRead (s : State) (v : State → Word) : Result :=
  hostAccess s fun s => .next { s with rdata := v s }

/-- A host access that the register map refuses (R113). -/
def hostRefused (r : Refusal) (s : State) : Result := hostAccess s (refuse r)

/-- A command: CMD takes the word, then the command acts (R110). CMD keeps the word even if the command is refused. -/
def command (w : Word) (s : State) (k : State → Result) : Result :=
  hostAccess s fun s => k { s with cmd := w }

end Sys2Proof.Machine
end

