-- ==== Sys2Proof/Machine/Operands.lean ====
section
/-! DEFINITION. Operand assembly (R88), the fields of BUF_SEL (R31), and the windows (R30, R33, R206). -/

namespace Sys2Proof.Machine

/-- A byte on the 16-bit bus (R15, R70). -/
def zext16 (b : Byte) : Word := b.setWidth 16

/-- The low byte of a written word; the high byte is ignored (R70, R88). -/
def lowByte (w : Word) : Byte := field w 0 8

/-- A length operand saturated to a capacity (R88). -/
def saturate (w : Word) (cap : Nat) : Nat := min w.toNat cap

/-- A count or a length as a 16-bit register value (R14). -/
def count16 (n : Nat) : Word := BitVec.ofNat 16 n

/-- Cells 0 to n - 1 of STG, copied over a buffer (R88). -/
def State.fromStg (s : State) (n : Nat) (dst : Mem) : Mem := Mem.copy s.stg n dst

/-- KIND of BUF_SEL (R31). -/
def selKind (w : Word) : Nat := (field w 0 3).toNat

/-- IDX of BUF_SEL (R31). -/
def selIdx (w : Word) : Idx := idxAt w 4

/-- A BUF_SEL value without reserved bits and with a legal KIND (R105). -/
def selLegal (w : Word) : Bool := field w 8 8 = 0 && field w 3 1 = 0 && selKind w ≤ 4

/-- The instance count of a KIND (R31, R105). -/
def selCount (cfg : Config) (kind : Nat) : Nat :=
  if kind ≤ 1 then cfg.nUart else if kind ≤ 3 then cfg.nI2c else cfg.nCh

/-- SEL() (R206): the buffer BUF_SEL names. R206 gives no buffer for KIND 5 to 7, which BUF_SEL never holds
(assumption 10). -/
def sel (w : Word) : Option Buf :=
  match selKind w with
  | 0 => some (.uartRx (selIdx w))
  | 1 => some (.uartTx (selIdx w))
  | 2 => some (.i2cRx (selIdx w))
  | 3 => some (.i2cTx (selIdx w))
  | 4 => some (.chBuf (selIdx w))
  | _ => none

/-- The selected buffer, or a refusal of the KIND. -/
def withSel (s : State) (k : Buf → Result) : Result :=
  match sel s.bufSel with
  | some b => k b
  | none => refuse .reservedBits s

/-- A load with post-increment through a window (R104, R107): `ptr` is the pointer, `bump` stores the advanced one. -/
def windowRead (s : State) (b : Buf) (ptr : Word) (bump : Word → State → State) : Result :=
  if ptr.toNat = s.cap b then refuse .readPastEnd s
  else observe s b ptr.toNat fun v => .next (bump (ptr + 1) { s with rdata := zext16 v })

/-- OP of a command word (R87). -/
def cmdOp (w : Word) : Nat := (field w 8 4).toNat

/-- IDX of a command word (R87). -/
def cmdIdx (w : Word) : Idx := idxAt w 4

end Sys2Proof.Machine
end

