-- ==== Sys2Proof/Machine/Flags.lean ====
section
/-! DEFINITION. Flags and status: the derived conditions (R52, R54, R207), the event sources of R177, the register
encodings of the enumerations, and the status views (R34 to R45, R109). -/

namespace Sys2Proof.Machine

/-! ## Register encodings -/

/-- STATE of CHSTAT (R34). -/
def ChanState.enc : ChanState → BitVec 2
  | .unassigned => 0
  | .assigned => 1
  | .enabled => 2
  | .disabled => 3

/-- enc (R207): the RESULT encoding of transfer_state. -/
def XferState.enc : XferState → Word
  | .idle => 0
  | .inProgress => 1
  | .done => 2

/-- BOP of ISTAT (R57). -/
def BusOp.enc : BusOp → BitVec 3
  | .none => 0
  | .start => 1
  | .send => 2
  | .restart => 3
  | .rcen => 4
  | .ackrcv => 5
  | .nackstop => 6
  | .stop => 7

/-- MODE of ISTAT (R41). -/
def Mode.enc : Mode → BitVec 1
  | .write => 0
  | .read => 1

/-- DIR of USTAT (R37). -/
def Dir.enc : Dir → BitVec 1
  | .rx => 0
  | .tx => 1

/-- A flag in RESULT (R28). -/
def flag16 (b : Bool) : Word := if b then 1 else 0

/-! ## Derived conditions -/

/-- TRMT (R54, R145). -/
def trmt (u : UartPort) : Bool := u.txq.isEmpty && u.tsr.isNone

/-- RXDA (R37). -/
def rxda (u : UartPort) : Bool := !u.rxq.isEmpty

/-- The receive states the source names (R52), a view of the state. -/
inductive RxView where
  | idle
  | filling
  | complete
  deriving DecidableEq, Repr

/-- RX_VIEW (R52). -/
def rxView (u : UartPort) : RxView :=
  if u.rxDone then .complete else if 0 < u.rxCounter.toNat then .filling else .idle

/-- eligible (R207). -/
def eligible (x : Channel) : Bool := x.state = .enabled && x.xfer = .inProgress && 0 < x.rem.toNat

/-- sink_ready (R207). -/
def sinkReady (s : State) (c : Idx) : Bool :=
  match (s.chanCfg c).sink with
  | .uartTx p => (s.port p).txq.length < (s.portCfg p).txDepth
  | .external => true

/-! ## The event sources (R177): what enables each engine step -/

/-- UART receive: enables ST.RXSV (R131). -/
def rxsvEnabled (p : Idx) (s : State) : Bool := p.val < s.cfg.nUart && rxda (s.port p)

/-- UART error: enables ST.RXER (R133). -/
def rxerEnabled (p : Idx) (s : State) : Bool := p.val < s.cfg.nUart && ((s.port p).oerr || (s.port p).ferr)

/-- The synchronous send has bytes left. -/
def txMore (u : UartPort) : Bool := u.txCounter.toNat < u.txLength.toNat

/-- UART transmit: enables ST.TXSV (R141). The completion branch of a half-duplex port waits for TRMT (R142). DEDUCED
(assumption 12): the branch is the one R141 takes, so the wait also covers a cursor past the length, which no run
reaches. -/
def txsvEnabled (p : Idx) (s : State) : Bool :=
  let u := s.port p
  p.val < s.cfg.nUart && u.txIe && u.txq.length < (s.portCfg p).txDepth &&
    (txMore u || !(s.portCfg p).halfDuplex || trmt u)

/-- Channel request: enables ST.XFER (R121). -/
def xferEnabled (c : Idx) (s : State) : Bool :=
  let x := s.chan c
  c.val < s.cfg.nCh && eligible x && (x.fpend || x.rpend) && sinkReady s c

/-- Channel completion: enables ST.CHCP (R122). -/
def chcpEnabled (c : Idx) (s : State) : Bool := c.val < s.cfg.nCh && (s.chan c).pend && (s.chan c).ie

/-- I2C master: enables ST.I2SV (R157). -/
def i2svEnabled (q : Idx) (s : State) : Bool := q.val < s.cfg.nI2c && (s.i2cp q).mif && (s.i2cp q).ie

/-- Host continuation: enables ST.HCONT (R156). A PREARM word is one of the three I2C commands (R60); for another OP
R156 gives no continuation (assumption 11). -/
def hcontEnabled (s : State) : Bool :=
  match s.hostWait with
  | .none => false
  | .preArm w => !(s.i2cp (cmdIdx w)).busy && cmdOp w ≤ 2
  | .postArm q _ => !(s.i2cp q).busy

/-! ## Status views (R109) -/

/-- CHSTAT (R34). -/
def chstat (x : Channel) : Word :=
  0#10 ++ BitVec.ofBool x.rpend ++ BitVec.ofBool x.fpend ++ BitVec.ofBool x.pend ++ BitVec.ofBool x.ie ++ x.state.enc

/-- USTAT (R37). -/
def ustat (u : UartPort) : Word :=
  0#10 ++ BitVec.ofBool (rxda u) ++ BitVec.ofBool (trmt u) ++ BitVec.ofBool u.ferr ++ BitVec.ofBool u.oerr ++
    u.dir.enc ++ BitVec.ofBool u.txIe

/-- ISTAT (R41). -/
def istat (x : I2cPort) : Word :=
  0#5 ++ x.bop.enc ++ BitVec.ofBool x.mif ++ BitVec.ofBool x.ackstat ++ BitVec.ofBool x.ie ++ BitVec.ofBool x.busy ++
    x.mode.enc ++ x.phase

/-- A view of channel `i`; an absent channel reads 0 (R46). -/
def chView (i : Idx) (v : Channel → Word) (s : State) : Word := if i.val < s.cfg.nCh then v (s.chan i) else 0

/-- A view of serial port `i`; an absent port reads 0 (R46). -/
def uartView (i : Idx) (v : UartPort → Word) (s : State) : Word := if i.val < s.cfg.nUart then v (s.port i) else 0

/-- A view of I2C port `i`; an absent port reads 0 (R46). -/
def i2cView (i : Idx) (v : I2cPort → Word) (s : State) : Word := if i.val < s.cfg.nI2c then v (s.i2cp i) else 0

end Sys2Proof.Machine
end

