-- ==== Sys2Proof/Machine/HostAccess.lean ====
section
/-! DEFINITION. The host register accesses (40_host_access.md R99 to R109, R113), but for WR CMD (Machine/Command.lean). -/

namespace Sys2Proof.Machine

/-! ## Plain registers -/

/-- R100 -/
def execRdCmd (s : State) : Result := hostRead s State.cmd

/-- R100 -/
def execRdArg0 (s : State) : Result := hostRead s State.arg0

/-- R100 -/
def execRdArg1 (s : State) : Result := hostRead s State.arg1

/-- R100 -/
def execRdResult (s : State) : Result := hostRead s State.result

/-- R100 -/
def execRdStgPtr (s : State) : Result := hostRead s State.stgPtr

/-- R100 -/
def execRdBufSel (s : State) : Result := hostRead s State.bufSel

/-- R100 -/
def execRdBufPtr (s : State) : Result := hostRead s State.bufPtr

/-- R101 -/
def execWrArg0 (d : Word) (s : State) : Result := hostAccess s fun s => .next { s with arg0 := d }

/-- R101 -/
def execWrArg1 (d : Word) (s : State) : Result := hostAccess s fun s => .next { s with arg1 := d }

/-! ## The staging window -/

/-- R102 -/
def execWrStgPtr (d : Word) (s : State) : Result :=
  hostAccess s fun s => if s.cfg.stgCap < d.toNat then refuse .pointerRange s else .next { s with stgPtr := d }

/-- R103: a write at the end is dropped. -/
def execWrStgData (d : Word) (s : State) : Result :=
  hostAccess s fun s =>
    if s.stgPtr.toNat < s.cfg.stgCap then
      .next { s with stg := Mem.put s.stg s.stgPtr.toNat (lowByte d), stgPtr := s.stgPtr + 1 }
    else .next s

/-- R104 -/
def execRdStgData (s : State) : Result :=
  hostAccess s fun s => windowRead s .stg s.stgPtr fun ptr t => { t with stgPtr := ptr }

/-! ## The buffer window -/

/-- R105 -/
def execWrBufSel (d : Word) (s : State) : Result :=
  hostAccess s fun s =>
    if !selLegal d then refuse .reservedBits s
    else if selCount s.cfg (selKind d) ≤ (selIdx d).val then refuse .indexRange s
    else .next { s with bufSel := d, bufPtr := 0 }

/-- R106 -/
def execWrBufPtr (d : Word) (s : State) : Result :=
  hostAccess s fun s => withSel s fun b =>
    if s.cap b < d.toNat then refuse .pointerRange s else .next (s.setBufPtr d)

/-- R107 -/
def execRdBufData (s : State) : Result :=
  hostAccess s fun s => withSel s fun b => windowRead s b s.bufPtr fun ptr t => t.setBufPtr ptr

/-- R108: a write at the end is dropped. -/
def execWrBufData (d : Word) (s : State) : Result :=
  hostAccess s fun s =>
    if selKind s.bufSel ≠ 4 then refuse .bufWriteKind s
    else
      let c := selIdx s.bufSel
      let x := s.chan c
      if s.bufPtr.toNat < (s.chanCfg c).bufCap then
        .next ((s.setChan c { x with buf := Mem.put x.buf s.bufPtr.toNat (lowByte d) }).setBufPtr (s.bufPtr + 1))
      else .next s

/-! ## Status views (R109) -/

/-- R34 -/
def execRdChstat (i : Idx) (s : State) : Result := hostRead s (chView i chstat)

/-- R35 -/
def execRdChcnt (i : Idx) (s : State) : Result := hostRead s (chView i Channel.cnt)

/-- R36 -/
def execRdChrem (i : Idx) (s : State) : Result := hostRead s (chView i Channel.rem)

/-- R37 -/
def execRdUstat (i : Idx) (s : State) : Result := hostRead s (uartView i ustat)

/-- R38 -/
def execRdUrxcnt (i : Idx) (s : State) : Result := hostRead s (uartView i UartPort.rxCounter)

/-- R39 -/
def execRdUtxcnt (i : Idx) (s : State) : Result := hostRead s (uartView i UartPort.txCounter)

/-- R40 -/
def execRdUtxlen (i : Idx) (s : State) : Result := hostRead s (uartView i UartPort.txLength)

/-- R41 -/
def execRdIstat (i : Idx) (s : State) : Result := hostRead s (i2cView i istat)

/-- R42 -/
def execRdItxcnt (i : Idx) (s : State) : Result := hostRead s (i2cView i I2cPort.txCounter)

/-- R43 -/
def execRdIrxcnt (i : Idx) (s : State) : Result := hostRead s (i2cView i I2cPort.rxCounter)

/-- R44 -/
def execRdIwlen (i : Idx) (s : State) : Result := hostRead s (i2cView i I2cPort.writeLength)

/-- R45 -/
def execRdIrlen (i : Idx) (s : State) : Result := hostRead s (i2cView i I2cPort.readLength)

/-! ## Refused accesses (R113, R46) -/

/-- WR RESULT -/
def execWrResult (_d : Word) (s : State) : Result := hostRefused .readOnlyWrite s

/-- WR CHSTAT -/
def execWrChstat (_i : Idx) (_d : Word) (s : State) : Result := hostRefused .readOnlyWrite s

/-- WR CHCNT -/
def execWrChcnt (_i : Idx) (_d : Word) (s : State) : Result := hostRefused .readOnlyWrite s

/-- WR CHREM -/
def execWrChrem (_i : Idx) (_d : Word) (s : State) : Result := hostRefused .readOnlyWrite s

/-- WR USTAT -/
def execWrUstat (_i : Idx) (_d : Word) (s : State) : Result := hostRefused .readOnlyWrite s

/-- WR URXCNT -/
def execWrUrxcnt (_i : Idx) (_d : Word) (s : State) : Result := hostRefused .readOnlyWrite s

/-- WR UTXCNT -/
def execWrUtxcnt (_i : Idx) (_d : Word) (s : State) : Result := hostRefused .readOnlyWrite s

/-- WR UTXLEN -/
def execWrUtxlen (_i : Idx) (_d : Word) (s : State) : Result := hostRefused .readOnlyWrite s

/-- WR ISTAT -/
def execWrIstat (_i : Idx) (_d : Word) (s : State) : Result := hostRefused .readOnlyWrite s

/-- WR ITXCNT -/
def execWrItxcnt (_i : Idx) (_d : Word) (s : State) : Result := hostRefused .readOnlyWrite s

/-- WR IRXCNT -/
def execWrIrxcnt (_i : Idx) (_d : Word) (s : State) : Result := hostRefused .readOnlyWrite s

/-- WR IWLEN -/
def execWrIwlen (_i : Idx) (_d : Word) (s : State) : Result := hostRefused .readOnlyWrite s

/-- WR IRLEN -/
def execWrIrlen (_i : Idx) (_d : Word) (s : State) : Result := hostRefused .readOnlyWrite s

/-- RD and WR of 0x09 -/
def execRsv09 (_d : Option Word) (s : State) : Result := hostRefused .unmappedRegister s

/-- RD and WR of 0x0A, 0x0B -/
def execRsv0A (_b : BitVec 1) (_d : Option Word) (s : State) : Result := hostRefused .unmappedRegister s

/-- RD and WR of 0x0C to 0x0F -/
def execRsv0C (_b : BitVec 2) (_d : Option Word) (s : State) : Result := hostRefused .unmappedRegister s

/-- RD and WR of 0xD0 to 0xDF -/
def execRsvD0 (_b : BitVec 4) (_d : Option Word) (s : State) : Result := hostRefused .unmappedRegister s

/-- RD and WR of 0xE0 to 0xFF -/
def execRsvE0 (_b : BitVec 5) (_d : Option Word) (s : State) : Result := hostRefused .unmappedRegister s

end Sys2Proof.Machine
end

