-- ==== Sys2Proof/Machine/I2c.lean ====
section
/-! DEFINITION. The master transaction engine (43_i2c.md R151 to R168). -/

namespace Sys2Proof.Machine

/-- issue (R168). -/
def issue (x : I2cPort) (k : BusOp) (v : Option Byte) : I2cPort :=
  { x with bop := k, bopData := v.getD 0, busOut := x.busOut ++ [(k, v)] }

/-- ARM (R154). -/
def arm (x : I2cPort) : I2cPort :=
  issue { x with txCounter := 0, rxCounter := 0, phase := 0, busy := true, ie := true, mif := false } .start none

/-- WRITE_ARM (R151). -/
def writeArm (q : Idx) (s : State) : State :=
  let x := s.i2cp q
  let n := saturate s.arg0 (s.i2cCfg q).txCap
  s.setI2c q (arm { x with txData := s.fromStg n x.txData, writeLength := count16 n, mode := .write })

/-- READ_ARM (R152). -/
def readArm (q : Idx) (s : State) : State :=
  let x := s.i2cp q
  let nw := saturate s.arg0 (s.i2cCfg q).txCap
  let nr := saturate s.arg1 (s.i2cCfg q).rxCap
  (s.setI2c q (arm { x with
    txData := s.fromStg nw x.txData, writeLength := count16 nw, readLength := count16 nr, mode := .read })).setWait
    (.postArm q .read)

/-- PROBE_ARM (R153). -/
def probeArm (q : Idx) (s : State) : State :=
  let x := s.i2cp q
  (s.setI2c q (arm { x with txData := Mem.put x.txData 0 (lowByte s.arg0), writeLength := 1, mode := .write })).setWait
    (.postArm q .probe)

/-- On a busy port the command holds the host (R151 to R153, R176); otherwise it arms. -/
def armOrHold (q : Idx) (s : State) (armed : State → State) : Result :=
  if (s.i2cp q).busy then .next (s.setWait (.preArm s.cmd)) else .next (armed s)

/-- R151, R155 -/
def execI2cWrite (q : Idx) (s : State) : Result :=
  command (cmdWord 3 0 q) s fun s =>
    if s.cfg.nI2c ≤ q.val then .next s
    else if s.arg0 = 0 then refuse .zeroLength s
    else armOrHold q s (writeArm q)

/-- R152, R155 -/
def execI2cRead (q : Idx) (s : State) : Result :=
  command (cmdWord 3 1 q) s fun s =>
    if s.cfg.nI2c ≤ q.val then .next (s.setResult 0)
    else if s.arg0 = 0 ∨ s.arg1 = 0 then refuse .zeroLength s
    else armOrHold q s (readArm q)

/-- R153, R155 -/
def execI2cProbe (q : Idx) (s : State) : Result :=
  command (cmdWord 3 2 q) s fun s =>
    if s.cfg.nI2c ≤ q.val then .next (s.setResult 0) else armOrHold q s (probeArm q)

/-- R156 -/
def execStHcont (s : State) : Result :=
  transition hcontEnabled s fun s =>
    match s.hostWait with
    | .none => .next s
    | .preArm w =>
      match cmdOp w with
      | 0 => .next (writeArm (cmdIdx w) (s.setWait .none))
      | 1 => .next (readArm (cmdIdx w) (s.setWait .none))
      | _ => .next (probeArm (cmdIdx w) (s.setWait .none))
    | .postArm q .read => .next ((s.setResult (s.i2cp q).readLength).setWait .none)
    | .postArm q .probe => .next ((s.setResult (flag16 (!(s.i2cp q).ackstat))).setWait .none)

/-! ## The phases. `x` is port `q` with MIF already cleared; a fault leaves `s`, the state before the step (R180). -/

/-- The next byte of tx_data is sent (R158, R159, R161). -/
def sendNext (q : Idx) (s : State) (x : I2cPort) (phase : BitVec 3) : Result :=
  observe s (.i2cTx q) x.txCounter.toNat fun v =>
    .next (s.setI2c q (issue { x with txCounter := x.txCounter + 1, phase := phase } .send (some v)))

/-- Phase 0 (R158). -/
def phaseAddress (q : Idx) (s : State) (x : I2cPort) : Result := sendNext q s x 1

/-- Phase 1 of both modes (R159, R161): the next byte, or the operation that ends the write bytes. -/
def phaseBytes (q : Idx) (s : State) (x : I2cPort) (last : BusOp) : Result :=
  if x.txCounter.toNat < x.writeLength.toNat then sendNext q s x 1
  else .next (s.setI2c q (issue { x with phase := 2 } last none))

/-- Phase 2, Write (R160): the counters and the phase stay. -/
def phaseWriteEnd (q : Idx) (s : State) (x : I2cPort) : Result :=
  .next (s.setI2c q { x with busy := false, ie := false })

/-- Phase 2, Read (R162): the address byte with the read bit, bit 0 (93_implementation_defined.md G1). -/
def phaseReadAddress (q : Idx) (s : State) (x : I2cPort) : Result :=
  observe s (.i2cTx q) 0 fun v => .next (s.setI2c q (issue { x with phase := 3 } .send (some (v ||| 1))))

/-- Phase 3, Read (R163). -/
def phaseReceive (q : Idx) (s : State) (x : I2cPort) : Result :=
  .next (s.setI2c q (issue { x with phase := 4 } .rcen none))

/-- Phase 4, Read (R164). -/
def phaseStore (q : Idx) (s : State) (x : I2cPort) : Result :=
  let y := { x with rxData := Mem.write x.rxData x.rxCounter.toNat x.rcv, rxCounter := x.rxCounter + 1 }
  if y.rxCounter.toNat < y.readLength.toNat then .next (s.setI2c q (issue y .ackrcv none))
  else .next (s.setI2c q (issue { y with phase := 5 } .nackstop none))

/-- Phase 5, Read (R165): the phase stays. -/
def phaseReadEnd (q : Idx) (s : State) (x : I2cPort) : Result :=
  .next (s.setI2c q { x with busy := false, txCounter := 0, rxCounter := 0, ie := false })

/-- R157, R167 -/
def execStI2sv (q : Idx) (s : State) : Result :=
  transition (i2svEnabled q) s fun s =>
    let x := { s.i2cp q with mif := false }
    match x.phase.toNat, x.mode with
    | 0, _ => phaseAddress q s x
    | 1, .write => phaseBytes q s x .stop
    | 2, .write => phaseWriteEnd q s x
    | 1, .read => phaseBytes q s x .restart
    | 2, .read => phaseReadAddress q s x
    | 3, .read => phaseReceive q s x
    | 4, .read => phaseStore q s x
    | 5, .read => phaseReadEnd q s x
    | _, _ => raise (.unreachablePhase q) s

/-! ## The bus -/

/-- What the completion of the pending operation records (R166). -/
def complete (x : I2cPort) (d : Byte) : I2cPort :=
  match x.bop with
  | .send => { x with ackstat := d.getLsbD 0 }
  | .rcen | .ackrcv => { x with rcv := some d }
  | .none | .start | .restart | .nackstop | .stop => x

/-- R166 -/
def execEvI2cd (q : Idx) (d : Byte) (s : State) : Result :=
  transition (fun s => q.val < s.cfg.nI2c && (s.i2cp q).bop ≠ .none) s fun s =>
    .next (s.setI2c q { complete (s.i2cp q) d with bop := .none, mif := true })

end Sys2Proof.Machine
end

