-- ==== Sys2Proof/Machine/Channel.lean ====
section
/-! DEFINITION. The Channel Resource Table and the DMA arbiter (41_channel_table.md R114 to R123). -/

namespace Sys2Proof.Machine

/-- A channel command: with an absent index nothing changes but CMD (R114). -/
def chanCommand (op : BitVec 4) (c : Idx) (s : State) (k : State → Result) : Result :=
  command (cmdWord 1 op c) s fun s => if c.val < s.cfg.nCh then k s else .next s

/-- A new block from cell 0 (R116). IF is not cleared. -/
def startBlock (x : Channel) : Channel :=
  { x with
    state := .enabled, xfer := .inProgress, ie := true, rem := x.cnt + 1, xidx := 0, fpend := false, rpend := false }

/-- R115 -/
def execChAcquire (c : Idx) (s : State) : Result :=
  chanCommand 0 c s fun s => .next (s.setChan c { s.chan c with state := .assigned, pend := false })

/-- R116 -/
def execChEnable (c : Idx) (s : State) : Result :=
  chanCommand 1 c s fun s => .next (s.setChan c (startBlock (s.chan c)))

/-- R117: IF, CNT, REM and XIDX are unchanged. -/
def execChDisable (c : Idx) (s : State) : Result :=
  chanCommand 2 c s fun s => .next (s.setChan c
    { s.chan c with state := .disabled, xfer := .done, ie := false, fpend := false, rpend := false })

/-- R118: a channel that is not running drops the request. -/
def execChForce (c : Idx) (s : State) : Result :=
  chanCommand 3 c s fun s =>
    if !(s.chanCfg c).forceCapable then refuse .notForceCapable s
    else if eligible (s.chan c) then .next (s.setChan c { s.chan c with fpend := true })
    else .next s

/-- R119, R114: an absent channel reads Idle. -/
def execChPoll (c : Idx) (s : State) : Result :=
  command (cmdWord 1 4 c) s fun s =>
    if c.val < s.cfg.nCh then
      let x := s.chan c
      .next ((s.setChan c { x with xfer := if x.xfer = .done then .idle else x.xfer }).setResult x.xfer.enc)
    else .next (s.setResult 0)

/-- R120 -/
def execChSetcnt (c : Idx) (s : State) : Result :=
  chanCommand 5 c s fun s =>
    if (s.chanCfg c).bufCap ≤ s.arg0.toNat then refuse .countRange s
    else .next (s.setChan c { s.chan c with cnt := s.arg0 })

/-! ## The arbiter -/

/-- One request is consumed, the forced one first (R121). -/
def takeRequest (x : Channel) : Channel := if x.fpend then { x with fpend := false } else { x with rpend := false }

/-- The end of a block raises IF and drops the requests (R121). -/
def endBlock (x : Channel) : Channel :=
  if x.rem = 0 then { x with pend := true, fpend := false, rpend := false } else x

/-- The byte reaches the channel's sink (R121). -/
def deliver (c : Idx) (v : Byte) (s : State) : State :=
  match (s.chanCfg c).sink with
  | .uartTx p => s.setPort p { s.port p with txq := (s.port p).txq ++ [v] }
  | .external => { s with extOut := s.extOut ++ [(c, v)] }

/-- R121 -/
def execStXfer (c : Idx) (s : State) : Result :=
  transition (xferEnabled c) s fun s =>
    let x := s.chan c
    observe s (.chBuf c) x.xidx.toNat fun v =>
      .next (deliver c v (s.setChan c (endBlock (takeRequest { x with xidx := x.xidx + 1, rem := x.rem - 1 }))))

/-- R122: state[c] stays as it is. -/
def execStChcp (c : Idx) (s : State) : Result :=
  transition (chcpEnabled c) s fun s => .next (s.setChan c { s.chan c with pend := false, xfer := .done })

/-- A request pulse (R123): latched while the channel is eligible, lost otherwise. -/
def requestPulse (c : Idx) (s : State) : State :=
  s.setChan c (if eligible (s.chan c) then { s.chan c with rpend := true } else s.chan c)

/-- R123: an external request line. It has no effect on a channel bound to a UART. -/
def execEvChrq (c : Idx) (_x : Byte) (s : State) : Result :=
  transition (fun s => c.val < s.cfg.nCh) s fun s =>
    match (s.chanCfg c).sink with
    | .external => .next (requestPulse c s)
    | .uartTx _ => .next s

end Sys2Proof.Machine
end

