-- ==== Sys2Proof/Machine/Uart.lean ====
section
/-! DEFINITION. The framed serial receiver and transmitter (42_uart.md R127 to R149). -/

namespace Sys2Proof.Machine

/-- A serial port command: with an absent index nothing changes but CMD (R127). -/
def uartCommand (op : BitVec 4) (p : Idx) (s : State) (k : State → Result) : Result :=
  command (cmdWord 2 op p) s fun s => if p.val < s.cfg.nUart then k s else .next s

/-- A serial port command with a result: with an absent index RESULT is 0 (R127). -/
def uartQuery (op : BitVec 4) (p : Idx) (s : State) (k : State → Result) : Result :=
  command (cmdWord 2 op p) s fun s => if p.val < s.cfg.nUart then k s else .next (s.setResult 0)

/-! ## The receiver -/

/-- R129: an arriving byte is queued, or lost to an overrun. -/
def execEvRxb (p : Idx) (b : Byte) (s : State) : Result :=
  transition (fun s => p.val < s.cfg.nUart) s fun s =>
    let u := s.port p
    if u.oerr then .next s
    else if u.rxq.length = (s.portCfg p).rxDepth then .next (s.setPort p { u with oerr := true })
    else .next (s.setPort p { u with rxq := u.rxq ++ [b] })

/-- R130: the byte in error is discarded. -/
def execEvRxfe (p : Idx) (_x : Byte) (s : State) : Result :=
  transition (fun s => p.val < s.cfg.nUart) s fun s => .next (s.setPort p { s.port p with ferr := true })

/-- The byte goes to the cursor's cell, if the cursor is inside the frame (R131). -/
def storeRx (len : Nat) (b : Byte) (u : UartPort) : UartPort :=
  if u.rxCounter.toNat < len then
    { u with rxBuf := Mem.put u.rxBuf u.rxCounter.toNat b, rxCounter := u.rxCounter + 1 }
  else u

/-- The frame boundary: drain the queue, raise rx_done, cursor to 0 (R131, R132). -/
def endFrame (len : Nat) (u : UartPort) : UartPort :=
  if u.rxCounter.toNat = len then { u with rxq := [], rxDone := true, rxCounter := 0 } else u

/-- R131 -/
def execStRxsv (p : Idx) (s : State) : Result :=
  transition (rxsvEnabled p) s fun s =>
    let u := s.port p
    let len := (s.portCfg p).rxLen
    .next (s.setPort p (endFrame len (storeRx len (u.rxq.headD 0) { u with rxq := u.rxq.tail })))

/-- R133: rx_done and the cells of the partial frame are unchanged. -/
def execStRxer (p : Idx) (s : State) : Result :=
  transition (rxerEnabled p) s fun s =>
    .next (s.setPort p { s.port p with rxq := [], rxCounter := 0, oerr := false, ferr := false })

/-- R135 -/
def execUartRxReady (p : Idx) (s : State) : Result :=
  uartQuery 3 p s fun s =>
    .next ((s.setPort p { s.port p with rxDone := false }).setResult (flag16 (s.port p).rxDone))

/-- R136 -/
def execUartTxReady (p : Idx) (s : State) : Result :=
  uartQuery 4 p s fun s =>
    .next ((s.setPort p { s.port p with txDone := false }).setResult (flag16 (s.port p).txDone))

/-- R137: every cell of the capacity; rx_done, RXQ and the error flags are unchanged. -/
def execUartClearRx (p : Idx) (s : State) : Result :=
  uartCommand 5 p s fun s =>
    let u := s.port p
    .next (s.setPort p { u with rxBuf := Mem.fill (lowByte s.arg0) (s.portCfg p).rxCap u.rxBuf, rxCounter := 0 })

/-! ## The synchronous transmit policy -/

/-- R138 -/
def execUartFill (p : Idx) (s : State) : Result :=
  uartCommand 0 p s fun s =>
    let u := s.port p
    if u.txIe then refuse .txBusy s
    else
      let n := saturate s.arg0 (s.portCfg p).txCap
      .next (s.setPort p { u with txBuf := s.fromStg n u.txBuf, txLength := count16 n })

/-- R139 -/
def execUartStart (p : Idx) (s : State) : Result :=
  uartCommand 1 p s fun s =>
    let u := s.port p
    if u.txIe then refuse .txBusy s
    else .next (s.setPort p
      { u with txCounter := 0, txDone := false, txIe := true, dir := if (s.portCfg p).halfDuplex then .tx else u.dir })

/-- The completion branch of R141. -/
def endSend (halfDuplex : Bool) (u : UartPort) : UartPort :=
  { u with txDone := true, txIe := false, txCounter := 0, dir := if halfDuplex then .rx else u.dir }

/-- R141 -/
def execStTxsv (p : Idx) (s : State) : Result :=
  transition (txsvEnabled p) s fun s =>
    let u := s.port p
    if txMore u then
      observe s (.uartTx p) u.txCounter.toNat fun v =>
        .next (s.setPort p { u with txq := u.txq ++ [v], txCounter := u.txCounter + 1 })
    else .next (s.setPort p (endSend (s.portCfg p).halfDuplex u))

/-! ## The wire side -/

/-- R143: the queue's head moves into the empty shift register, which is a request pulse for the port's channel. -/
def execEvTxld (p : Idx) (_x : Byte) (s : State) : Result :=
  transition (fun s => p.val < s.cfg.nUart && (s.port p).tsr.isNone && !(s.port p).txq.isEmpty) s fun s =>
    let u := s.port p
    let t := s.setPort p { u with tsr := u.txq.head?, txq := u.txq.tail }
    match (s.portCfg p).txDmaCh with
    | some c => .next (requestPulse c t)
    | none => .next t

/-- Whether a byte that finishes now reaches the line (R54, R144). -/
def wireOk (halfDuplex : Bool) (u : UartPort) : Bool := !halfDuplex || u.dir = .tx

/-- R144 -/
def execEvTxsh (p : Idx) (_x : Byte) (s : State) : Result :=
  transition (fun s => p.val < s.cfg.nUart && (s.port p).tsr.isSome) s fun s =>
    let u := s.port p
    .next (s.setPort p
      { u with tsr := none, wireOut := u.wireOut ++ [(u.tsr.getD 0, wireOk (s.portCfg p).halfDuplex u)] })

/-! ## The DMA-offload transmit policy -/

/-- R146: the block of a DMA send: the bytes of STG, count n - 1, enabled and forced. -/
def sendBlock (s : State) (n : Nat) (x : Channel) : Channel :=
  { startBlock { x with buf := s.fromStg n x.buf, cnt := count16 (n - 1) } with fpend := true }

/-- R146 -/
def execUartSendDma (p : Idx) (s : State) : Result :=
  uartQuery 2 p s fun s =>
    match (s.portCfg p).txDmaCh with
    | none => refuse .noDmaChannel s
    | some c =>
      if s.arg0 = 0 then refuse .zeroLength s
      else if (s.chan c).xfer = .inProgress ∨ trmt (s.port p) = false then .next (s.setResult 0)
      else
        let n := saturate s.arg0 (s.chanCfg c).bufCap
        .next ((s.setChan c (sendBlock s n (s.chan c))).setResult 1)

end Sys2Proof.Machine
end

