-- ==== Sys2Proof/Machine/Command.lean ====
section
/-! DEFINITION. WR CMD and NOP (40_host_access.md R110 to R112). -/

namespace Sys2Proof.Machine

/-- R111 -/
def execNop (s : State) : Result := command 0 s fun s => .next s

/-- A reserved command word: CMD keeps it and the command is refused (R112). -/
def reservedWord (w : Word) (s : State) : Result := command w s (refuse .reservedCommand)

/-- R110: the word is stored and the command it encodes is executed. The named commands below store their own word. -/
def execWrCmd (w : Word) (s : State) : Result :=
  match decodeCmd w with
  | .ok .nop => execNop s
  | .ok (.chAcquire c) => execChAcquire c s
  | .ok (.chEnable c) => execChEnable c s
  | .ok (.chDisable c) => execChDisable c s
  | .ok (.chForce c) => execChForce c s
  | .ok (.chPoll c) => execChPoll c s
  | .ok (.chSetcnt c) => execChSetcnt c s
  | .ok (.uartFill p) => execUartFill p s
  | .ok (.uartStart p) => execUartStart p s
  | .ok (.uartSendDma p) => execUartSendDma p s
  | .ok (.uartRxReady p) => execUartRxReady p s
  | .ok (.uartTxReady p) => execUartTxReady p s
  | .ok (.uartClearRx p) => execUartClearRx p s
  | .ok (.i2cWrite q) => execI2cWrite q s
  | .ok (.i2cRead q) => execI2cRead q s
  | .ok (.i2cProbe q) => execI2cProbe q s
  | .ok _ | .error _ => reservedWord w s

end Sys2Proof.Machine
end

