-- ==== Sys2Proof/Machine/Dispatch.lean ====
section
/-! DEFINITION. One arm per instruction: a direct call of its meaning. -/

namespace Sys2Proof.Machine

/-- The effect of a transition (R18). -/
def exec (i : Instr) (s : State) : Host.Outcome State Fault Refusal :=
  match i with
  | .rdCmd => Sys2Proof.Machine.execRdCmd s
  | .rdArg0 => Sys2Proof.Machine.execRdArg0 s
  | .rdArg1 => Sys2Proof.Machine.execRdArg1 s
  | .rdResult => Sys2Proof.Machine.execRdResult s
  | .rdStgPtr => Sys2Proof.Machine.execRdStgPtr s
  | .rdStgData => Sys2Proof.Machine.execRdStgData s
  | .rdBufSel => Sys2Proof.Machine.execRdBufSel s
  | .rdBufPtr => Sys2Proof.Machine.execRdBufPtr s
  | .rdBufData => Sys2Proof.Machine.execRdBufData s
  | .wrCmd d => Sys2Proof.Machine.execWrCmd d s
  | .wrArg0 d => Sys2Proof.Machine.execWrArg0 d s
  | .wrArg1 d => Sys2Proof.Machine.execWrArg1 d s
  | .wrStgPtr d => Sys2Proof.Machine.execWrStgPtr d s
  | .wrStgData d => Sys2Proof.Machine.execWrStgData d s
  | .wrBufSel d => Sys2Proof.Machine.execWrBufSel d s
  | .wrBufPtr d => Sys2Proof.Machine.execWrBufPtr d s
  | .wrBufData d => Sys2Proof.Machine.execWrBufData d s
  | .wrResult d => Sys2Proof.Machine.execWrResult d s
  | .rdChstat k => Sys2Proof.Machine.execRdChstat k s
  | .rdChcnt k => Sys2Proof.Machine.execRdChcnt k s
  | .rdChrem k => Sys2Proof.Machine.execRdChrem k s
  | .rdUstat k => Sys2Proof.Machine.execRdUstat k s
  | .rdUrxcnt k => Sys2Proof.Machine.execRdUrxcnt k s
  | .rdUtxcnt k => Sys2Proof.Machine.execRdUtxcnt k s
  | .rdUtxlen k => Sys2Proof.Machine.execRdUtxlen k s
  | .rdIstat k => Sys2Proof.Machine.execRdIstat k s
  | .rdItxcnt k => Sys2Proof.Machine.execRdItxcnt k s
  | .rdIrxcnt k => Sys2Proof.Machine.execRdIrxcnt k s
  | .rdIwlen k => Sys2Proof.Machine.execRdIwlen k s
  | .rdIrlen k => Sys2Proof.Machine.execRdIrlen k s
  | .wrChstat k d => Sys2Proof.Machine.execWrChstat k d s
  | .wrChcnt k d => Sys2Proof.Machine.execWrChcnt k d s
  | .wrChrem k d => Sys2Proof.Machine.execWrChrem k d s
  | .wrUstat k d => Sys2Proof.Machine.execWrUstat k d s
  | .wrUrxcnt k d => Sys2Proof.Machine.execWrUrxcnt k d s
  | .wrUtxcnt k d => Sys2Proof.Machine.execWrUtxcnt k d s
  | .wrUtxlen k d => Sys2Proof.Machine.execWrUtxlen k d s
  | .wrIstat k d => Sys2Proof.Machine.execWrIstat k d s
  | .wrItxcnt k d => Sys2Proof.Machine.execWrItxcnt k d s
  | .wrIrxcnt k d => Sys2Proof.Machine.execWrIrxcnt k d s
  | .wrIwlen k d => Sys2Proof.Machine.execWrIwlen k d s
  | .wrIrlen k d => Sys2Proof.Machine.execWrIrlen k d s
  | .rsv09 d => Sys2Proof.Machine.execRsv09 d s
  | .rsv0A b d => Sys2Proof.Machine.execRsv0A b d s
  | .rsv0C b d => Sys2Proof.Machine.execRsv0C b d s
  | .rsvD0 b d => Sys2Proof.Machine.execRsvD0 b d s
  | .rsvE0 b d => Sys2Proof.Machine.execRsvE0 b d s
  | .nop => Sys2Proof.Machine.execNop s
  | .chAcquire c => Sys2Proof.Machine.execChAcquire c s
  | .chEnable c => Sys2Proof.Machine.execChEnable c s
  | .chDisable c => Sys2Proof.Machine.execChDisable c s
  | .chForce c => Sys2Proof.Machine.execChForce c s
  | .chPoll c => Sys2Proof.Machine.execChPoll c s
  | .chSetcnt c => Sys2Proof.Machine.execChSetcnt c s
  | .uartFill p => Sys2Proof.Machine.execUartFill p s
  | .uartStart p => Sys2Proof.Machine.execUartStart p s
  | .uartSendDma p => Sys2Proof.Machine.execUartSendDma p s
  | .uartRxReady p => Sys2Proof.Machine.execUartRxReady p s
  | .uartTxReady p => Sys2Proof.Machine.execUartTxReady p s
  | .uartClearRx p => Sys2Proof.Machine.execUartClearRx p s
  | .i2cWrite q => Sys2Proof.Machine.execI2cWrite q s
  | .i2cRead q => Sys2Proof.Machine.execI2cRead q s
  | .i2cProbe q => Sys2Proof.Machine.execI2cProbe q s
  | .evRxb p b => Sys2Proof.Machine.execEvRxb p b s
  | .evRxfe p x => Sys2Proof.Machine.execEvRxfe p x s
  | .evTxld p x => Sys2Proof.Machine.execEvTxld p x s
  | .evTxsh p x => Sys2Proof.Machine.execEvTxsh p x s
  | .evChrq c x => Sys2Proof.Machine.execEvChrq c x s
  | .evI2cd q d => Sys2Proof.Machine.execEvI2cd q d s
  | .stRxsv p => Sys2Proof.Machine.execStRxsv p s
  | .stRxer p => Sys2Proof.Machine.execStRxer p s
  | .stTxsv p => Sys2Proof.Machine.execStTxsv p s
  | .stXfer c => Sys2Proof.Machine.execStXfer c s
  | .stChcp c => Sys2Proof.Machine.execStChcp c s
  | .stI2sv q => Sys2Proof.Machine.execStI2sv q s
  | .stHcont => Sys2Proof.Machine.execStHcont s

end Sys2Proof.Machine
end

