-- ==== Sys2Proof/Machine/Fetch.lean ====
section
/-! DEFINITION. Taking the next transition: from the trace, or by a draw (R17, R97, R179). -/

namespace Sys2Proof.Machine

/-- An entry's transition; an entry that names none is refused as BadTrace (R93, R175). A reserved CMD word is a host
access with an effect of its own (R93, R112). -/
def runEntry (e : Entry) (s : State) : Result :=
  match decode e, e with
  | .ok i, _ => exec i s
  | .error .reservedCommand, .cmd w => exec (.wrCmd w) s
  | .error _, _ => live s (refuse .badTrace)

/-- The trace's next transition; the entry is consumed. -/
def traceStep (e : Entry) (rest : List Entry) (s : State) : Result := runEntry e { s with pending := rest }

/-- The outcome `o` of a drawn entry over the state `t`: nothing happens where the entry names no enabled transition,
since only an enabled transition may be taken (R17). -/
def orIdle (t : State) (o : Result) : Result :=
  match o with
  | .next u => if u.refused = some .badTrace then .next t else .next u
  | .fault f => .fault f
  | .refused r => .refused r

/-- The state once the next draw is made. -/
def State.countDraw (s : State) : State := { s with draws := s.draws + 1 }

/-- A draw (assumption 4): the free value names the next transition. -/
def drawStep (s : State) : Result := orIdle s.countDraw (runEntry (Config.draw s.draws) s.countDraw)

/-- `s` with the entry `e` next (assumption 3). -/
def State.withEntry (s : State) (e : Entry) : State := { s with pending := e :: s.pending }

end Sys2Proof.Machine
end

