-- ==== Sys2Proof/Machine/Step.lean ====
section
/-! DEFINITION. One step of the machine, and the host's placing of one opcode-table word. -/

namespace Sys2Proof.Machine

/-- One transition (R17): the next entry of the trace, or a draw where the trace is empty. -/
def step (s : State) : Host.Outcome State Fault Refusal :=
  match s.pending with
  | e :: rest => traceStep e rest s
  | [] => drawStep s

/-- `s` with an opcode-table word as the next transition. A word that names no instruction is placed as a STEP word,
which `step` refuses. -/
def State.withFetchWord (s : State) (nbits w : Nat) : State :=
  s.withEntry ((tableEntry (w % 2 ^ nbits)).getD (.step 0))

end Sys2Proof.Machine
end

