-- ==== Sys2Proof/Safety.lean ====
section
/-! DEFINITION. What counts as a safe run: when a transition can happen, the invariant of the block, and the words in
which the statements say what a transition leaves unchanged. -/

namespace Sys2Proof.Machine

/-! ## When the machine runs -/

/-- A run exists and has neither faulted nor been refused (R61, R173, R193). -/
abbrev Live (s : State) : Prop := configValid s.cfg = true ∧ s.fault = none ∧ s.refused = none

/-- A host access is enabled (R99). -/
abbrev HostReady (s : State) : Prop := Live s ∧ s.hostWait = .none

/-- The transition was refused as naming no enabled transition (R175): nothing changed but REFUSED. -/
abbrev RefusedAs (r : Refusal) (s : State) (o : Result) : Prop := o = .next { s with refused := some r }

/-- The transition faulted: nothing changed but FAULT (R180). -/
abbrev FaultsAs (f : Fault) (s : State) (o : Result) : Prop := o = .next { s with fault := some f }

/-- The transition answers a next state, and that state satisfies `P`. -/
abbrev Answers (o : Result) (P : State → Prop) : Prop := ∃ t, o = .next t ∧ P t

/-! ## Which instruction acts -/

/-- A host access: a transition of the BUS or the CMD form (R17, R85). -/
def isHostAccess (i : Instr) : Bool :=
  match encode i with
  | .bus _ _ | .cmd _ => true
  | .evt _ | .step _ => false

/-- The instruction whose effect is taken: WR CMD executes the command its word encodes (R110). -/
def actsAs (i : Instr) : Instr :=
  match i with
  | .wrCmd w => (decodeCmd w).toOption.getD (.wrCmd w)
  | j => j

/-! ## Frames -/

/-- Every buffer cell outside `stored` reads as before. -/
def CellsExcept (stored : Buf → Nat → Prop) (s t : State) : Prop :=
  ∀ b a, ¬ stored b a → Mem.read (t.mem b) a = Mem.read (s.mem b) a

/-- No buffer cell changed. -/
def SameCells (s t : State) : Prop := ∀ b a, Mem.read (t.mem b) a = Mem.read (s.mem b) a

/-- The cells 0 to n - 1 of `b` are those of STG, and no other cell changed (R72). -/
def CopiedFromStg (b : Buf) (n : Nat) (s t : State) : Prop :=
  (∀ a < n, Mem.read (t.mem b) a = Mem.read s.stg a) ∧ CellsExcept (fun b' a => b' = b ∧ a < n) s t

/-- Only the record of channel `c` may differ. -/
def OnlyChan (c : Idx) (s t : State) : Prop := t = { s with ch := t.ch } ∧ ∀ d, d ≠ c → t.chan d = s.chan d

/-- Only the record of serial port `p` may differ. -/
def OnlyPort (p : Idx) (s t : State) : Prop := t = { s with uart := t.uart } ∧ ∀ d, d ≠ p → t.port d = s.port d

/-- Only the record of I2C port `q` may differ. -/
def OnlyI2c (q : Idx) (s t : State) : Prop := t = { s with i2c := t.i2c } ∧ ∀ d, d ≠ q → t.i2cp d = s.i2cp d

/-! ## Arming an I2C transaction -/

/-- ARM (R154) of the port record `x`, with the buffer, lengths and mode that the command sets. -/
def ArmedFrom (x y : I2cPort) : Prop :=
  y = { x with
    txData := y.txData, writeLength := y.writeLength, readLength := y.readLength, mode := y.mode,
    txCounter := 0, rxCounter := 0, phase := 0, busy := true, ie := true, mif := false,
    bop := .start, bopData := 0, busOut := x.busOut ++ [(.start, none)] }

/-- WRITE_ARM (R151). -/
def WriteArmed (q : Idx) (s t : State) : Prop :=
  let n := min s.arg0.toNat (s.i2cCfg q).txCap
  OnlyI2c q s t ∧ ArmedFrom (s.i2cp q) (t.i2cp q) ∧ (t.i2cp q).mode = .write ∧
    (t.i2cp q).writeLength.toNat = n ∧ (t.i2cp q).readLength = (s.i2cp q).readLength ∧
    CopiedFromStg (.i2cTx q) n s t

/-- READ_ARM (R152). -/
def ReadArmed (q : Idx) (s t : State) : Prop :=
  let nw := min s.arg0.toNat (s.i2cCfg q).txCap
  OnlyI2c q { s with hostWait := .postArm q .read } t ∧ ArmedFrom (s.i2cp q) (t.i2cp q) ∧ (t.i2cp q).mode = .read ∧
    (t.i2cp q).writeLength.toNat = nw ∧ (t.i2cp q).readLength.toNat = min s.arg1.toNat (s.i2cCfg q).rxCap ∧
    CopiedFromStg (.i2cTx q) nw s t

/-- PROBE_ARM (R153). -/
def ProbeArmed (q : Idx) (s t : State) : Prop :=
  OnlyI2c q { s with hostWait := .postArm q .probe } t ∧ ArmedFrom (s.i2cp q) (t.i2cp q) ∧ (t.i2cp q).mode = .write ∧
    (t.i2cp q).writeLength = 1 ∧ (t.i2cp q).readLength = (s.i2cp q).readLength ∧
    Mem.read (t.mem (.i2cTx q)) 0 = some (s.arg0.extractLsb' 0 8) ∧
    CellsExcept (fun b a => b = .i2cTx q ∧ a = 0) s t

/-! ## The invariant -/

/-- The instance of a buffer exists. -/
def Buf.present (cfg : Config) : Buf → Prop
  | .stg => True
  | .uartRx p | .uartTx p => p.val < cfg.nUart
  | .i2cRx q | .i2cTx q => q.val < cfg.nI2c
  | .chBuf c => c.val < cfg.nCh

/-- A channel between two transitions (R47, R116, R121). -/
structure ChanInv (k : ChanCfg) (x : Channel) : Prop where
  /-- the count fits the buffer (R116) -/
  cnt_lt : x.cnt.toNat < k.bufCap
  /-- the rest of the block lies inside the buffer (R121) -/
  block_le : x.xidx.toNat + x.rem.toNat ≤ k.bufCap
  /-- an enabled channel has its completion interrupt unmasked (R116, R117) -/
  enabled_ie : x.state = .enabled → x.ie = true
  /-- a running block has its completion interrupt unmasked (R116, R117) -/
  running_ie : x.xfer = .inProgress → x.ie = true
  /-- a request is pending only for a block with bytes left (R118, R121, R123) -/
  request_rem : x.fpend = true ∨ x.rpend = true → x.rem ≠ 0

/-- A serial port between two transitions (R53 to R55, R142). -/
structure UartInv (k : UartCfg) (u : UartPort) : Prop where
  /-- R55 -/
  rxCounter_lt : u.rxCounter.toNat < k.rxLen
  /-- R55 -/
  txCounter_le : u.txCounter.toNat ≤ u.txLength.toNat
  /-- R55 -/
  txLength_le : u.txLength.toNat ≤ k.txCap
  /-- R53 -/
  rxq_le : u.rxq.length ≤ k.rxDepth
  /-- R54 -/
  txq_le : u.txq.length ≤ k.txDepth
  /-- an armed half-duplex send drives the line (R139, R142, R197) -/
  sending_dir : k.halfDuplex = true → u.txIe = true → u.dir = .tx
  /-- the send cursor is 0 while no send is armed (R50, R141) -/
  idle_counter : u.txIe = false → u.txCounter = 0

/-- An I2C port between two transitions (R56 to R58, R158 to R168). -/
structure I2cInv (k : I2cCfg) (x : I2cPort) : Prop where
  writeLength_le : x.writeLength.toNat ≤ k.txCap
  readLength_le : x.readLength.toNat ≤ k.rxCap
  txCounter_le : x.txCounter.toNat ≤ x.writeLength.toNat
  rxCounter_le : x.rxCounter.toNat ≤ x.readLength.toNat
  /-- the phases the phase table gives (R56, R167) -/
  phase_le : x.phase.toNat ≤ 5
  write_phase_le : x.mode = .write → x.phase.toNat ≤ 2
  /-- the engine is armed exactly while a transaction is in flight (R154, R160, R165) -/
  busy_ie : x.ie = x.busy
  /-- an idle port has no bus operation and no completion (R58, R168) -/
  idle_bop : x.busy = false → x.bop = .none ∧ x.mif = false
  /-- a busy port has a bus operation pending or its completion, not both (R157, R168) -/
  busy_bop : x.busy = true → (x.mif = true ↔ x.bop = .none)
  /-- the address byte is still to be sent in phase 0 (R158) -/
  address_left : x.busy = true → x.phase = 0 → x.txCounter.toNat < x.writeLength.toNat
  /-- a byte is still to be read before the terminal phase (R164) -/
  read_left : x.busy = true → x.mode = .read → x.phase.toNat ≤ 4 → x.rxCounter.toNat < x.readLength.toNat

/-- What a held host waits for (R60, R151 to R153): a PREARM word is an I2C command of a port that exists, with the
lengths that command demands. -/
def WaitInv (s : State) : Prop :=
  match s.hostWait with
  | .none => True
  | .preArm w => (cmdIdx w).val < s.cfg.nI2c ∧
      (decodeCmd w = .ok (.i2cWrite (cmdIdx w)) ∧ s.arg0 ≠ 0 ∨
        decodeCmd w = .ok (.i2cRead (cmdIdx w)) ∧ s.arg0 ≠ 0 ∧ s.arg1 ≠ 0 ∨
        decodeCmd w = .ok (.i2cProbe (cmdIdx w)))
  | .postArm q _ => q.val < s.cfg.nI2c

/-- The host's pointers and selection hold legal values only (R29, R31, R32). -/
structure WindowInv (s : State) : Prop where
  stgPtr_le : s.stgPtr.toNat ≤ s.cfg.stgCap
  bufSel_legal : selLegal s.bufSel = true
  bufSel_present : (selIdx s.bufSel).val < selCount s.cfg (selKind s.bufSel)
  bufPtr_le : ∀ b, sel s.bufSel = some b → s.bufPtr.toNat ≤ s.cap b

/-- The buffers of the machine: canonical, and no cell at or beyond the capacity is written. -/
structure CellsInv (s : State) : Prop where
  wf : ∀ b, (s.mem b).wf
  inside : ∀ b, b.present s.cfg → ∀ x ∈ s.mem b, x.1 < s.cap b

/-- The invariant of the block, for the instances that exist. -/
structure Inv (s : State) : Prop where
  cells : CellsInv s
  chan : ∀ c : Idx, c.val < s.cfg.nCh → ChanInv (s.chanCfg c) (s.chan c)
  uart : ∀ p : Idx, p.val < s.cfg.nUart → UartInv (s.portCfg p) (s.port p)
  i2c : ∀ q : Idx, q.val < s.cfg.nI2c → I2cInv (s.i2cCfg q) (s.i2cp q)
  window : WindowInv s
  wait : WaitInv s

/-! ## Runs of one I2C engine -/

/-- One beat of an I2C engine: the bus completes the pending operation with data `d` (R166), then the phase step runs
(R157). -/
def i2cBeat (q : Idx) (d : Byte) (s : State) : Result :=
  match exec (.evI2cd q d) s with
  | .next t => exec (.stI2sv q) t
  | o => o

/-- Beats with the data bytes `ds`; beside the outcome, the phase each phase step reads (R169). -/
def i2cBeats (q : Idx) : List Byte → State → List (BitVec 3) × Result
  | [], s => ([], .next s)
  | d :: ds, s =>
    match i2cBeat q d s with
    | .next t => ((s.i2cp q).phase :: (i2cBeats q ds t).1, (i2cBeats q ds t).2)
    | o => ([(s.i2cp q).phase], o)

end Sys2Proof.Machine
end

