-- ==== Sys2Proof/Certificates/Slice0/Obligations.lean ====
section
/-! DEFINITION. The statements for the provers. Each docstring names the rules of spec/ it formalises, and where a
clause is the model's choice, the assumption-log entry. -/

open Sys2Proof Sys2Proof.Machine

/-! ## Encoding -/

/-- R86 to R95: decoding the entry that encodes an instruction gives it back, with every operand. -/
def Obligations.RoundTripEveryInstruction : Prop := ∀ i : Instr, decode (encode i) = .ok i

/-- R24, R86, R89 to R95: words written out from the spec's encodings. -/
def Obligations.WrittenOutWordsDecode : Prop :=
  decode (.bus 0b1_0000_0101 0x01A2) = .ok (.wrStgData 0x01A2) ∧
  decode (.bus 0b0_0000_1000 0) = .ok .rdBufData ∧
  decode (.bus 0b0_0100_0011 0) = .ok (.rdUstat 3) ∧
  decode (.bus 0b1_0000_0000 0x1130) = .ok (.wrCmd 0x1130) ∧
  decode (.cmd 0b0001_0001_0011_0000) = .ok (.chEnable 3) ∧
  decode (.cmd 0b0010_0010_0001_0000) = .ok (.uartSendDma 1) ∧
  decode (.cmd 0b0011_0001_1111_0000) = .ok (.i2cRead 15) ∧
  decode (.evt 0b0001_0010_1010_0010) = .ok (.evRxb 2 0xA2) ∧
  decode (.evt 0b0110_0001_0000_0001) = .ok (.evI2cd 1 0x01) ∧
  decode (.step 0b0100_0101_0000_0000) = .ok (.stXfer 5) ∧
  decode (.step 0b0111_0000_0000_0000) = .ok .stHcont ∧
  decode (.cmd 0x1601) = .error .reservedCommand ∧
  decode (.step 0x7100) = .error .hcontIdx ∧
  decode (.evt 0x7000) = .error .eventKind

/-- R89 to R92, R94, R95: the tables of commands, events and steps, for every index and every data byte. -/
def Obligations.OpcodeTables : Prop :=
  decode (.cmd 0x0000) = .ok .nop ∧ decode (.step 0x7000) = .ok .stHcont ∧ ∀ i : Idx,
    (∀ op mk, (op, mk) ∈ [(0x10, Instr.chAcquire), (0x11, .chEnable), (0x12, .chDisable), (0x13, .chForce),
        (0x14, .chPoll), (0x15, .chSetcnt), (0x20, .uartFill), (0x21, .uartStart), (0x22, .uartSendDma),
        (0x23, .uartRxReady), (0x24, .uartTxReady), (0x25, .uartClearRx), (0x30, .i2cWrite), (0x31, .i2cRead),
        (0x32, .i2cProbe)] →
      decode (.cmd (BitVec.ofNat 16 (0x100 * op + 0x10 * i.val))) = .ok (mk i)) ∧
    (∀ kind mk, (kind, mk) ∈ [(1, Instr.evRxb), (2, .evRxfe), (3, .evTxld), (4, .evTxsh), (5, .evChrq), (6, .evI2cd)] →
      ∀ d : Byte, decode (.evt (BitVec.ofNat 16 (0x1000 * kind + 0x100 * i.val + d.toNat))) = .ok (mk i d)) ∧
    (∀ kind mk, (kind, mk) ∈ [(1, Instr.stRxsv), (2, .stRxer), (3, .stTxsv), (4, .stXfer), (5, .stChcp), (6, .stI2sv)] →
      decode (.step (BitVec.ofNat 16 (0x1000 * kind + 0x100 * i.val))) = .ok (mk i))

/-- R86, R87, R94, R95: no bit of a legal word is dropped: the decoded instruction encodes to the word itself. A read
carries no data (R86). -/
def Obligations.EveryLegalWordIsEncoded : Prop :=
  (∀ w i, decodeCmd w = .ok i → encode i = .cmd w) ∧
  (∀ w i, decodeEvt w = .ok i → encode i = .evt w) ∧
  (∀ w i, decodeStep w = .ok i → encode i = .step w) ∧
  (∀ (a : BitVec 8) (d : Word), encode (decodeBus (1#1 ++ a) d) = .bus (1#1 ++ a) d) ∧
  (∀ (a : BitVec 8) (d : Word), encode (decodeBus (0#1 ++ a) d) = .bus (0#1 ++ a) 0)

/-- R93 to R95: exactly which words name nothing. -/
def Obligations.WordsThatNameNothing : Prop :=
  (∀ w : Word, (∃ r, decodeCmd w = .error r) ↔
    w.toNat % 16 ≠ 0 ∨ w.toNat / 4096 = 0 ∧ w ≠ 0 ∨ 4 ≤ w.toNat / 4096 ∨
      (w.toNat / 4096 = 1 ∨ w.toNat / 4096 = 2) ∧ 6 ≤ w.toNat / 256 % 16 ∨
      w.toNat / 4096 = 3 ∧ 3 ≤ w.toNat / 256 % 16) ∧
  (∀ w : Word, (∃ r, decodeEvt w = .error r) ↔ w.toNat / 4096 = 0 ∨ 7 ≤ w.toNat / 4096) ∧
  (∀ w : Word, (∃ r, decodeStep w = .error r) ↔
    w.toNat % 256 ≠ 0 ∨ w.toNat / 4096 = 0 ∨ 8 ≤ w.toNat / 4096 ∨
      w.toNat / 4096 = 7 ∧ w.toNat / 256 % 16 ≠ 0)

/-! ## One step, and how a run ends -/

/-- R17, R97: a step takes the next entry of the trace and runs the instruction it names. `pending` is the model's own
field (assumption 3). -/
def Obligations.StepRunsTraceEntry : Prop :=
  ∀ (s : State) (e : Entry) (rest : List Entry) (i : Instr),
    s.pending = e :: rest → decode e = .ok i → step s = exec i { s with pending := rest }

/-- R93, R112, R175: an entry with an EVT or STEP word that names no transition is refused as BadTrace, and one with a
reserved CMD word as the write to CMD is. `pending` is the model's own field (assumption 3). -/
def Obligations.WordOfNoTransitionRefused : Prop :=
  ∀ (s : State) (w : Word) (rest : List Entry) (r : Reject), Live s →
    (s.pending = .evt w :: rest → decodeEvt w = .error r →
      step s = .next { s with pending := rest, refused := some .badTrace }) ∧
    (s.pending = .step w :: rest → decodeStep w = .error r →
      step s = .next { s with pending := rest, refused := some .badTrace }) ∧
    (s.pending = .cmd w :: rest → decodeCmd w = .error r → s.hostWait = .none →
      step s = .next { s with pending := rest, cmd := w, refused := some .reservedCommand })

/-- R17, R179 and assumption 4: with no entry left, the free value chooses the transition; a choice that is not enabled
is not taken. A drawn reserved CMD word is the write to CMD that it stands for (R93, R112, assumption 15), which is not
enabled while the host is held (R99). It holds for every value of `Config.draw`. -/
def Obligations.EmptyTraceDraws : Prop :=
  ∀ s : State, Live s → s.pending = [] →
    let u := { s with draws := s.draws + 1 }
    match decode (Config.draw s.draws) with
    | .ok i => Answers (exec i u) fun t => step s = .next (if t.refused = some .badTrace then u else t)
    | .error _ =>
      match Config.draw s.draws with
      | .cmd w =>
        (s.hostWait = .none → step s = .next { u with cmd := w, refused := some .reservedCommand }) ∧
        (s.hostWait ≠ .none → step s = .next u)
      | .bus _ _ | .evt _ | .step _ => step s = .next u

/-- R61, R173: a recorded fault or refusal is final. -/
def Obligations.StoppedMachineStays : Prop :=
  ∀ (s : State) (i : Instr), configValid s.cfg = true →
    (∀ f, s.fault = some f → exec i s = .fault f ∧ step s = .fault f) ∧
    (∀ r, s.fault = none → s.refused = some r → exec i s = .refused r ∧ step s = .refused r)

/-- R5 to R13, R193: which parameter sets are valid, and that no run exists for another. -/
def Obligations.OnlyValidParametersRun : Prop :=
  (∀ cfg : Config, configValid cfg = true ↔
    (1 ≤ cfg.nCh ∧ cfg.nCh ≤ 16) ∧ (1 ≤ cfg.nUart ∧ cfg.nUart ≤ 16) ∧ (1 ≤ cfg.nI2c ∧ cfg.nI2c ≤ 16) ∧
    (1 ≤ cfg.stgCap ∧ cfg.stgCap ≤ 65535) ∧
    (∀ p : Idx, p.val < cfg.nUart →
      (1 ≤ cfg.uart[p].rxCap ∧ cfg.uart[p].rxCap ≤ 65535) ∧
      (1 ≤ cfg.uart[p].rxLen ∧ cfg.uart[p].rxLen ≤ cfg.uart[p].rxCap) ∧
      (1 ≤ cfg.uart[p].txCap ∧ cfg.uart[p].txCap ≤ 65535) ∧ cfg.uart[p].txCap ≤ cfg.stgCap ∧
      1 ≤ cfg.uart[p].rxDepth ∧ 1 ≤ cfg.uart[p].txDepth ∧
      (∀ c : Idx, cfg.uart[p].txDmaCh = some c →
        c.val < cfg.nCh ∧ ∀ p' : Idx, p'.val < cfg.nUart → cfg.uart[p'].txDmaCh = some c → p' = p)) ∧
    (∀ c : Idx, c.val < cfg.nCh →
      (1 ≤ cfg.chan[c].bufCap ∧ cfg.chan[c].bufCap ≤ 65535) ∧ cfg.chan[c].bufCap ≤ cfg.stgCap ∧
      (∀ p : Idx, cfg.chan[c].sink = .uartTx p ↔ p.val < cfg.nUart ∧ cfg.uart[p].txDmaCh = some c) ∧
      (cfg.chan[c].sink ≠ .external → cfg.chan[c].forceCapable = true)) ∧
    (∀ q : Idx, q.val < cfg.nI2c →
      (1 ≤ cfg.i2c[q].txCap ∧ cfg.i2c[q].txCap ≤ 65535) ∧ (1 ≤ cfg.i2c[q].rxCap ∧ cfg.i2c[q].rxCap ≤ 65535) ∧
      cfg.i2c[q].txCap ≤ cfg.stgCap)) ∧
  (∀ (s : State) (i : Instr), configValid s.cfg = false → exec i s = .refused .badConfig ∧ step s = .refused .badConfig)

/-- R94, R95, R99, R175: a host access while the host is held, and an event or a step of an absent instance, are
refused as BadTrace. -/
def Obligations.DisabledTransitionsAreBadTrace : Prop :=
  ∀ (s : State) (i : Instr), Live s →
    isHostAccess i = true ∧ s.hostWait ≠ .none ∨ i.wellFormed s.cfg = false → RefusedAs .badTrace s (exec i s)

/-- R175, R180: a transition that refuses changes nothing but REFUSED and the CMD register, which a command leaves
with its word; one that faults changes nothing but FAULT. -/
def Obligations.StopChangesNothingElse : Prop :=
  ∀ (s : State) (i : Instr) (t : State), exec i s = .next t →
    (t.refused ≠ none → t = { s with cmd := t.cmd, refused := t.refused } ∧
      (t.cmd = s.cmd ∨ i = .wrCmd t.cmd ∨ encode i = .cmd t.cmd)) ∧
    (t.fault ≠ none → t = { s with fault := t.fault })

/-- R173 and section 3 of 00_scope.md: every transition of a running machine answers a state, with at most one of the
marks, and the parameters are fixed. `pending` and `draws` are the model's own (assumptions 3, 4). -/
def Obligations.LiveMachineAnswersNext : Prop :=
  ∀ (s : State) (i : Instr), Live s →
    Answers (exec i s) fun t => t.cfg = s.cfg ∧ t.pending = s.pending ∧ t.draws = s.draws ∧
      (t.fault = none ∨ t.refused = none)

/-! ## Host accesses -/

/-- R100. -/
def Obligations.PlainRegisterReads : Prop :=
  encode .rdCmd = .bus 0x000 0 ∧ encode .rdArg0 = .bus 0x001 0 ∧ encode .rdArg1 = .bus 0x002 0 ∧
  encode .rdResult = .bus 0x003 0 ∧ encode .rdStgPtr = .bus 0x004 0 ∧ encode .rdBufSel = .bus 0x006 0 ∧
  encode .rdBufPtr = .bus 0x007 0 ∧
  ∀ s : State, HostReady s →
    exec .rdCmd s = .next { s with rdata := s.cmd } ∧
    exec .rdArg0 s = .next { s with rdata := s.arg0 } ∧
    exec .rdArg1 s = .next { s with rdata := s.arg1 } ∧
    exec .rdResult s = .next { s with rdata := s.result } ∧
    exec .rdStgPtr s = .next { s with rdata := s.stgPtr } ∧
    exec .rdBufSel s = .next { s with rdata := s.bufSel } ∧
    exec .rdBufPtr s = .next { s with rdata := s.bufPtr }

/-- R101. -/
def Obligations.ArgumentWrites : Prop :=
  ∀ d : Word, encode (.wrArg0 d) = .bus 0x101 d ∧ encode (.wrArg1 d) = .bus 0x102 d ∧
    ∀ s : State, HostReady s →
      exec (.wrArg0 d) s = .next { s with arg0 := d } ∧ exec (.wrArg1 d) s = .next { s with arg1 := d }

/-- R102, R106: the capacity itself is a legal pointer, a larger value is refused. -/
def Obligations.PointerWrites : Prop :=
  ∀ d : Word, encode (.wrStgPtr d) = .bus 0x104 d ∧ encode (.wrBufPtr d) = .bus 0x107 d ∧
    ∀ s : State, HostReady s →
      (d.toNat ≤ s.cfg.stgCap → exec (.wrStgPtr d) s = .next { s with stgPtr := d }) ∧
      (s.cfg.stgCap < d.toNat → RefusedAs .pointerRange s (exec (.wrStgPtr d) s)) ∧
      ∀ b, sel s.bufSel = some b →
        (d.toNat ≤ s.cap b → exec (.wrBufPtr d) s = .next { s with bufPtr := d }) ∧
        (s.cap b < d.toNat → RefusedAs .pointerRange s (exec (.wrBufPtr d) s))

/-- R103, R104: the staging window. A write at the end is dropped; a read at the end is refused and a read of an
unwritten cell faults. -/
def Obligations.StagingWindow : Prop :=
  encode .rdStgData = .bus 0x005 0 ∧ (∀ d, encode (.wrStgData d) = .bus 0x105 d) ∧
  ∀ s : State, HostReady s →
    (∀ d : Word, s.stgPtr.toNat < s.cfg.stgCap → Answers (exec (.wrStgData d) s) fun t =>
      t = { s with stg := t.stg, stgPtr := s.stgPtr + 1 } ∧
      Mem.read (t.mem .stg) s.stgPtr.toNat = some (d.extractLsb' 0 8) ∧
      CellsExcept (fun b a => b = .stg ∧ a = s.stgPtr.toNat) s t) ∧
    (∀ d : Word, s.cfg.stgCap ≤ s.stgPtr.toNat → exec (.wrStgData d) s = .next s) ∧
    (s.stgPtr.toNat = s.cfg.stgCap → RefusedAs .readPastEnd s (exec .rdStgData s)) ∧
    (s.stgPtr.toNat ≠ s.cfg.stgCap → ∀ v, Mem.read (s.mem .stg) s.stgPtr.toNat = some v →
      exec .rdStgData s = .next { s with rdata := 0#8 ++ v, stgPtr := s.stgPtr + 1 }) ∧
    (s.stgPtr.toNat ≠ s.cfg.stgCap → Mem.read (s.mem .stg) s.stgPtr.toNat = none →
      FaultsAs (.unwrittenRead .stg s.stgPtr.toNat) s (exec .rdStgData s))

/-- R105: KIND is WDATA[2:0] and IDX is WDATA[7:4]. -/
def Obligations.BufferSelect : Prop :=
  ∀ d : Word, encode (.wrBufSel d) = .bus 0x106 d ∧
    ∀ s : State, HostReady s →
      let kind := (d.extractLsb' 0 3).toNat
      let i := (d.extractLsb' 4 4).toNat
      let reserved := d.extractLsb' 8 8 ≠ 0 ∨ d.getLsbD 3 = true ∨ 4 < kind
      let n := if kind = 0 ∨ kind = 1 then s.cfg.nUart else if kind = 2 ∨ kind = 3 then s.cfg.nI2c else s.cfg.nCh
      (reserved → RefusedAs .reservedBits s (exec (.wrBufSel d) s)) ∧
      (¬ reserved → n ≤ i → RefusedAs .indexRange s (exec (.wrBufSel d) s)) ∧
      (¬ reserved → i < n → exec (.wrBufSel d) s = .next { s with bufSel := d, bufPtr := 0 })

/-- R31, R206: the buffer and the capacity that BUF_SEL names. KIND 5 to 7, which BUF_SEL never holds, selects no
buffer, and an access through it is refused: the model's choice (assumption 10). -/
def Obligations.SelectionNamesBuffer : Prop :=
  ∀ (s : State) (hi : Byte) (r : BitVec 1) (i : Idx),
    let word (kind : BitVec 3) : Word := hi ++ BitVec.ofFin (w := 4) i ++ r ++ kind
    (sel (word 0) = some (.uartRx i) ∧ s.cap (.uartRx i) = s.cfg.uart[i].rxCap ∧ s.mem (.uartRx i) = (s.port i).rxBuf) ∧
    (sel (word 1) = some (.uartTx i) ∧ s.cap (.uartTx i) = s.cfg.uart[i].txCap ∧ s.mem (.uartTx i) = (s.port i).txBuf) ∧
    (sel (word 2) = some (.i2cRx i) ∧ s.cap (.i2cRx i) = s.cfg.i2c[i].rxCap ∧ s.mem (.i2cRx i) = (s.i2cp i).rxData) ∧
    (sel (word 3) = some (.i2cTx i) ∧ s.cap (.i2cTx i) = s.cfg.i2c[i].txCap ∧ s.mem (.i2cTx i) = (s.i2cp i).txData) ∧
    (sel (word 4) = some (.chBuf i) ∧ s.cap (.chBuf i) = s.cfg.chan[i].bufCap ∧ s.mem (.chBuf i) = (s.chan i).buf) ∧
    (∀ kind : BitVec 3, 4 < kind.toNat → s.bufSel = word kind → HostReady s →
      RefusedAs .reservedBits s (exec .rdBufData s) ∧ ∀ d, RefusedAs .reservedBits s (exec (.wrBufPtr d) s))

/-- R107, for every buffer that BUF_SEL can name. -/
def Obligations.BufferLoad : Prop :=
  encode .rdBufData = .bus 0x008 0 ∧ ∀ (s : State) (b : Buf), HostReady s → sel s.bufSel = some b →
    (s.bufPtr.toNat = s.cap b → RefusedAs .readPastEnd s (exec .rdBufData s)) ∧
    (s.bufPtr.toNat ≠ s.cap b → ∀ v, Mem.read (s.mem b) s.bufPtr.toNat = some v →
      exec .rdBufData s = .next { s with rdata := 0#8 ++ v, bufPtr := s.bufPtr + 1 }) ∧
    (s.bufPtr.toNat ≠ s.cap b → Mem.read (s.mem b) s.bufPtr.toNat = none →
      FaultsAs (.unwrittenRead b s.bufPtr.toNat) s (exec .rdBufData s))

/-- R108: only a channel buffer can be written, and a write at the end is dropped. -/
def Obligations.BufferStore : Prop :=
  ∀ d : Word, encode (.wrBufData d) = .bus 0x108 d ∧
    ∀ (s : State), HostReady s →
      let c := selIdx s.bufSel
      (selKind s.bufSel ≠ 4 → RefusedAs .bufWriteKind s (exec (.wrBufData d) s)) ∧
      (selKind s.bufSel = 4 → s.bufPtr.toNat < (s.chanCfg c).bufCap → Answers (exec (.wrBufData d) s) fun t =>
        OnlyChan c { s with bufPtr := s.bufPtr + 1 } t ∧ t.chan c = { s.chan c with buf := (t.chan c).buf } ∧
        Mem.read (t.mem (.chBuf c)) s.bufPtr.toNat = some (d.extractLsb' 0 8) ∧
        CellsExcept (fun b a => b = .chBuf c ∧ a = s.bufPtr.toNat) s t) ∧
      (selKind s.bufSel = 4 → (s.chanCfg c).bufCap ≤ s.bufPtr.toNat → exec (.wrBufData d) s = .next s)

/-- R109: every status view, at its index u = 1 to 12 in bits 7:4 and i in bits 3:0; an absent instance reads 0 (R46). -/
def Obligations.StatusViewReads : Prop :=
  (∀ i : Idx,
    encode (.rdChstat i) = .bus (BitVec.ofNat 9 (0x010 + i.val)) 0 ∧
    encode (.rdChcnt i) = .bus (BitVec.ofNat 9 (0x020 + i.val)) 0 ∧
    encode (.rdChrem i) = .bus (BitVec.ofNat 9 (0x030 + i.val)) 0 ∧
    encode (.rdUstat i) = .bus (BitVec.ofNat 9 (0x040 + i.val)) 0 ∧
    encode (.rdUrxcnt i) = .bus (BitVec.ofNat 9 (0x050 + i.val)) 0 ∧
    encode (.rdUtxcnt i) = .bus (BitVec.ofNat 9 (0x060 + i.val)) 0 ∧
    encode (.rdUtxlen i) = .bus (BitVec.ofNat 9 (0x070 + i.val)) 0 ∧
    encode (.rdIstat i) = .bus (BitVec.ofNat 9 (0x080 + i.val)) 0 ∧
    encode (.rdItxcnt i) = .bus (BitVec.ofNat 9 (0x090 + i.val)) 0 ∧
    encode (.rdIrxcnt i) = .bus (BitVec.ofNat 9 (0x0A0 + i.val)) 0 ∧
    encode (.rdIwlen i) = .bus (BitVec.ofNat 9 (0x0B0 + i.val)) 0 ∧
    encode (.rdIrlen i) = .bus (BitVec.ofNat 9 (0x0C0 + i.val)) 0) ∧
  ∀ (s : State) (i : Idx), HostReady s →
    let bit := BitVec.ofBool
    let ch (v : Channel → Word) : Result := .next { s with rdata := if i.val < s.cfg.nCh then v (s.chan i) else 0 }
    let ua (v : UartPort → Word) : Result := .next { s with rdata := if i.val < s.cfg.nUart then v (s.port i) else 0 }
    let ic (v : I2cPort → Word) : Result := .next { s with rdata := if i.val < s.cfg.nI2c then v (s.i2cp i) else 0 }
    exec (.rdChstat i) s = ch (fun x => 0#10 ++ bit x.rpend ++ bit x.fpend ++ bit x.pend ++ bit x.ie ++ x.state.enc) ∧
    exec (.rdChcnt i) s = ch Channel.cnt ∧
    exec (.rdChrem i) s = ch Channel.rem ∧
    exec (.rdUstat i) s = ua (fun u => 0#10 ++ bit (decide (0 < u.rxq.length)) ++
      bit (decide (u.txq.length = 0 ∧ u.tsr = none)) ++ bit u.ferr ++ bit u.oerr ++ u.dir.enc ++ bit u.txIe) ∧
    exec (.rdUrxcnt i) s = ua UartPort.rxCounter ∧
    exec (.rdUtxcnt i) s = ua UartPort.txCounter ∧
    exec (.rdUtxlen i) s = ua UartPort.txLength ∧
    exec (.rdIstat i) s = ic (fun x => 0#5 ++ x.bop.enc ++ bit x.mif ++ bit x.ackstat ++ bit x.ie ++ bit x.busy ++
      x.mode.enc ++ x.phase) ∧
    exec (.rdItxcnt i) s = ic I2cPort.txCounter ∧
    exec (.rdIrxcnt i) s = ic I2cPort.rxCounter ∧
    exec (.rdIwlen i) s = ic I2cPort.writeLength ∧
    exec (.rdIrlen i) s = ic I2cPort.readLength

/-- R34, R37, R41, R57: the fields of the three status words, bit by bit, for an instance that exists. -/
def Obligations.StatusViewBits : Prop :=
  ∀ (s : State) (i : Idx), HostReady s →
    (i.val < s.cfg.nCh → Answers (exec (.rdChstat i) s) fun t =>
      let x := s.chan i
      t.rdata.toNat % 4 = (match x.state with | .unassigned => 0 | .assigned => 1 | .enabled => 2 | .disabled => 3) ∧
      t.rdata.getLsbD 2 = x.ie ∧ t.rdata.getLsbD 3 = x.pend ∧ t.rdata.getLsbD 4 = x.fpend ∧
      t.rdata.getLsbD 5 = x.rpend ∧ t.rdata.toNat < 64) ∧
    (i.val < s.cfg.nUart → Answers (exec (.rdUstat i) s) fun t =>
      let u := s.port i
      t.rdata.getLsbD 0 = u.txIe ∧ (t.rdata.getLsbD 1 = true ↔ u.dir = .tx) ∧ t.rdata.getLsbD 2 = u.oerr ∧
      t.rdata.getLsbD 3 = u.ferr ∧ (t.rdata.getLsbD 4 = true ↔ u.txq = [] ∧ u.tsr = none) ∧
      (t.rdata.getLsbD 5 = true ↔ u.rxq ≠ []) ∧ t.rdata.toNat < 64) ∧
    (i.val < s.cfg.nI2c → Answers (exec (.rdIstat i) s) fun t =>
      let x := s.i2cp i
      t.rdata.toNat % 8 = x.phase.toNat ∧ (t.rdata.getLsbD 3 = true ↔ x.mode = .read) ∧ t.rdata.getLsbD 4 = x.busy ∧
      t.rdata.getLsbD 5 = x.ie ∧ t.rdata.getLsbD 6 = x.ackstat ∧ t.rdata.getLsbD 7 = x.mif ∧
      t.rdata.toNat / 256 = (match x.bop with
        | .none => 0 | .start => 1 | .send => 2 | .restart => 3 | .rcen => 4 | .ackrcv => 5 | .nackstop => 6 | .stop => 7))

/-- R113: the refused accesses of the register map, by instruction and by index. -/
def Obligations.RefusedAccesses : Prop :=
  ∀ s : State, HostReady s →
    (∀ (i : Idx) (d : Word), ∀ j ∈ [Instr.wrResult d, .wrChstat i d, .wrChcnt i d, .wrChrem i d, .wrUstat i d,
        .wrUrxcnt i d, .wrUtxcnt i d, .wrUtxlen i d, .wrIstat i d, .wrItxcnt i d, .wrIrxcnt i d, .wrIwlen i d,
        .wrIrlen i d], RefusedAs .readOnlyWrite s (exec j s)) ∧
    (∀ (b : BitVec 5) (od : Option Word), ∀ j ∈ [Instr.rsv09 od, .rsv0A (b.setWidth 1) od, .rsv0C (b.setWidth 2) od,
        .rsvD0 (b.setWidth 4) od, .rsvE0 b od], RefusedAs .unmappedRegister s (exec j s)) ∧
    (∀ (w : Bool) (a : BitVec 8) (d : Word), 0x09 ≤ a.toNat ∧ a.toNat ≤ 0x0F ∨ 0xD0 ≤ a.toNat →
      RefusedAs .unmappedRegister s (exec (decodeBus (BitVec.ofBool w ++ a) d) s)) ∧
    (∀ (a : BitVec 8) (d : Word), a = 0x03 ∨ 0x10 ≤ a.toNat ∧ a.toNat ≤ 0xCF →
      RefusedAs .readOnlyWrite s (exec (decodeBus (1#1 ++ a) d) s))

/-! ## Commands -/

/-- R111, R112: NOP, and a write of a reserved word to CMD. -/
def Obligations.CommandWordsWithoutEffect : Prop :=
  encode .nop = .cmd 0x0000 ∧
  ∀ s : State, HostReady s →
    exec .nop s = .next { s with cmd := 0 } ∧
    ∀ (w : Word) (r : Reject), decodeCmd w = .error r →
      exec (.wrCmd w) s = .next { s with cmd := w, refused := some .reservedCommand }

/-- R110: a write to CMD executes the command its word encodes, and CMD keeps the word whatever the command does. -/
def Obligations.WriteCmdExecutes : Prop :=
  ∀ (w : Word) (s : State), encode (.wrCmd w) = .bus 0x100 w ∧
    (∀ i, decodeCmd w = .ok i → exec (.wrCmd w) s = exec i s) ∧
    (∀ r, decodeCmd w = .error r → HostReady s → RefusedAs .reservedCommand { s with cmd := w } (exec (.wrCmd w) s)) ∧
    (HostReady s → Answers (exec (.wrCmd w) s) fun t => t.cmd = w)

/-! ## The Channel Resource Table and the arbiter -/

/-- R115, R116, R117: acquire, enable and disable. With an absent index only CMD changes (R114). -/
def Obligations.ChannelLifecycle : Prop :=
  ∀ c : Idx,
    encode (.chAcquire c) = .cmd (cmdWord 1 0 c) ∧ encode (.chEnable c) = .cmd (cmdWord 1 1 c) ∧
    encode (.chDisable c) = .cmd (cmdWord 1 2 c) ∧
    ∀ s : State, HostReady s →
      (s.cfg.nCh ≤ c.val →
        exec (.chAcquire c) s = .next { s with cmd := cmdWord 1 0 c } ∧
        exec (.chEnable c) s = .next { s with cmd := cmdWord 1 1 c } ∧
        exec (.chDisable c) s = .next { s with cmd := cmdWord 1 2 c }) ∧
      (c.val < s.cfg.nCh →
        (Answers (exec (.chAcquire c) s) fun t => OnlyChan c { s with cmd := cmdWord 1 0 c } t ∧ SameCells s t ∧
          t.chan c = { s.chan c with state := .assigned, pend := false }) ∧
        (Answers (exec (.chEnable c) s) fun t => OnlyChan c { s with cmd := cmdWord 1 1 c } t ∧ SameCells s t ∧
          t.chan c = { s.chan c with
            state := .enabled, xfer := .inProgress, ie := true, rem := (s.chan c).cnt + 1, xidx := 0,
            fpend := false, rpend := false }) ∧
        (Answers (exec (.chDisable c) s) fun t => OnlyChan c { s with cmd := cmdWord 1 2 c } t ∧ SameCells s t ∧
          t.chan c = { s.chan c with state := .disabled, xfer := .done, ie := false, fpend := false, rpend := false }))

/-- R118. -/
def Obligations.ForceRequestsTransfer : Prop :=
  ∀ c : Idx, encode (.chForce c) = .cmd (cmdWord 1 3 c) ∧
    ∀ s : State, HostReady s →
      let s' := { s with cmd := cmdWord 1 3 c }
      (s.cfg.nCh ≤ c.val → exec (.chForce c) s = .next s') ∧
      (c.val < s.cfg.nCh → (s.chanCfg c).forceCapable = false → RefusedAs .notForceCapable s' (exec (.chForce c) s)) ∧
      (c.val < s.cfg.nCh → (s.chanCfg c).forceCapable = true → Answers (exec (.chForce c) s) fun t =>
        OnlyChan c s' t ∧ SameCells s t ∧
        t.chan c = { s.chan c with
          fpend := (s.chan c).fpend || decide ((s.chan c).state = .enabled ∧ (s.chan c).xfer = .inProgress ∧
            0 < (s.chan c).rem.toNat) })

/-- R119: the test-and-clear of transfer_state, and that a second poll reads Idle after a Done. -/
def Obligations.PollReportsDoneOnce : Prop :=
  ∀ c : Idx, encode (.chPoll c) = .cmd (cmdWord 1 4 c) ∧
    ∀ s : State, HostReady s →
      let s' := { s with cmd := cmdWord 1 4 c }
      (s.cfg.nCh ≤ c.val → exec (.chPoll c) s = .next { s' with result := 0 }) ∧
      (c.val < s.cfg.nCh → Answers (exec (.chPoll c) s) fun t =>
        OnlyChan c { s' with result := match (s.chan c).xfer with | .idle => 0 | .inProgress => 1 | .done => 2 } t ∧
        SameCells s t ∧
        t.chan c = { s.chan c with xfer := if (s.chan c).xfer = .done then .idle else (s.chan c).xfer } ∧
        ((s.chan c).xfer = .done → Answers (exec (.chPoll c) t) fun u => u.result = 0))

/-- R120. -/
def Obligations.SetCountForNextBlock : Prop :=
  ∀ c : Idx, encode (.chSetcnt c) = .cmd (cmdWord 1 5 c) ∧
    ∀ s : State, HostReady s →
      let s' := { s with cmd := cmdWord 1 5 c }
      (s.cfg.nCh ≤ c.val → exec (.chSetcnt c) s = .next s') ∧
      (c.val < s.cfg.nCh → (s.chanCfg c).bufCap ≤ s.arg0.toNat → RefusedAs .countRange s' (exec (.chSetcnt c) s)) ∧
      (c.val < s.cfg.nCh → s.arg0.toNat < (s.chanCfg c).bufCap → Answers (exec (.chSetcnt c) s) fun t =>
        OnlyChan c s' t ∧ SameCells s t ∧ t.chan c = { s.chan c with cnt := s.arg0 })

/-- R121, with eligible and sink_ready as R207 defines them. The model's reading (assumption 6): a step that is not
enabled is refused as BadTrace (R175). -/
def Obligations.TransferStep : Prop :=
  ∀ c : Idx, encode (.stXfer c) = .step (evtWord 4 c 0) ∧
    ∀ s : State, Live s → c.val < s.cfg.nCh →
      let x := s.chan c
      let ready : Prop := match (s.chanCfg c).sink with
        | .uartTx p => (s.port p).txq.length < (s.portCfg p).txDepth
        | .external => True
      let enabled := x.state = .enabled ∧ x.xfer = .inProgress ∧ 0 < x.rem.toNat ∧
        (x.fpend = true ∨ x.rpend = true) ∧ ready
      (¬ enabled → RefusedAs .badTrace s (exec (.stXfer c) s)) ∧
      (enabled → Mem.read (s.mem (.chBuf c)) x.xidx.toNat = none →
        FaultsAs (.unwrittenRead (.chBuf c) x.xidx.toNat) s (exec (.stXfer c) s)) ∧
      (enabled → ∀ v, Mem.read (s.mem (.chBuf c)) x.xidx.toNat = some v → Answers (exec (.stXfer c) s) fun t =>
        SameCells s t ∧
        t.chan c = { x with
          xidx := x.xidx + 1, rem := x.rem - 1, pend := x.pend || decide (x.rem = 1), fpend := false,
          rpend := x.rpend && x.fpend && decide (x.rem ≠ 1) } ∧
        (∀ d, d ≠ c → t.chan d = s.chan d) ∧
        match (s.chanCfg c).sink with
        | .external => t = { s with ch := t.ch, extOut := s.extOut ++ [(c, v)] }
        | .uartTx p => t = { s with ch := t.ch, uart := t.uart } ∧ (∀ d, d ≠ p → t.port d = s.port d) ∧
            t.port p = { s.port p with txq := (s.port p).txq ++ [v] })

/-- R122. The model's reading (assumption 6): a step that is not enabled is refused as BadTrace (R175). -/
def Obligations.CompletionStep : Prop :=
  ∀ c : Idx, encode (.stChcp c) = .step (evtWord 5 c 0) ∧
    ∀ s : State, Live s → c.val < s.cfg.nCh →
      ((s.chan c).pend = true ∧ (s.chan c).ie = true → Answers (exec (.stChcp c) s) fun t =>
        OnlyChan c s t ∧ SameCells s t ∧ t.chan c = { s.chan c with pend := false, xfer := .done }) ∧
      (¬ ((s.chan c).pend = true ∧ (s.chan c).ie = true) → RefusedAs .badTrace s (exec (.stChcp c) s))

/-- R123, R143: the two sources of request pulses. The model's reading (assumption 6): an EV.TXLD that is not enabled
is refused as BadTrace (R175). -/
def Obligations.RequestPulses : Prop :=
  ∀ (i : Idx) (d : Byte),
    encode (.evTxld i d) = .evt (evtWord 3 i d) ∧ encode (.evChrq i d) = .evt (evtWord 5 i d) ∧
    ∀ s : State, Live s →
      let pulsed (x : Channel) : Channel := { x with
        rpend := x.rpend || decide (x.state = .enabled ∧ x.xfer = .inProgress ∧ 0 < x.rem.toNat) }
      (i.val < s.cfg.nCh → (s.chanCfg i).sink = .external → Answers (exec (.evChrq i d) s) fun t =>
        OnlyChan i s t ∧ SameCells s t ∧ t.chan i = pulsed (s.chan i)) ∧
      (i.val < s.cfg.nCh → (s.chanCfg i).sink ≠ .external → exec (.evChrq i d) s = .next s) ∧
      (s.cfg.nCh ≤ i.val → RefusedAs .badTrace s (exec (.evChrq i d) s)) ∧
      (i.val < s.cfg.nUart →
        ((s.port i).tsr ≠ none ∨ (s.port i).txq = [] → RefusedAs .badTrace s (exec (.evTxld i d) s)) ∧
        ∀ b rest, (s.port i).tsr = none → (s.port i).txq = b :: rest → Answers (exec (.evTxld i d) s) fun t =>
          SameCells s t ∧ t.port i = { s.port i with tsr := some b, txq := rest } ∧
          match (s.portCfg i).txDmaCh with
          | none => OnlyPort i s t
          | some c => t = { s with uart := t.uart, ch := t.ch } ∧ (∀ p, p ≠ i → t.port p = s.port p) ∧
              (∀ k, k ≠ c → t.chan k = s.chan k) ∧ t.chan c = pulsed (s.chan c))

/-! ## The serial ports -/

/-- R129, R130: a byte, and a byte with a framing error, arrive at the receiver. -/
def Obligations.ReceiverEvents : Prop :=
  ∀ (p : Idx) (b : Byte), encode (.evRxb p b) = .evt (evtWord 1 p b) ∧ encode (.evRxfe p b) = .evt (evtWord 2 p b) ∧
    ∀ s : State, Live s → p.val < s.cfg.nUart →
      let u := s.port p
      (u.oerr = true → exec (.evRxb p b) s = .next s) ∧
      (u.oerr = false → u.rxq.length = (s.portCfg p).rxDepth → Answers (exec (.evRxb p b) s) fun t =>
        OnlyPort p s t ∧ SameCells s t ∧ t.port p = { u with oerr := true }) ∧
      (u.oerr = false → u.rxq.length ≠ (s.portCfg p).rxDepth → Answers (exec (.evRxb p b) s) fun t =>
        OnlyPort p s t ∧ SameCells s t ∧ t.port p = { u with rxq := u.rxq ++ [b] }) ∧
      (Answers (exec (.evRxfe p b) s) fun t => OnlyPort p s t ∧ SameCells s t ∧ t.port p = { u with ferr := true })

/-- R131, R132: the receive step, inside a frame, at its boundary, and in the states the invariant excludes (R55). The
model's reading (assumption 6): a step that is not enabled is refused as BadTrace (R175). -/
def Obligations.ReceiveStep : Prop :=
  ∀ p : Idx, encode (.stRxsv p) = .step (evtWord 1 p 0) ∧
    ∀ s : State, Live s → p.val < s.cfg.nUart →
      let u := s.port p
      let n := u.rxCounter.toNat
      let len := (s.portCfg p).rxLen
      (u.rxq = [] → RefusedAs .badTrace s (exec (.stRxsv p) s)) ∧
      ∀ b rest, u.rxq = b :: rest → Answers (exec (.stRxsv p) s) fun t =>
        OnlyPort p s t ∧
        (n < len → Mem.read (t.mem (.uartRx p)) n = some b ∧ CellsExcept (fun b' a => b' = .uartRx p ∧ a = n) s t) ∧
        (len ≤ n → SameCells s t) ∧
        (n + 1 < len → t.port p = { u with
          rxq := rest, rxCounter := u.rxCounter + 1, rxBuf := (t.port p).rxBuf }) ∧
        (n + 1 = len ∨ n = len → t.port p = { u with
          rxq := [], rxDone := true, rxCounter := 0, rxBuf := (t.port p).rxBuf }) ∧
        (len < n → t.port p = { u with rxq := rest })

/-- R133. The model's reading (assumption 6): a step that is not enabled is refused as BadTrace (R175). -/
def Obligations.ReceiveErrorStep : Prop :=
  ∀ p : Idx, encode (.stRxer p) = .step (evtWord 2 p 0) ∧
    ∀ s : State, Live s → p.val < s.cfg.nUart →
      let u := s.port p
      (u.oerr = true ∨ u.ferr = true → Answers (exec (.stRxer p) s) fun t =>
        OnlyPort p s t ∧ SameCells s t ∧ t.port p = { u with rxq := [], rxCounter := 0, oerr := false, ferr := false }) ∧
      (u.oerr = false → u.ferr = false → RefusedAs .badTrace s (exec (.stRxer p) s))

/-- R135, R136: the two test-and-clear commands of a serial port; a second call reads 0. -/
def Obligations.ReadyFlagsReportOnce : Prop :=
  ∀ p : Idx, encode (.uartRxReady p) = .cmd (cmdWord 2 3 p) ∧ encode (.uartTxReady p) = .cmd (cmdWord 2 4 p) ∧
    ∀ s : State, HostReady s →
      let num (b : Bool) : Word := if b then 1 else 0
      (s.cfg.nUart ≤ p.val →
        exec (.uartRxReady p) s = .next { s with cmd := cmdWord 2 3 p, result := 0 } ∧
        exec (.uartTxReady p) s = .next { s with cmd := cmdWord 2 4 p, result := 0 }) ∧
      (p.val < s.cfg.nUart →
        (Answers (exec (.uartRxReady p) s) fun t =>
          OnlyPort p { s with cmd := cmdWord 2 3 p, result := num (s.port p).rxDone } t ∧ SameCells s t ∧
          t.port p = { s.port p with rxDone := false } ∧ Answers (exec (.uartRxReady p) t) fun u => u.result = 0) ∧
        (Answers (exec (.uartTxReady p) s) fun t =>
          OnlyPort p { s with cmd := cmdWord 2 4 p, result := num (s.port p).txDone } t ∧ SameCells s t ∧
          t.port p = { s.port p with txDone := false } ∧ Answers (exec (.uartTxReady p) t) fun u => u.result = 0))

/-- R137. -/
def Obligations.ClearReceiveBuffer : Prop :=
  ∀ p : Idx, encode (.uartClearRx p) = .cmd (cmdWord 2 5 p) ∧
    ∀ s : State, HostReady s →
      let s' := { s with cmd := cmdWord 2 5 p }
      (s.cfg.nUart ≤ p.val → exec (.uartClearRx p) s = .next s') ∧
      (p.val < s.cfg.nUart → Answers (exec (.uartClearRx p) s) fun t =>
        OnlyPort p s' t ∧ t.port p = { s.port p with rxBuf := (t.port p).rxBuf, rxCounter := 0 } ∧
        (∀ a < (s.portCfg p).rxCap, Mem.read (t.mem (.uartRx p)) a = some (s.arg0.extractLsb' 0 8)) ∧
        CellsExcept (fun b a => b = .uartRx p ∧ a < (s.portCfg p).rxCap) s t)

/-- R138, R139: filling and starting a synchronous send; both are refused while one is armed. -/
def Obligations.FillAndStart : Prop :=
  ∀ p : Idx, encode (.uartFill p) = .cmd (cmdWord 2 0 p) ∧ encode (.uartStart p) = .cmd (cmdWord 2 1 p) ∧
    ∀ s : State, HostReady s →
      let u := s.port p
      let n := min s.arg0.toNat (s.portCfg p).txCap
      let fill := { s with cmd := cmdWord 2 0 p }
      let start := { s with cmd := cmdWord 2 1 p }
      (s.cfg.nUart ≤ p.val → exec (.uartFill p) s = .next fill ∧ exec (.uartStart p) s = .next start) ∧
      (p.val < s.cfg.nUart → u.txIe = true →
        RefusedAs .txBusy fill (exec (.uartFill p) s) ∧ RefusedAs .txBusy start (exec (.uartStart p) s)) ∧
      (p.val < s.cfg.nUart → u.txIe = false →
        (Answers (exec (.uartFill p) s) fun t => OnlyPort p fill t ∧
          t.port p = { u with txBuf := (t.port p).txBuf, txLength := (t.port p).txLength } ∧
          (t.port p).txLength.toNat = n ∧ CopiedFromStg (.uartTx p) n s t) ∧
        (Answers (exec (.uartStart p) s) fun t => OnlyPort p start t ∧ SameCells s t ∧
          t.port p = { u with
            txCounter := 0, txDone := false, txIe := true,
            dir := if (s.portCfg p).halfDuplex then .tx else u.dir }))

/-- R141, R142: the transmit step, for a cursor inside the length (R55). The model's reading (assumption 6): a step that
is not enabled is refused as BadTrace (R175). -/
def Obligations.TransmitStep : Prop :=
  ∀ p : Idx, encode (.stTxsv p) = .step (evtWord 3 p 0) ∧
    ∀ s : State, Live s → p.val < s.cfg.nUart → (s.port p).txCounter.toNat ≤ (s.port p).txLength.toNat →
      let u := s.port p
      let halfDuplex := (s.portCfg p).halfDuplex
      let enabled := u.txIe = true ∧ u.txq.length < (s.portCfg p).txDepth ∧
        (u.txCounter = u.txLength ∧ halfDuplex = true → u.txq = [] ∧ u.tsr = none)
      (¬ enabled → RefusedAs .badTrace s (exec (.stTxsv p) s)) ∧
      (enabled → u.txCounter ≠ u.txLength → Mem.read (s.mem (.uartTx p)) u.txCounter.toNat = none →
        FaultsAs (.unwrittenRead (.uartTx p) u.txCounter.toNat) s (exec (.stTxsv p) s)) ∧
      (enabled → u.txCounter ≠ u.txLength → ∀ v, Mem.read (s.mem (.uartTx p)) u.txCounter.toNat = some v →
        Answers (exec (.stTxsv p) s) fun t => OnlyPort p s t ∧ SameCells s t ∧
          t.port p = { u with txq := u.txq ++ [v], txCounter := u.txCounter + 1 }) ∧
      (enabled → u.txCounter = u.txLength → Answers (exec (.stTxsv p) s) fun t => OnlyPort p s t ∧ SameCells s t ∧
        t.port p = { u with
          txDone := true, txIe := false, txCounter := 0, dir := if halfDuplex then .rx else u.dir })

/-- R144: the byte is recorded with whether it reached the line. The model's reading (assumption 6): an event that is
not enabled is refused as BadTrace (R175). -/
def Obligations.ShiftRegisterFinishes : Prop :=
  ∀ (p : Idx) (d : Byte), encode (.evTxsh p d) = .evt (evtWord 4 p d) ∧
    ∀ s : State, Live s → p.val < s.cfg.nUart →
      let u := s.port p
      (u.tsr = none → RefusedAs .badTrace s (exec (.evTxsh p d) s)) ∧
      ∀ b, u.tsr = some b → Answers (exec (.evTxsh p d) s) fun t => OnlyPort p s t ∧ SameCells s t ∧
        t.port p = { u with
          tsr := none,
          wireOut := u.wireOut ++ [(b, decide ((s.portCfg p).halfDuplex = false ∨ u.dir = .tx))] }

/-- R146, in the order of its checks (R180). -/
def Obligations.SendByDma : Prop :=
  ∀ p : Idx, encode (.uartSendDma p) = .cmd (cmdWord 2 2 p) ∧
    ∀ s : State, HostReady s →
      let s' := { s with cmd := cmdWord 2 2 p }
      (s.cfg.nUart ≤ p.val → exec (.uartSendDma p) s = .next { s' with result := 0 }) ∧
      (p.val < s.cfg.nUart →
        ((s.portCfg p).txDmaCh = none → RefusedAs .noDmaChannel s' (exec (.uartSendDma p) s)) ∧
        ∀ c, (s.portCfg p).txDmaCh = some c →
          let x := s.chan c
          let busy := x.xfer = .inProgress ∨ (s.port p).txq ≠ [] ∨ (s.port p).tsr ≠ none
          let n := min s.arg0.toNat (s.chanCfg c).bufCap
          (s.arg0 = 0 → RefusedAs .zeroLength s' (exec (.uartSendDma p) s)) ∧
          (s.arg0 ≠ 0 → busy → exec (.uartSendDma p) s = .next { s' with result := 0 }) ∧
          (s.arg0 ≠ 0 → ¬ busy → Answers (exec (.uartSendDma p) s) fun t =>
            OnlyChan c { s' with result := 1 } t ∧ CopiedFromStg (.chBuf c) n s t ∧
            (t.chan c).cnt.toNat + 1 = n ∧ (t.chan c).rem.toNat = n ∧
            t.chan c = { x with
              buf := (t.chan c).buf, cnt := (t.chan c).cnt, rem := (t.chan c).rem, state := .enabled,
              xfer := .inProgress, ie := true, xidx := 0, fpend := true, rpend := false }))

/-! ## The I2C ports -/

/-- R151, R154, R155. -/
def Obligations.WriteArmsOrHolds : Prop :=
  ∀ q : Idx, encode (.i2cWrite q) = .cmd (cmdWord 3 0 q) ∧
    ∀ s : State, HostReady s →
      let s' := { s with cmd := cmdWord 3 0 q }
      (s.cfg.nI2c ≤ q.val → exec (.i2cWrite q) s = .next s') ∧
      (q.val < s.cfg.nI2c → s.arg0 = 0 → RefusedAs .zeroLength s' (exec (.i2cWrite q) s)) ∧
      (q.val < s.cfg.nI2c → s.arg0 ≠ 0 → (s.i2cp q).busy = true →
        exec (.i2cWrite q) s = .next { s' with hostWait := .preArm (cmdWord 3 0 q) }) ∧
      (q.val < s.cfg.nI2c → s.arg0 ≠ 0 → (s.i2cp q).busy = false → Answers (exec (.i2cWrite q) s) (WriteArmed q s'))

/-- R152, R154, R155, and the release of the host (R156). -/
def Obligations.ReadArmsOrHolds : Prop :=
  ∀ q : Idx, encode (.i2cRead q) = .cmd (cmdWord 3 1 q) ∧
    ∀ s : State, HostReady s →
      let s' := { s with cmd := cmdWord 3 1 q }
      (s.cfg.nI2c ≤ q.val → exec (.i2cRead q) s = .next { s' with result := 0 }) ∧
      (q.val < s.cfg.nI2c → s.arg0 = 0 ∨ s.arg1 = 0 → RefusedAs .zeroLength s' (exec (.i2cRead q) s)) ∧
      (q.val < s.cfg.nI2c → s.arg0 ≠ 0 → s.arg1 ≠ 0 → (s.i2cp q).busy = true →
        exec (.i2cRead q) s = .next { s' with hostWait := .preArm (cmdWord 3 1 q) }) ∧
      (q.val < s.cfg.nI2c → s.arg0 ≠ 0 → s.arg1 ≠ 0 → (s.i2cp q).busy = false →
        Answers (exec (.i2cRead q) s) (ReadArmed q s')) ∧
      ∀ t : State, Live t → t.hostWait = .postArm q .read → (t.i2cp q).busy = false →
        exec .stHcont t = .next { t with hostWait := .none, result := (t.i2cp q).readLength }

/-- R153, R154, R155: the command itself, up to the hold. -/
def Obligations.ProbeArmsOrHolds : Prop :=
  ∀ q : Idx, encode (.i2cProbe q) = .cmd (cmdWord 3 2 q) ∧
    ∀ s : State, HostReady s →
      let s' := { s with cmd := cmdWord 3 2 q }
      (s.cfg.nI2c ≤ q.val → exec (.i2cProbe q) s = .next { s' with result := 0 }) ∧
      (q.val < s.cfg.nI2c → (s.i2cp q).busy = true →
        exec (.i2cProbe q) s = .next { s' with hostWait := .preArm (cmdWord 3 2 q) }) ∧
      (q.val < s.cfg.nI2c → (s.i2cp q).busy = false → Answers (exec (.i2cProbe q) s) (ProbeArmed q s'))

/-- R156. The probe's RESULT takes 0 for ACK, which the spec marks as general knowledge (assumption 14); a held word
with another OP, which no run holds, has no continuation (assumption 11); that a step which is not enabled is refused as
BadTrace (R175) is the model's reading (assumption 6). -/
def Obligations.HostContinuation : Prop :=
  encode .stHcont = .step 0x7000 ∧ ∀ s : State, Live s →
    (s.hostWait = .none → RefusedAs .badTrace s (exec .stHcont s)) ∧
    (∀ w, s.hostWait = .preArm w →
      let q := cmdIdx w
      ((s.i2cp q).busy = true ∨ 2 < cmdOp w → RefusedAs .badTrace s (exec .stHcont s)) ∧
      ((s.i2cp q).busy = false → cmdOp w = 0 → Answers (exec .stHcont s) (WriteArmed q { s with hostWait := .none })) ∧
      ((s.i2cp q).busy = false → cmdOp w = 1 → Answers (exec .stHcont s) (ReadArmed q { s with hostWait := .none })) ∧
      ((s.i2cp q).busy = false → cmdOp w = 2 → Answers (exec .stHcont s) (ProbeArmed q { s with hostWait := .none }))) ∧
    (∀ q kind, s.hostWait = .postArm q kind →
      ((s.i2cp q).busy = true → RefusedAs .badTrace s (exec .stHcont s)) ∧
      ((s.i2cp q).busy = false → exec .stHcont s = .next { s with
        hostWait := .none,
        result := match kind with
          | .read => (s.i2cp q).readLength
          | .probe => if (s.i2cp q).ackstat then 0 else 1 }))

/-- R158, R159, R161: the steps that send the write bytes, and the one that ends them. -/
def Obligations.PhaseBytes : Prop :=
  ∀ q : Idx, encode (.stI2sv q) = .step (evtWord 6 q 0) ∧
    ∀ s : State, Live s → q.val < s.cfg.nI2c → (s.i2cp q).mif = true → (s.i2cp q).ie = true →
      let x := s.i2cp q
      let sends := x.phase = 0 ∨ x.phase = 1 ∧ x.txCounter.toNat < x.writeLength.toNat
      (sends → Mem.read (s.mem (.i2cTx q)) x.txCounter.toNat = none →
        FaultsAs (.unwrittenRead (.i2cTx q) x.txCounter.toNat) s (exec (.stI2sv q) s)) ∧
      (sends → ∀ v, Mem.read (s.mem (.i2cTx q)) x.txCounter.toNat = some v → Answers (exec (.stI2sv q) s) fun t =>
        OnlyI2c q s t ∧ SameCells s t ∧ t.i2cp q = { x with
          mif := false, txCounter := x.txCounter + 1, phase := 1, bop := .send, bopData := v,
          busOut := x.busOut ++ [(.send, some v)] }) ∧
      (x.phase = 1 → x.writeLength.toNat ≤ x.txCounter.toNat → Answers (exec (.stI2sv q) s) fun t =>
        let last := match x.mode with | .write => BusOp.stop | .read => .restart
        OnlyI2c q s t ∧ SameCells s t ∧ t.i2cp q = { x with
          mif := false, phase := 2, bop := last, bopData := 0, busOut := x.busOut ++ [(last, none)] })

/-- R162. Bit 0 set is the read bit, which the spec marks as general knowledge (assumption 14). -/
def Obligations.PhaseReadAddress : Prop :=
  ∀ (q : Idx) (s : State), Live s → q.val < s.cfg.nI2c → (s.i2cp q).mif = true → (s.i2cp q).ie = true →
    (s.i2cp q).mode = .read → (s.i2cp q).phase = 2 →
      let x := s.i2cp q
      (Mem.read (s.mem (.i2cTx q)) 0 = none → FaultsAs (.unwrittenRead (.i2cTx q) 0) s (exec (.stI2sv q) s)) ∧
      (∀ v, Mem.read (s.mem (.i2cTx q)) 0 = some v → Answers (exec (.stI2sv q) s) fun t =>
        OnlyI2c q s t ∧ SameCells s t ∧ t.i2cp q = { x with
          mif := false, phase := 3, bop := .send, bopData := v ||| 0x01,
          busOut := x.busOut ++ [(.send, some (v ||| 0x01))] })

/-- R163, R164: receive-enable, then one received byte per phase 4 step. -/
def Obligations.PhaseReceive : Prop :=
  ∀ (q : Idx) (s : State), Live s → q.val < s.cfg.nI2c → (s.i2cp q).mif = true → (s.i2cp q).ie = true →
    (s.i2cp q).mode = .read →
      let x := s.i2cp q
      (x.phase = 3 → Answers (exec (.stI2sv q) s) fun t => OnlyI2c q s t ∧ SameCells s t ∧ t.i2cp q = { x with
        mif := false, phase := 4, bop := .rcen, bopData := 0, busOut := x.busOut ++ [(.rcen, none)] }) ∧
      (x.phase = 4 → Answers (exec (.stI2sv q) s) fun t =>
        let more := x.rxCounter + 1 < x.readLength
        let next := if more then BusOp.ackrcv else .nackstop
        OnlyI2c q s t ∧ Mem.read (t.mem (.i2cRx q)) x.rxCounter.toNat = x.rcv ∧
        CellsExcept (fun b a => b = .i2cRx q ∧ a = x.rxCounter.toNat) s t ∧ t.i2cp q = { x with
          mif := false, rxData := (t.i2cp q).rxData, rxCounter := x.rxCounter + 1, phase := if more then 4 else 5,
          bop := next, bopData := 0, busOut := x.busOut ++ [(next, none)] })

/-- R157, R160, R165, R167: the terminal phases, the phases the table does not give, and when no phase step is
enabled. The model's reading (assumption 6): a step that is not enabled is refused as BadTrace (R175). -/
def Obligations.PhaseStepEnds : Prop :=
  ∀ (q : Idx) (s : State), Live s → q.val < s.cfg.nI2c →
    let x := s.i2cp q
    let enabled := x.mif = true ∧ x.ie = true
    (¬ enabled → RefusedAs .badTrace s (exec (.stI2sv q) s)) ∧
    (enabled → x.mode = .write → x.phase = 2 → Answers (exec (.stI2sv q) s) fun t =>
      OnlyI2c q s t ∧ SameCells s t ∧ t.i2cp q = { x with mif := false, busy := false, ie := false }) ∧
    (enabled → x.mode = .read → x.phase = 5 → Answers (exec (.stI2sv q) s) fun t =>
      OnlyI2c q s t ∧ SameCells s t ∧
      t.i2cp q = { x with mif := false, busy := false, ie := false, txCounter := 0, rxCounter := 0 }) ∧
    (enabled → x.mode = .write ∧ 3 ≤ x.phase.toNat ∨ 6 ≤ x.phase.toNat →
      FaultsAs (.unreachablePhase q) s (exec (.stI2sv q) s))

/-- R166: the pending bus operation completes. The model's reading (assumption 6): an event that is not enabled is
refused as BadTrace (R175). -/
def Obligations.BusCompletion : Prop :=
  ∀ (q : Idx) (d : Byte), encode (.evI2cd q d) = .evt (evtWord 6 q d) ∧
    ∀ s : State, Live s → q.val < s.cfg.nI2c →
      let x := s.i2cp q
      (x.bop = .none → RefusedAs .badTrace s (exec (.evI2cd q d) s)) ∧
      (x.bop ≠ .none → Answers (exec (.evI2cd q d) s) fun t => OnlyI2c q s t ∧ SameCells s t ∧
        t.i2cp q = { x with
          bop := .none, mif := true,
          ackstat := if x.bop = .send then d.getLsbD 0 else x.ackstat,
          rcv := if x.bop = .rcen ∨ x.bop = .ackrcv then some d else x.rcv })

/-! ## The whole machine -/

/-- R65, R190 and the reset column of R24. `rdata`, `pending` and `draws` are the model's own and not named here
(assumptions 3, 4, 7). -/
def Obligations.ResetLeaves : Prop :=
  (∀ (cfg : Config) (i : Idx),
    (State.init cfg).chan i = ⟨.unassigned, .idle, false, false, false, false, 0, 0, 0, []⟩ ∧
    (State.init cfg).port i = ⟨[], 0, 0, false, false, [], 0, false, [], false, false, [], none, .rx, []⟩ ∧
    (State.init cfg).i2cp i =
      ⟨[], [], 0, 0, 0, 0, 0, .write, false, false, .none, 0, false, false, none, []⟩) ∧
  (∀ cfg : Config, (State.init cfg).cmd = 0 ∧ (State.init cfg).arg0 = 0 ∧ (State.init cfg).arg1 = 0 ∧
    (State.init cfg).result = 0 ∧ (State.init cfg).stgPtr = 0 ∧ (State.init cfg).bufSel = 0 ∧
    (State.init cfg).bufPtr = 0 ∧ (∀ b a, Mem.read ((State.init cfg).mem b) a = none) ∧
    (State.init cfg).hostWait = .none ∧ (State.init cfg).fault = none ∧ (State.init cfg).refused = none ∧
    (State.init cfg).extOut = [] ∧ (State.init cfg).cfg = cfg) ∧
  (∀ cfg : Config, configValid cfg = true → ∀ p : Idx, p.val < cfg.nUart →
    Answers (exec (.rdUstat p) (State.init cfg)) fun t => t.rdata = 0x0010)

/-- R55 to R58, R29 to R32, R47, R60 and the canonical form of the buffers: every step keeps the invariant. -/
def Obligations.EveryStepKeepsInvariant : Prop := ∀ s t : State, Inv s → step s = .next t → Inv t

/-- R65: the invariant holds after reset, for every valid configuration. That the reset machine has CFG-A is the model's
choice (assumption 1). -/
def Obligations.ResetMeetsInvariant : Prop :=
  (∀ cfg : Config, configValid cfg = true → Inv (State.init cfg)) ∧
  State.reset = State.init Config.cfgA ∧ configValid Config.cfgA = true

/-- R167: from a state that meets the invariant, no transition reaches a phase that the table does not give. -/
def Obligations.PhaseTableSuffices : Prop :=
  ∀ (s t : State) (i : Instr) (q : Idx), Inv s → exec i s = .next t → t.fault ≠ some (.unreachablePhase q)

/-- R169: from the arm of a transaction, whose write bytes are written, the phases of its steps depend on the lengths
only, and the transaction ends with every received byte stored. -/
def Obligations.PhaseOrder : Prop :=
  ∀ (q : Idx) (s : State), Live s → Inv s → q.val < s.cfg.nI2c →
    let x := s.i2cp q
    let w := x.writeLength.toNat
    let r := x.readLength.toNat
    x.busy = true → x.phase = 0 → x.bop = .start → x.txCounter = 0 → x.rxCounter = 0 →
    (∀ a < w, Mem.read (s.mem (.i2cTx q)) a ≠ none) → ∀ ds : List Byte,
      (x.mode = .write → ds.length = w + 2 →
        (i2cBeats q ds s).1 = 0 :: (List.replicate w 1 ++ [2]) ∧
        Answers (i2cBeats q ds s).2 fun t => OnlyI2c q s t ∧ SameCells s t ∧ (t.i2cp q).busy = false) ∧
      (x.mode = .read → ds.length = w + r + 4 →
        (i2cBeats q ds s).1 = 0 :: (List.replicate w 1 ++ [2, 3] ++ List.replicate r 4 ++ [5]) ∧
        Answers (i2cBeats q ds s).2 fun t => OnlyI2c q s t ∧ (t.i2cp q).busy = false ∧
          CellsExcept (fun b a => b = .i2cRx q ∧ a < r) s t ∧
          ∀ k < r, Mem.read (t.mem (.i2cRx q)) k = ds[w + 3 + k]?)

/-- R48, R63, R119, R122: the writers of transfer_state. WR CMD stands for the command it executes. -/
def Obligations.TransferStateWriters : Prop :=
  ∀ (s t : State) (i : Instr) (c : Idx), exec i s = .next t → (t.chan c).xfer ≠ (s.chan c).xfer →
    match (t.chan c).xfer with
    | .inProgress => actsAs i = .chEnable c ∨ ∃ p, actsAs i = .uartSendDma p ∧ (s.portCfg p).txDmaCh = some c
    | .done => actsAs i = .chDisable c ∨ actsAs i = .stChcp c
    | .idle => actsAs i = .chPoll c ∧ (s.chan c).xfer = .done

/-- R63, with ARM (R154) for MIF: whatever changes a flag of the table other than transfer_state is one of the flag's
writers. That each writer does write is stated of its instruction. WR CMD stands for the command it executes. -/
def Obligations.FlagWriters : Prop :=
  ∀ (s t : State) (i : Instr) (k : Idx), exec i s = .next t →
    ((t.port k).rxDone ≠ (s.port k).rxDone →
      if (t.port k).rxDone then actsAs i = .stRxsv k else actsAs i = .uartRxReady k) ∧
    ((t.port k).txDone ≠ (s.port k).txDone →
      if (t.port k).txDone then actsAs i = .stTxsv k else actsAs i = .uartStart k ∨ actsAs i = .uartTxReady k) ∧
    ((t.port k).oerr ≠ (s.port k).oerr →
      if (t.port k).oerr then ∃ b, actsAs i = .evRxb k b else actsAs i = .stRxer k) ∧
    ((t.port k).ferr ≠ (s.port k).ferr →
      if (t.port k).ferr then ∃ b, actsAs i = .evRxfe k b else actsAs i = .stRxer k) ∧
    ((t.chan k).pend ≠ (s.chan k).pend →
      if (t.chan k).pend then actsAs i = .stXfer k else actsAs i = .stChcp k ∨ actsAs i = .chAcquire k) ∧
    ((t.i2cp k).busy ≠ (s.i2cp k).busy →
      if (t.i2cp k).busy then
        actsAs i = .i2cWrite k ∨ actsAs i = .i2cRead k ∨ actsAs i = .i2cProbe k ∨ actsAs i = .stHcont
      else actsAs i = .stI2sv k) ∧
    ((t.i2cp k).mif ≠ (s.i2cp k).mif →
      if (t.i2cp k).mif then ∃ d, actsAs i = .evI2cd k d
      else actsAs i = .stI2sv k ∨ actsAs i = .i2cWrite k ∨ actsAs i = .i2cRead k ∨ actsAs i = .i2cProbe k ∨
        actsAs i = .stHcont) ∧
    ((t.i2cp k).ackstat ≠ (s.i2cp k).ackstat → (∃ d, actsAs i = .evI2cd k d) ∧ (s.i2cp k).bop = .send)

/-- R26 to R28, R43 to R59 as each names its writers: ARG0 and ARG1 are written by the host only, STG by writes to
STG_DATA only, and RESULT by the commands of R28's table only. -/
def Obligations.RegisterWriters : Prop :=
  ∀ (s t : State) (i : Instr), exec i s = .next t →
    (t.arg0 ≠ s.arg0 → i = .wrArg0 t.arg0) ∧ (t.arg1 ≠ s.arg1 → i = .wrArg1 t.arg1) ∧
    (t.stg ≠ s.stg → ∃ d, i = .wrStgData d) ∧
    (t.cmd ≠ s.cmd → i = .wrCmd t.cmd ∨ encode i = .cmd t.cmd) ∧
    (t.result ≠ s.result → ∃ k, actsAs i ∈ [Instr.chPoll k, .uartSendDma k, .uartRxReady k, .uartTxReady k,
      .i2cRead k, .i2cProbe k, .stHcont])

/-- R125: the commands and steps of one channel leave every other channel, every buffer but their own, and the state
of every serial port but their sink. -/
def Obligations.ChannelIsolation : Prop :=
  ∀ (s t : State) (i : Instr) (c : Idx), exec i s = .next t →
    actsAs i ∈ [Instr.chAcquire c, .chEnable c, .chDisable c, .chForce c, .chPoll c, .chSetcnt c, .stXfer c, .stChcp c] →
    (∀ d, d ≠ c → t.chan d = s.chan d) ∧ SameCells s t ∧ t.i2c = s.i2c ∧ t.hostWait = s.hostWait ∧
    ∀ p, t.port p = { s.port p with txq := (t.port p).txq } ∧
      ((s.chanCfg c).sink ≠ .uartTx p → t.port p = s.port p)
end

