-- ==== Sys2Proof/Laws/Mem.lean ====
section
/-! SUPPORT. Buffer cells: what each operation makes a read answer, and that each keeps the canonical form. -/

namespace Sys2Proof.Machine

/-! ## Reading after writing -/

@[simp] theorem Mem.read_nil (a : Nat) : Mem.read [] a = none := rfl

theorem Mem.read_put (m : Mem) (a b : Nat) (v : Byte) :
    Mem.read (Mem.put m a v) b = if a = b then some v else Mem.read m b := by
  induction m with
  | nil => simp [Mem.put, Mem.read]
  | cons e m ih =>
    obtain ⟨k, w⟩ := e
    unfold Mem.put
    split
    · simp [Mem.read]
    · split
      · subst a
        by_cases h : k = b <;> simp [Mem.read, h]
      · simp only [Mem.read, ih]
        by_cases h : k = b
        · simp [h, show a ≠ b by omega]
        · simp [h]

theorem Mem.read_erase (m : Mem) (a b : Nat) : Mem.read (Mem.erase m a) b = if a = b then none else Mem.read m b := by
  induction m with
  | nil => simp [Mem.erase]
  | cons e m ih =>
    obtain ⟨k, w⟩ := e
    have ih' : Mem.read (List.filter (fun x => !decide (x.1 = a)) m) b = if a = b then none else Mem.read m b := by
      simpa [Mem.erase] using ih
    by_cases hk : k = a
    · subst k
      by_cases hb : a = b
      · subst hb
        simpa [Mem.erase] using ih'
      · simpa [Mem.erase, Mem.read, hb] using ih'
    · by_cases hb : k = b
      · subst b
        simp [Mem.erase, Mem.read, hk, Ne.symm hk]
      · simp [Mem.erase, Mem.read, hk, hb, ih']

/-- A write is read back in its cell and nowhere else. -/
theorem Mem.read_write (m : Mem) (a b : Nat) (v : Option Byte) :
    Mem.read (Mem.write m a v) b = if a = b then v else Mem.read m b := by
  cases v with
  | none => exact Mem.read_erase m a b
  | some v => exact Mem.read_put m a b v

/-- A copy of n cells is read back below n; the other cells keep theirs. -/
theorem Mem.read_copy (src dst : Mem) (n a : Nat) :
    Mem.read (Mem.copy src n dst) a = if a < n then Mem.read src a else Mem.read dst a := by
  induction n with
  | zero => simp [Mem.copy]
  | succ n ih =>
    simp only [Mem.copy, Mem.read_write, ih]
    by_cases h : n = a
    · subst a
      simp
    · by_cases h' : a < n
      · simp [h, h', show a < n + 1 by omega]
      · simp [h, h', show ¬ a < n + 1 by omega]

/-- A fill of n cells is read back below n; the other cells keep theirs. -/
theorem Mem.read_fill (v : Byte) (dst : Mem) (n a : Nat) :
    Mem.read (Mem.fill v n dst) a = if a < n then some v else Mem.read dst a := by
  induction n with
  | zero => simp [Mem.fill]
  | succ n ih =>
    simp only [Mem.fill, Mem.read_put, ih]
    by_cases h : n = a
    · subst a
      simp
    · by_cases h' : a < n
      · simp [h, h', show a < n + 1 by omega]
      · simp [h, h', show ¬ a < n + 1 by omega]

/-! ## Which cells are listed -/

theorem Mem.mem_put {m : Mem} {a : Nat} {v : Byte} {x : Host.Cell} (h : x ∈ Mem.put m a v) : x = (a, v) ∨ x ∈ m := by
  induction m with
  | nil => simpa [Mem.put] using h
  | cons e m ih =>
    obtain ⟨k, w⟩ := e
    unfold Mem.put at h
    split at h
    · simpa using h
    · split at h
      · rcases List.mem_cons.1 h with h | h
        · exact .inl h
        · exact .inr (List.mem_cons_of_mem _ h)
      · rcases List.mem_cons.1 h with h | h
        · exact .inr (h ▸ List.mem_cons_self)
        · exact (ih h).imp id (List.mem_cons_of_mem _)

theorem Mem.mem_write {m : Mem} {a : Nat} {v : Option Byte} {x : Host.Cell} (h : x ∈ Mem.write m a v) :
    x.1 = a ∨ x ∈ m := by
  cases v with
  | none => exact .inr (List.mem_of_mem_filter h)
  | some v => exact (Mem.mem_put h).imp (fun e => congrArg Prod.fst e) id

theorem Mem.mem_copy {src dst : Mem} {n : Nat} {x : Host.Cell} (h : x ∈ Mem.copy src n dst) : x.1 < n ∨ x ∈ dst := by
  induction n with
  | zero => exact .inr h
  | succ n ih =>
    rcases Mem.mem_write h with h | h
    · exact .inl (by omega)
    · exact (ih h).imp (by omega) id

theorem Mem.mem_fill {v : Byte} {dst : Mem} {n : Nat} {x : Host.Cell} (h : x ∈ Mem.fill v n dst) : x.1 < n ∨ x ∈ dst := by
  induction n with
  | zero => exact .inr h
  | succ n ih =>
    rcases Mem.mem_put h with h | h
    · exact .inl (by simp [h])
    · exact (ih h).imp (by omega) id

/-! ## The canonical form -/

theorem Mem.wf_nil : Mem.wf [] := List.Pairwise.nil

theorem Mem.wf_put {m : Mem} (h : m.wf) (a : Nat) (v : Byte) : (Mem.put m a v).wf := by
  induction m with
  | nil => simp [Mem.put, Mem.wf]
  | cons e m ih =>
    obtain ⟨k, w⟩ := e
    obtain ⟨hk, hm⟩ := List.pairwise_cons.1 h
    unfold Mem.put
    split
    next hlt =>
      refine List.pairwise_cons.2 ⟨fun x hx => ?_, h⟩
      rcases List.mem_cons.1 hx with hx | hx
      · simpa [hx] using hlt
      · exact Nat.lt_trans hlt (hk x hx)
    next hlt =>
      split
      next he =>
        subst a
        exact List.pairwise_cons.2 ⟨hk, hm⟩
      next hne =>
        refine List.pairwise_cons.2 ⟨fun x hx => ?_, ih hm⟩
        rcases Mem.mem_put hx with hx | hx
        · simp only [hx]
          omega
        · exact hk x hx

theorem Mem.wf_write {m : Mem} (h : m.wf) (a : Nat) (v : Option Byte) : (Mem.write m a v).wf := by
  cases v with
  | none => exact List.Pairwise.filter _ h
  | some v => exact Mem.wf_put h a v

theorem Mem.wf_copy (src : Mem) {dst : Mem} (h : dst.wf) (n : Nat) : (Mem.copy src n dst).wf := by
  induction n with
  | zero => exact h
  | succ n ih => exact Mem.wf_write ih _ _

theorem Mem.wf_fill (v : Byte) {dst : Mem} (h : dst.wf) (n : Nat) : (Mem.fill v n dst).wf := by
  induction n with
  | zero => exact h
  | succ n ih => exact Mem.wf_put ih _ _

/-- Every buffer of the reset machine is canonical. -/
theorem State.reset_mem_wf (b : Buf) : (State.reset.mem b).wf := by
  cases b <;> simp [State.mem, State.reset, State.init, State.chan, State.port, State.i2cp, Channel.reset, UartPort.reset,
    I2cPort.reset]

end Sys2Proof.Machine
end

