-- ==== Sys2Proof/Laws/State.lean ====
section
/-! SUPPORT. One lemma per field per named update of the state, and the accessors of the instance records. -/

namespace Sys2Proof.Machine

/-! ## The record updates write one bank each -/

@[simp] theorem State.cfg_setChan (s : State) (c : Idx) (x : Channel) : (s.setChan c x).cfg = s.cfg := rfl
@[simp] theorem State.ch_setChan (s : State) (c : Idx) (x : Channel) : (s.setChan c x).ch = s.ch.set c x := rfl
@[simp] theorem State.uart_setChan (s : State) (c : Idx) (x : Channel) : (s.setChan c x).uart = s.uart := rfl
@[simp] theorem State.i2c_setChan (s : State) (c : Idx) (x : Channel) : (s.setChan c x).i2c = s.i2c := rfl
@[simp] theorem State.cmd_setChan (s : State) (c : Idx) (x : Channel) : (s.setChan c x).cmd = s.cmd := rfl
@[simp] theorem State.arg0_setChan (s : State) (c : Idx) (x : Channel) : (s.setChan c x).arg0 = s.arg0 := rfl
@[simp] theorem State.arg1_setChan (s : State) (c : Idx) (x : Channel) : (s.setChan c x).arg1 = s.arg1 := rfl
@[simp] theorem State.result_setChan (s : State) (c : Idx) (x : Channel) : (s.setChan c x).result = s.result := rfl
@[simp] theorem State.stgPtr_setChan (s : State) (c : Idx) (x : Channel) : (s.setChan c x).stgPtr = s.stgPtr := rfl
@[simp] theorem State.bufSel_setChan (s : State) (c : Idx) (x : Channel) : (s.setChan c x).bufSel = s.bufSel := rfl
@[simp] theorem State.bufPtr_setChan (s : State) (c : Idx) (x : Channel) : (s.setChan c x).bufPtr = s.bufPtr := rfl
@[simp] theorem State.stg_setChan (s : State) (c : Idx) (x : Channel) : (s.setChan c x).stg = s.stg := rfl
@[simp] theorem State.hostWait_setChan (s : State) (c : Idx) (x : Channel) : (s.setChan c x).hostWait = s.hostWait := rfl
@[simp] theorem State.fault_setChan (s : State) (c : Idx) (x : Channel) : (s.setChan c x).fault = s.fault := rfl
@[simp] theorem State.refused_setChan (s : State) (c : Idx) (x : Channel) : (s.setChan c x).refused = s.refused := rfl
@[simp] theorem State.extOut_setChan (s : State) (c : Idx) (x : Channel) : (s.setChan c x).extOut = s.extOut := rfl
@[simp] theorem State.rdata_setChan (s : State) (c : Idx) (x : Channel) : (s.setChan c x).rdata = s.rdata := rfl
@[simp] theorem State.pending_setChan (s : State) (c : Idx) (x : Channel) : (s.setChan c x).pending = s.pending := rfl
@[simp] theorem State.draws_setChan (s : State) (c : Idx) (x : Channel) : (s.setChan c x).draws = s.draws := rfl

@[simp] theorem State.cfg_setPort (s : State) (p : Idx) (x : UartPort) : (s.setPort p x).cfg = s.cfg := rfl
@[simp] theorem State.ch_setPort (s : State) (p : Idx) (x : UartPort) : (s.setPort p x).ch = s.ch := rfl
@[simp] theorem State.uart_setPort (s : State) (p : Idx) (x : UartPort) : (s.setPort p x).uart = s.uart.set p x := rfl
@[simp] theorem State.i2c_setPort (s : State) (p : Idx) (x : UartPort) : (s.setPort p x).i2c = s.i2c := rfl
@[simp] theorem State.cmd_setPort (s : State) (p : Idx) (x : UartPort) : (s.setPort p x).cmd = s.cmd := rfl
@[simp] theorem State.arg0_setPort (s : State) (p : Idx) (x : UartPort) : (s.setPort p x).arg0 = s.arg0 := rfl
@[simp] theorem State.arg1_setPort (s : State) (p : Idx) (x : UartPort) : (s.setPort p x).arg1 = s.arg1 := rfl
@[simp] theorem State.result_setPort (s : State) (p : Idx) (x : UartPort) : (s.setPort p x).result = s.result := rfl
@[simp] theorem State.stgPtr_setPort (s : State) (p : Idx) (x : UartPort) : (s.setPort p x).stgPtr = s.stgPtr := rfl
@[simp] theorem State.bufSel_setPort (s : State) (p : Idx) (x : UartPort) : (s.setPort p x).bufSel = s.bufSel := rfl
@[simp] theorem State.bufPtr_setPort (s : State) (p : Idx) (x : UartPort) : (s.setPort p x).bufPtr = s.bufPtr := rfl
@[simp] theorem State.stg_setPort (s : State) (p : Idx) (x : UartPort) : (s.setPort p x).stg = s.stg := rfl
@[simp] theorem State.hostWait_setPort (s : State) (p : Idx) (x : UartPort) : (s.setPort p x).hostWait = s.hostWait := rfl
@[simp] theorem State.fault_setPort (s : State) (p : Idx) (x : UartPort) : (s.setPort p x).fault = s.fault := rfl
@[simp] theorem State.refused_setPort (s : State) (p : Idx) (x : UartPort) : (s.setPort p x).refused = s.refused := rfl
@[simp] theorem State.extOut_setPort (s : State) (p : Idx) (x : UartPort) : (s.setPort p x).extOut = s.extOut := rfl
@[simp] theorem State.rdata_setPort (s : State) (p : Idx) (x : UartPort) : (s.setPort p x).rdata = s.rdata := rfl
@[simp] theorem State.pending_setPort (s : State) (p : Idx) (x : UartPort) : (s.setPort p x).pending = s.pending := rfl
@[simp] theorem State.draws_setPort (s : State) (p : Idx) (x : UartPort) : (s.setPort p x).draws = s.draws := rfl

@[simp] theorem State.cfg_setI2c (s : State) (q : Idx) (x : I2cPort) : (s.setI2c q x).cfg = s.cfg := rfl
@[simp] theorem State.ch_setI2c (s : State) (q : Idx) (x : I2cPort) : (s.setI2c q x).ch = s.ch := rfl
@[simp] theorem State.uart_setI2c (s : State) (q : Idx) (x : I2cPort) : (s.setI2c q x).uart = s.uart := rfl
@[simp] theorem State.i2c_setI2c (s : State) (q : Idx) (x : I2cPort) : (s.setI2c q x).i2c = s.i2c.set q x := rfl
@[simp] theorem State.cmd_setI2c (s : State) (q : Idx) (x : I2cPort) : (s.setI2c q x).cmd = s.cmd := rfl
@[simp] theorem State.arg0_setI2c (s : State) (q : Idx) (x : I2cPort) : (s.setI2c q x).arg0 = s.arg0 := rfl
@[simp] theorem State.arg1_setI2c (s : State) (q : Idx) (x : I2cPort) : (s.setI2c q x).arg1 = s.arg1 := rfl
@[simp] theorem State.result_setI2c (s : State) (q : Idx) (x : I2cPort) : (s.setI2c q x).result = s.result := rfl
@[simp] theorem State.stgPtr_setI2c (s : State) (q : Idx) (x : I2cPort) : (s.setI2c q x).stgPtr = s.stgPtr := rfl
@[simp] theorem State.bufSel_setI2c (s : State) (q : Idx) (x : I2cPort) : (s.setI2c q x).bufSel = s.bufSel := rfl
@[simp] theorem State.bufPtr_setI2c (s : State) (q : Idx) (x : I2cPort) : (s.setI2c q x).bufPtr = s.bufPtr := rfl
@[simp] theorem State.stg_setI2c (s : State) (q : Idx) (x : I2cPort) : (s.setI2c q x).stg = s.stg := rfl
@[simp] theorem State.hostWait_setI2c (s : State) (q : Idx) (x : I2cPort) : (s.setI2c q x).hostWait = s.hostWait := rfl
@[simp] theorem State.fault_setI2c (s : State) (q : Idx) (x : I2cPort) : (s.setI2c q x).fault = s.fault := rfl
@[simp] theorem State.refused_setI2c (s : State) (q : Idx) (x : I2cPort) : (s.setI2c q x).refused = s.refused := rfl
@[simp] theorem State.extOut_setI2c (s : State) (q : Idx) (x : I2cPort) : (s.setI2c q x).extOut = s.extOut := rfl
@[simp] theorem State.rdata_setI2c (s : State) (q : Idx) (x : I2cPort) : (s.setI2c q x).rdata = s.rdata := rfl
@[simp] theorem State.pending_setI2c (s : State) (q : Idx) (x : I2cPort) : (s.setI2c q x).pending = s.pending := rfl
@[simp] theorem State.draws_setI2c (s : State) (q : Idx) (x : I2cPort) : (s.setI2c q x).draws = s.draws := rfl

@[simp] theorem State.cfg_setResult (s : State) (w : Word) : (s.setResult w).cfg = s.cfg := rfl
@[simp] theorem State.ch_setResult (s : State) (w : Word) : (s.setResult w).ch = s.ch := rfl
@[simp] theorem State.uart_setResult (s : State) (w : Word) : (s.setResult w).uart = s.uart := rfl
@[simp] theorem State.i2c_setResult (s : State) (w : Word) : (s.setResult w).i2c = s.i2c := rfl
@[simp] theorem State.cmd_setResult (s : State) (w : Word) : (s.setResult w).cmd = s.cmd := rfl
@[simp] theorem State.arg0_setResult (s : State) (w : Word) : (s.setResult w).arg0 = s.arg0 := rfl
@[simp] theorem State.arg1_setResult (s : State) (w : Word) : (s.setResult w).arg1 = s.arg1 := rfl
@[simp] theorem State.result_setResult (s : State) (w : Word) : (s.setResult w).result = w := rfl
@[simp] theorem State.stgPtr_setResult (s : State) (w : Word) : (s.setResult w).stgPtr = s.stgPtr := rfl
@[simp] theorem State.bufSel_setResult (s : State) (w : Word) : (s.setResult w).bufSel = s.bufSel := rfl
@[simp] theorem State.bufPtr_setResult (s : State) (w : Word) : (s.setResult w).bufPtr = s.bufPtr := rfl
@[simp] theorem State.stg_setResult (s : State) (w : Word) : (s.setResult w).stg = s.stg := rfl
@[simp] theorem State.hostWait_setResult (s : State) (w : Word) : (s.setResult w).hostWait = s.hostWait := rfl
@[simp] theorem State.fault_setResult (s : State) (w : Word) : (s.setResult w).fault = s.fault := rfl
@[simp] theorem State.refused_setResult (s : State) (w : Word) : (s.setResult w).refused = s.refused := rfl
@[simp] theorem State.extOut_setResult (s : State) (w : Word) : (s.setResult w).extOut = s.extOut := rfl
@[simp] theorem State.rdata_setResult (s : State) (w : Word) : (s.setResult w).rdata = s.rdata := rfl
@[simp] theorem State.pending_setResult (s : State) (w : Word) : (s.setResult w).pending = s.pending := rfl
@[simp] theorem State.draws_setResult (s : State) (w : Word) : (s.setResult w).draws = s.draws := rfl
@[simp] theorem State.chan_setResult (s : State) (w : Word) (c : Idx) : (s.setResult w).chan c = s.chan c := rfl
@[simp] theorem State.port_setResult (s : State) (w : Word) (p : Idx) : (s.setResult w).port p = s.port p := rfl
@[simp] theorem State.i2cp_setResult (s : State) (w : Word) (q : Idx) : (s.setResult w).i2cp q = s.i2cp q := rfl
@[simp] theorem State.chanCfg_setResult (s : State) (w : Word) (c : Idx) : (s.setResult w).chanCfg c = s.chanCfg c := rfl
@[simp] theorem State.portCfg_setResult (s : State) (w : Word) (p : Idx) : (s.setResult w).portCfg p = s.portCfg p := rfl
@[simp] theorem State.i2cCfg_setResult (s : State) (w : Word) (q : Idx) : (s.setResult w).i2cCfg q = s.i2cCfg q := rfl
@[simp] theorem State.mem_setResult (s : State) (w : Word) (b : Buf) : (s.setResult w).mem b = s.mem b := rfl
@[simp] theorem State.cap_setResult (s : State) (w : Word) (b : Buf) : (s.setResult w).cap b = s.cap b := rfl

@[simp] theorem State.cfg_setWait (s : State) (w : HostWait) : (s.setWait w).cfg = s.cfg := rfl
@[simp] theorem State.ch_setWait (s : State) (w : HostWait) : (s.setWait w).ch = s.ch := rfl
@[simp] theorem State.uart_setWait (s : State) (w : HostWait) : (s.setWait w).uart = s.uart := rfl
@[simp] theorem State.i2c_setWait (s : State) (w : HostWait) : (s.setWait w).i2c = s.i2c := rfl
@[simp] theorem State.cmd_setWait (s : State) (w : HostWait) : (s.setWait w).cmd = s.cmd := rfl
@[simp] theorem State.arg0_setWait (s : State) (w : HostWait) : (s.setWait w).arg0 = s.arg0 := rfl
@[simp] theorem State.arg1_setWait (s : State) (w : HostWait) : (s.setWait w).arg1 = s.arg1 := rfl
@[simp] theorem State.result_setWait (s : State) (w : HostWait) : (s.setWait w).result = s.result := rfl
@[simp] theorem State.stgPtr_setWait (s : State) (w : HostWait) : (s.setWait w).stgPtr = s.stgPtr := rfl
@[simp] theorem State.bufSel_setWait (s : State) (w : HostWait) : (s.setWait w).bufSel = s.bufSel := rfl
@[simp] theorem State.bufPtr_setWait (s : State) (w : HostWait) : (s.setWait w).bufPtr = s.bufPtr := rfl
@[simp] theorem State.stg_setWait (s : State) (w : HostWait) : (s.setWait w).stg = s.stg := rfl
@[simp] theorem State.hostWait_setWait (s : State) (w : HostWait) : (s.setWait w).hostWait = w := rfl
@[simp] theorem State.fault_setWait (s : State) (w : HostWait) : (s.setWait w).fault = s.fault := rfl
@[simp] theorem State.refused_setWait (s : State) (w : HostWait) : (s.setWait w).refused = s.refused := rfl
@[simp] theorem State.extOut_setWait (s : State) (w : HostWait) : (s.setWait w).extOut = s.extOut := rfl
@[simp] theorem State.rdata_setWait (s : State) (w : HostWait) : (s.setWait w).rdata = s.rdata := rfl
@[simp] theorem State.pending_setWait (s : State) (w : HostWait) : (s.setWait w).pending = s.pending := rfl
@[simp] theorem State.draws_setWait (s : State) (w : HostWait) : (s.setWait w).draws = s.draws := rfl
@[simp] theorem State.chan_setWait (s : State) (w : HostWait) (c : Idx) : (s.setWait w).chan c = s.chan c := rfl
@[simp] theorem State.port_setWait (s : State) (w : HostWait) (p : Idx) : (s.setWait w).port p = s.port p := rfl
@[simp] theorem State.i2cp_setWait (s : State) (w : HostWait) (q : Idx) : (s.setWait w).i2cp q = s.i2cp q := rfl
@[simp] theorem State.chanCfg_setWait (s : State) (w : HostWait) (c : Idx) : (s.setWait w).chanCfg c = s.chanCfg c := rfl
@[simp] theorem State.portCfg_setWait (s : State) (w : HostWait) (p : Idx) : (s.setWait w).portCfg p = s.portCfg p := rfl
@[simp] theorem State.i2cCfg_setWait (s : State) (w : HostWait) (q : Idx) : (s.setWait w).i2cCfg q = s.i2cCfg q := rfl
@[simp] theorem State.mem_setWait (s : State) (w : HostWait) (b : Buf) : (s.setWait w).mem b = s.mem b := rfl
@[simp] theorem State.cap_setWait (s : State) (w : HostWait) (b : Buf) : (s.setWait w).cap b = s.cap b := rfl

@[simp] theorem State.cfg_setBufPtr (s : State) (w : Word) : (s.setBufPtr w).cfg = s.cfg := rfl
@[simp] theorem State.ch_setBufPtr (s : State) (w : Word) : (s.setBufPtr w).ch = s.ch := rfl
@[simp] theorem State.uart_setBufPtr (s : State) (w : Word) : (s.setBufPtr w).uart = s.uart := rfl
@[simp] theorem State.i2c_setBufPtr (s : State) (w : Word) : (s.setBufPtr w).i2c = s.i2c := rfl
@[simp] theorem State.cmd_setBufPtr (s : State) (w : Word) : (s.setBufPtr w).cmd = s.cmd := rfl
@[simp] theorem State.arg0_setBufPtr (s : State) (w : Word) : (s.setBufPtr w).arg0 = s.arg0 := rfl
@[simp] theorem State.arg1_setBufPtr (s : State) (w : Word) : (s.setBufPtr w).arg1 = s.arg1 := rfl
@[simp] theorem State.result_setBufPtr (s : State) (w : Word) : (s.setBufPtr w).result = s.result := rfl
@[simp] theorem State.stgPtr_setBufPtr (s : State) (w : Word) : (s.setBufPtr w).stgPtr = s.stgPtr := rfl
@[simp] theorem State.bufSel_setBufPtr (s : State) (w : Word) : (s.setBufPtr w).bufSel = s.bufSel := rfl
@[simp] theorem State.bufPtr_setBufPtr (s : State) (w : Word) : (s.setBufPtr w).bufPtr = w := rfl
@[simp] theorem State.stg_setBufPtr (s : State) (w : Word) : (s.setBufPtr w).stg = s.stg := rfl
@[simp] theorem State.hostWait_setBufPtr (s : State) (w : Word) : (s.setBufPtr w).hostWait = s.hostWait := rfl
@[simp] theorem State.fault_setBufPtr (s : State) (w : Word) : (s.setBufPtr w).fault = s.fault := rfl
@[simp] theorem State.refused_setBufPtr (s : State) (w : Word) : (s.setBufPtr w).refused = s.refused := rfl
@[simp] theorem State.extOut_setBufPtr (s : State) (w : Word) : (s.setBufPtr w).extOut = s.extOut := rfl
@[simp] theorem State.rdata_setBufPtr (s : State) (w : Word) : (s.setBufPtr w).rdata = s.rdata := rfl
@[simp] theorem State.pending_setBufPtr (s : State) (w : Word) : (s.setBufPtr w).pending = s.pending := rfl
@[simp] theorem State.draws_setBufPtr (s : State) (w : Word) : (s.setBufPtr w).draws = s.draws := rfl
@[simp] theorem State.chan_setBufPtr (s : State) (w : Word) (c : Idx) : (s.setBufPtr w).chan c = s.chan c := rfl
@[simp] theorem State.port_setBufPtr (s : State) (w : Word) (p : Idx) : (s.setBufPtr w).port p = s.port p := rfl
@[simp] theorem State.i2cp_setBufPtr (s : State) (w : Word) (q : Idx) : (s.setBufPtr w).i2cp q = s.i2cp q := rfl
@[simp] theorem State.chanCfg_setBufPtr (s : State) (w : Word) (c : Idx) : (s.setBufPtr w).chanCfg c = s.chanCfg c := rfl
@[simp] theorem State.portCfg_setBufPtr (s : State) (w : Word) (p : Idx) : (s.setBufPtr w).portCfg p = s.portCfg p := rfl
@[simp] theorem State.i2cCfg_setBufPtr (s : State) (w : Word) (q : Idx) : (s.setBufPtr w).i2cCfg q = s.i2cCfg q := rfl
@[simp] theorem State.mem_setBufPtr (s : State) (w : Word) (b : Buf) : (s.setBufPtr w).mem b = s.mem b := rfl
@[simp] theorem State.cap_setBufPtr (s : State) (w : Word) (b : Buf) : (s.setBufPtr w).cap b = s.cap b := rfl

/-! ## Reading a record of a state that is written out, and back to the accessor -/

@[simp] theorem State.chan_mk (cfg ch uart i2c cmd arg0 arg1 result stgPtr bufSel bufPtr stg hostWait fault refused extOut rdata pending
    draws) (c : Idx) :
    (State.mk cfg ch uart i2c cmd arg0 arg1 result stgPtr bufSel bufPtr stg hostWait fault refused extOut rdata pending
      draws).chan c = ch[c.val] := rfl
@[simp] theorem State.ch_getElem (s : State) (c : Idx) : s.ch[c.val] = s.chan c := rfl

@[simp] theorem State.port_mk (cfg ch uart i2c cmd arg0 arg1 result stgPtr bufSel bufPtr stg hostWait fault refused extOut rdata pending
    draws) (p : Idx) :
    (State.mk cfg ch uart i2c cmd arg0 arg1 result stgPtr bufSel bufPtr stg hostWait fault refused extOut rdata pending
      draws).port p = uart[p.val] := rfl
@[simp] theorem State.uart_getElem (s : State) (p : Idx) : s.uart[p.val] = s.port p := rfl

@[simp] theorem State.i2cp_mk (cfg ch uart i2c cmd arg0 arg1 result stgPtr bufSel bufPtr stg hostWait fault refused extOut rdata pending
    draws) (q : Idx) :
    (State.mk cfg ch uart i2c cmd arg0 arg1 result stgPtr bufSel bufPtr stg hostWait fault refused extOut rdata pending
      draws).i2cp q = i2c[q.val] := rfl
@[simp] theorem State.i2c_getElem (s : State) (q : Idx) : s.i2c[q.val] = s.i2cp q := rfl

@[simp] theorem State.chanCfg_mk (cfg ch uart i2c cmd arg0 arg1 result stgPtr bufSel bufPtr stg hostWait fault refused extOut rdata pending
    draws) (c : Idx) :
    (State.mk cfg ch uart i2c cmd arg0 arg1 result stgPtr bufSel bufPtr stg hostWait fault refused extOut rdata pending
      draws).chanCfg c = cfg.chan[c.val] := rfl
@[simp] theorem State.cfg_chan_getElem (s : State) (c : Idx) : s.cfg.chan[c.val] = s.chanCfg c := rfl

@[simp] theorem State.portCfg_mk (cfg ch uart i2c cmd arg0 arg1 result stgPtr bufSel bufPtr stg hostWait fault refused extOut rdata pending
    draws) (p : Idx) :
    (State.mk cfg ch uart i2c cmd arg0 arg1 result stgPtr bufSel bufPtr stg hostWait fault refused extOut rdata pending
      draws).portCfg p = cfg.uart[p.val] := rfl
@[simp] theorem State.cfg_uart_getElem (s : State) (p : Idx) : s.cfg.uart[p.val] = s.portCfg p := rfl

@[simp] theorem State.i2cCfg_mk (cfg ch uart i2c cmd arg0 arg1 result stgPtr bufSel bufPtr stg hostWait fault refused extOut rdata pending
    draws) (q : Idx) :
    (State.mk cfg ch uart i2c cmd arg0 arg1 result stgPtr bufSel bufPtr stg hostWait fault refused extOut rdata pending
      draws).i2cCfg q = cfg.i2c[q.val] := rfl
@[simp] theorem State.cfg_i2c_getElem (s : State) (q : Idx) : s.cfg.i2c[q.val] = s.i2cCfg q := rfl

/-! ## Accessors after a record update -/

@[simp] theorem State.chan_setChan (s : State) (c d : Idx) (x : Channel) :
    (s.setChan c x).chan d = if c = d then x else s.chan d := by
  simp only [State.chan, State.setChan, Fin.getElem_fin, Vector.getElem_set, Fin.ext_iff]
@[simp] theorem State.port_setChan (s : State) (c d : Idx) (x : Channel) : (s.setChan c x).port d = s.port d := rfl
@[simp] theorem State.i2cp_setChan (s : State) (c d : Idx) (x : Channel) : (s.setChan c x).i2cp d = s.i2cp d := rfl
@[simp] theorem State.chanCfg_setChan (s : State) (c d : Idx) (x : Channel) : (s.setChan c x).chanCfg d = s.chanCfg d := rfl
@[simp] theorem State.portCfg_setChan (s : State) (c d : Idx) (x : Channel) : (s.setChan c x).portCfg d = s.portCfg d := rfl
@[simp] theorem State.i2cCfg_setChan (s : State) (c d : Idx) (x : Channel) : (s.setChan c x).i2cCfg d = s.i2cCfg d := rfl
@[simp] theorem State.cap_setChan (s : State) (c : Idx) (x : Channel) (b : Buf) : (s.setChan c x).cap b = s.cap b := by
  cases b <;> rfl

@[simp] theorem State.chan_setPort (s : State) (p d : Idx) (x : UartPort) : (s.setPort p x).chan d = s.chan d := rfl
@[simp] theorem State.port_setPort (s : State) (p d : Idx) (x : UartPort) :
    (s.setPort p x).port d = if p = d then x else s.port d := by
  simp only [State.port, State.setPort, Fin.getElem_fin, Vector.getElem_set, Fin.ext_iff]
@[simp] theorem State.i2cp_setPort (s : State) (p d : Idx) (x : UartPort) : (s.setPort p x).i2cp d = s.i2cp d := rfl
@[simp] theorem State.chanCfg_setPort (s : State) (p d : Idx) (x : UartPort) : (s.setPort p x).chanCfg d = s.chanCfg d := rfl
@[simp] theorem State.portCfg_setPort (s : State) (p d : Idx) (x : UartPort) : (s.setPort p x).portCfg d = s.portCfg d := rfl
@[simp] theorem State.i2cCfg_setPort (s : State) (p d : Idx) (x : UartPort) : (s.setPort p x).i2cCfg d = s.i2cCfg d := rfl
@[simp] theorem State.cap_setPort (s : State) (p : Idx) (x : UartPort) (b : Buf) : (s.setPort p x).cap b = s.cap b := by
  cases b <;> rfl

@[simp] theorem State.chan_setI2c (s : State) (q d : Idx) (x : I2cPort) : (s.setI2c q x).chan d = s.chan d := rfl
@[simp] theorem State.port_setI2c (s : State) (q d : Idx) (x : I2cPort) : (s.setI2c q x).port d = s.port d := rfl
@[simp] theorem State.i2cp_setI2c (s : State) (q d : Idx) (x : I2cPort) :
    (s.setI2c q x).i2cp d = if q = d then x else s.i2cp d := by
  simp only [State.i2cp, State.setI2c, Fin.getElem_fin, Vector.getElem_set, Fin.ext_iff]
@[simp] theorem State.chanCfg_setI2c (s : State) (q d : Idx) (x : I2cPort) : (s.setI2c q x).chanCfg d = s.chanCfg d := rfl
@[simp] theorem State.portCfg_setI2c (s : State) (q d : Idx) (x : I2cPort) : (s.setI2c q x).portCfg d = s.portCfg d := rfl
@[simp] theorem State.i2cCfg_setI2c (s : State) (q d : Idx) (x : I2cPort) : (s.setI2c q x).i2cCfg d = s.i2cCfg d := rfl
@[simp] theorem State.cap_setI2c (s : State) (q : Idx) (x : I2cPort) (b : Buf) : (s.setI2c q x).cap b = s.cap b := by
  cases b <;> rfl

/-! ## The reset state -/

@[simp] theorem State.chan_init (cfg : Config) (c : Idx) : (State.init cfg).chan c = Channel.reset := by
  simp only [State.chan, State.init, Fin.getElem_fin, Vector.getElem_replicate]

@[simp] theorem State.port_init (cfg : Config) (p : Idx) : (State.init cfg).port p = UartPort.reset := by
  simp only [State.port, State.init, Fin.getElem_fin, Vector.getElem_replicate]

@[simp] theorem State.i2cp_init (cfg : Config) (q : Idx) : (State.init cfg).i2cp q = I2cPort.reset := by
  simp only [State.i2cp, State.init, Fin.getElem_fin, Vector.getElem_replicate]

end Sys2Proof.Machine
end

