-- ==== Sys2Proof/Laws/Ops.lean ====
section
/-! SUPPORT. One lemma per shared operation: what it answers, and everything it can do when it answers a next state. -/

namespace Sys2Proof.Machine

variable {s t : State} {k : State → Result} {en : State → Bool} {r : Refusal} {f : Fault} {w : Word}

/-! ## Outcomes -/

@[simp] theorem refuse_eq_next : refuse r s = .next t ↔ { s with refused := some r } = t := by
  simp only [refuse, Host.Outcome.next.injEq]

@[simp] theorem raise_eq_next : raise f s = .next t ↔ { s with fault := some f } = t := by
  simp only [raise, Host.Outcome.next.injEq]

theorem observe_some {b : Buf} {a : Nat} {g : Byte → Result} {v : Byte} (h : Mem.read (s.mem b) a = some v) :
    observe s b a g = g v := by simp only [observe, h]

theorem observe_none {b : Buf} {a : Nat} {g : Byte → Result} (h : Mem.read (s.mem b) a = none) :
    observe s b a g = .next { s with fault := some (.unwrittenRead b a) } := by simp only [observe, h, raise]

theorem observe_next {b : Buf} {a : Nat} {g : Byte → Result} (h : observe s b a g = .next t) :
    (∃ v, Mem.read (s.mem b) a = some v ∧ g v = .next t) ∨
      Mem.read (s.mem b) a = none ∧ t = { s with fault := some (.unwrittenRead b a) } := by
  cases hv : Mem.read (s.mem b) a with
  | some v => exact .inl ⟨v, rfl, by rwa [observe_some hv] at h⟩
  | none =>
    rw [observe_none hv] at h
    exact .inr ⟨rfl, (Host.Outcome.next.inj h).symm⟩

/-! ## The gates -/

theorem live_eq (h : Live s) : live s k = k s := by simp only [live, h, if_true]

theorem live_next (h : live s k = .next t) : Live s ∧ k s = .next t := by
  unfold live at h
  split at h
  next hc =>
    split at h
    · cases h
    · cases h
    next hf hr => exact ⟨⟨hc, hf, hr⟩, h⟩
  · cases h

theorem transition_on (h : Live s) (he : en s = true) : transition en s k = k s := by
  simp only [transition, live_eq h, he, if_true]

theorem transition_off (h : Live s) (he : en s = false) :
    transition en s k = .next { s with refused := some .badTrace } := by
  simp [transition, live_eq h, he, refuse]

/-- A transition that answers a next state was enabled, or was refused as a bad trace. -/
theorem transition_next (h : transition en s k = .next t) :
    Live s ∧ (en s = true ∧ k s = .next t ∨ en s = false ∧ t = { s with refused := some .badTrace }) := by
  obtain ⟨hl, h⟩ := live_next h
  refine ⟨hl, ?_⟩
  cases he : en s with
  | true => exact .inl ⟨rfl, by simpa only [he, if_true] using h⟩
  | false =>
    simp only [he, Bool.false_eq_true, if_false, refuse_eq_next] at h
    exact .inr ⟨rfl, h.symm⟩

theorem hostAccess_on (h : HostReady s) : hostAccess s k = k s := transition_on h.1 (by simp only [h.2, decide_true])

theorem hostAccess_off (h : Live s) (hw : s.hostWait ≠ .none) :
    hostAccess s k = .next { s with refused := some .badTrace } := transition_off h (decide_eq_false hw)

theorem hostAccess_next (h : hostAccess s k = .next t) :
    Live s ∧ (s.hostWait = .none ∧ k s = .next t ∨
      s.hostWait ≠ .none ∧ t = { s with refused := some .badTrace }) := by
  obtain ⟨hl, h⟩ := transition_next h
  exact ⟨hl, h.imp (fun h => ⟨of_decide_eq_true h.1, h.2⟩) (fun h => ⟨of_decide_eq_false h.1, h.2⟩)⟩

theorem hostRead_on {v : State → Word} (h : HostReady s) : hostRead s v = .next { s with rdata := v s } := hostAccess_on h

theorem hostRefused_on (h : HostReady s) : hostRefused r s = .next { s with refused := some r } := hostAccess_on h

theorem command_on (h : HostReady s) : command w s k = k { s with cmd := w } := hostAccess_on h

theorem command_next (h : command w s k = .next t) :
    Live s ∧ (s.hostWait = .none ∧ k { s with cmd := w } = .next t ∨
      s.hostWait ≠ .none ∧ t = { s with refused := some .badTrace }) := hostAccess_next h

/-! ## The windows -/

theorem withSel_some {g : Buf → Result} {b : Buf} (h : sel s.bufSel = some b) : withSel s g = g b := by
  simp only [withSel, h]

theorem withSel_next {g : Buf → Result} (h : withSel s g = .next t) :
    (∃ b, sel s.bufSel = some b ∧ g b = .next t) ∨
      sel s.bufSel = none ∧ t = { s with refused := some .reservedBits } := by
  cases hb : sel s.bufSel with
  | some b => exact .inl ⟨b, rfl, by rwa [withSel_some hb] at h⟩
  | none =>
    simp only [withSel, hb, refuse_eq_next] at h
    exact .inr ⟨rfl, h.symm⟩

theorem windowRead_next {b : Buf} {ptr : Word} {bump : Word → State → State} (h : windowRead s b ptr bump = .next t) :
    ptr.toNat = s.cap b ∧ t = { s with refused := some .readPastEnd } ∨
      ptr.toNat ≠ s.cap b ∧
        ((∃ v, Mem.read (s.mem b) ptr.toNat = some v ∧ t = bump (ptr + 1) { s with rdata := zext16 v }) ∨
          Mem.read (s.mem b) ptr.toNat = none ∧ t = { s with fault := some (.unwrittenRead b ptr.toNat) }) := by
  unfold windowRead at h
  split at h
  next he => exact .inl ⟨he, (refuse_eq_next.1 h).symm⟩
  next hne =>
    refine .inr ⟨hne, (observe_next h).imp (fun ⟨v, hv, h⟩ => ⟨v, hv, ?_⟩) id⟩
    exact (Host.Outcome.next.inj h).symm

/-- Cells of the capacity 0 to n - 1 of STG over `dst`. -/
theorem read_fromStg (s : State) (n : Nat) (dst : Mem) (a : Nat) :
    Mem.read (s.fromStg n dst) a = if a < n then Mem.read s.stg a else Mem.read dst a := Mem.read_copy _ _ _ _

@[simp] theorem count16_toNat {n : Nat} (h : n < 2 ^ 16) : (count16 n).toNat = n := by
  simpa [count16] using h

/-- A saturated length fits a register. -/
theorem saturate_lt (w : Word) (n : Nat) : saturate w n < 2 ^ 16 := Nat.lt_of_le_of_lt (Nat.min_le_left _ _) w.isLt

@[simp] theorem count16_saturate (w : Word) (n : Nat) : (count16 (saturate w n)).toNat = saturate w n :=
  count16_toNat (saturate_lt w n)

theorem saturate_le (w : Word) (n : Nat) : saturate w n ≤ n := Nat.min_le_right _ _

/-! ## Families of commands -/

theorem chanCommand_next {op : BitVec 4} {c : Idx} (h : chanCommand op c s k = .next t) :
    Live s ∧ (s.hostWait ≠ .none ∧ t = { s with refused := some .badTrace } ∨
      s.hostWait = .none ∧
        (c.val < s.cfg.nCh ∧ k { s with cmd := cmdWord 1 op c } = .next t ∨
          s.cfg.nCh ≤ c.val ∧ t = { s with cmd := cmdWord 1 op c })) := by
  obtain ⟨hl, ⟨hw, h⟩ | h⟩ := command_next h
  · refine ⟨hl, .inr ⟨hw, ?_⟩⟩
    split at h
    next hc => exact .inl ⟨hc, h⟩
    next hc => exact .inr ⟨by simpa using hc, (Host.Outcome.next.inj h).symm⟩
  · exact ⟨hl, .inl h⟩

theorem uartCommand_next {op : BitVec 4} {p : Idx} (h : uartCommand op p s k = .next t) :
    Live s ∧ (s.hostWait ≠ .none ∧ t = { s with refused := some .badTrace } ∨
      s.hostWait = .none ∧
        (p.val < s.cfg.nUart ∧ k { s with cmd := cmdWord 2 op p } = .next t ∨
          s.cfg.nUart ≤ p.val ∧ t = { s with cmd := cmdWord 2 op p })) := by
  obtain ⟨hl, ⟨hw, h⟩ | h⟩ := command_next h
  · refine ⟨hl, .inr ⟨hw, ?_⟩⟩
    split at h
    next hc => exact .inl ⟨hc, h⟩
    next hc => exact .inr ⟨by simpa using hc, (Host.Outcome.next.inj h).symm⟩
  · exact ⟨hl, .inl h⟩

theorem uartQuery_next {op : BitVec 4} {p : Idx} (h : uartQuery op p s k = .next t) :
    Live s ∧ (s.hostWait ≠ .none ∧ t = { s with refused := some .badTrace } ∨
      s.hostWait = .none ∧
        (p.val < s.cfg.nUart ∧ k { s with cmd := cmdWord 2 op p } = .next t ∨
          s.cfg.nUart ≤ p.val ∧ t = State.setResult { s with cmd := cmdWord 2 op p } 0)) := by
  obtain ⟨hl, ⟨hw, h⟩ | h⟩ := command_next h
  · refine ⟨hl, .inr ⟨hw, ?_⟩⟩
    split at h
    next hc => exact .inl ⟨hc, h⟩
    next hc => exact .inr ⟨by simpa using hc, (Host.Outcome.next.inj h).symm⟩
  · exact ⟨hl, .inl h⟩

theorem armOrHold_next {q : Idx} {g : State → State} (h : armOrHold q s g = .next t) :
    (s.i2cp q).busy = true ∧ t = s.setWait (.preArm s.cmd) ∨ (s.i2cp q).busy = false ∧ t = g s := by
  unfold armOrHold at h
  split at h
  next hb => exact .inl ⟨hb, (Host.Outcome.next.inj h).symm⟩
  next hb => exact .inr ⟨by simpa using hb, (Host.Outcome.next.inj h).symm⟩

/-- The next byte of tx_data is issued, or the step faults on an unwritten one. -/
theorem sendNext_next {q : Idx} {x : I2cPort} {ph : BitVec 3} (h : sendNext q s x ph = .next t) :
    (∃ v, Mem.read (s.i2cp q).txData x.txCounter.toNat = some v ∧
        t = s.setI2c q (issue { x with txCounter := x.txCounter + 1, phase := ph } .send (some v))) ∨
      Mem.read (s.i2cp q).txData x.txCounter.toNat = none ∧
        t = { s with fault := some (.unwrittenRead (.i2cTx q) x.txCounter.toNat) } :=
  (observe_next h).imp (fun ⟨v, hv, h⟩ => ⟨v, hv, (Host.Outcome.next.inj h).symm⟩) id

/-! ## One step -/

/-- An entry's step runs its instruction, or is refused as a bad trace. -/
theorem runEntry_next {e : Entry} (h : runEntry e s = .next t) :
    (∃ i, exec i s = .next t) ∨ Live s ∧ t = { s with refused := some .badTrace } := by
  unfold runEntry at h
  split at h
  · exact .inl ⟨_, h⟩
  · exact .inl ⟨_, h⟩
  · obtain ⟨hl, h⟩ := live_next h
    exact .inr ⟨hl, (refuse_eq_next.1 h).symm⟩

/-- A draw that names no enabled transition leaves the state; otherwise it is that transition. -/
theorem orIdle_next {u : State} {o : Result} (h : orIdle u o = .next t) : t = u ∨ o = .next t := by
  unfold orIdle at h
  split at h
  · split at h
    · exact .inl (Host.Outcome.next.inj h).symm
    · exact .inr h
  · cases h
  · cases h

/-- Everything a step can do: it takes an entry of the trace or makes a draw, and then runs one instruction, refuses a
bad trace, or, after a draw that names no enabled transition, does nothing. -/
theorem step_next (h : step s = .next t) :
    ∃ u : State, u = { s with pending := u.pending, draws := u.draws } ∧
      ((∃ i, exec i u = .next t) ∨ Live u ∧ t = { u with refused := some .badTrace } ∨ t = u) := by
  unfold step at h
  split at h
  next e rest _ => exact ⟨{ s with pending := rest }, rfl, (runEntry_next h).imp id .inl⟩
  · refine ⟨s.countDraw, rfl, ?_⟩
    rcases orIdle_next h with h | h
    · exact .inr (.inr h)
    · exact (runEntry_next h).imp id .inl

end Sys2Proof.Machine
end

