-- ==== Sys2Proof/Laws/Config.lean ====
section
/-! SUPPORT. What a valid parameter set gives (R5 to R13), and counters that stay inside a capacity. -/

namespace Sys2Proof.Machine

variable {s : State}

theorem cfg_counts (h : configValid s.cfg = true) : CountsOk s.cfg := by
  simp only [configValid, Bool.and_eq_true, decide_eq_true_eq] at h
  exact h.1.1.1.1

theorem cfg_bindings (h : configValid s.cfg = true) : BindingsOk s.cfg := by
  simp only [configValid, Bool.and_eq_true, decide_eq_true_eq] at h
  exact h.1.1.1.2

theorem cfg_uart (h : configValid s.cfg = true) {p : Idx} (hp : p.val < s.cfg.nUart) : UartOk s.cfg (s.portCfg p) := by
  simp only [configValid, Bool.and_eq_true, decide_eq_true_eq] at h
  exact h.1.1.2 p hp

theorem cfg_chan (h : configValid s.cfg = true) {c : Idx} (hc : c.val < s.cfg.nCh) : ChanOk s.cfg c (s.chanCfg c) := by
  simp only [configValid, Bool.and_eq_true, decide_eq_true_eq] at h
  exact h.1.2 c hc

theorem cfg_i2c (h : configValid s.cfg = true) {q : Idx} (hq : q.val < s.cfg.nI2c) : I2cOk s.cfg (s.i2cCfg q) := by
  simp only [configValid, Bool.and_eq_true, decide_eq_true_eq] at h
  exact h.2 q hq

/-- Every capacity is 1 to 65535 (R7, R11 to R13). -/
theorem cap_bounds (hc : configValid s.cfg = true) {b : Buf} (hb : b.present s.cfg) : CapOk (s.cap b) := by
  cases b with
  | stg => exact (cfg_counts hc).2.2.2
  | uartRx p => exact (cfg_uart hc hb).1
  | uartTx p => exact (cfg_uart hc hb).2.2.2.1
  | i2cRx p => exact (cfg_i2c hc hb).2.1
  | i2cTx p => exact (cfg_i2c hc hb).1
  | chBuf p => exact (cfg_chan hc hb).1

/-- The buffer that a legal BUF_SEL names exists (R105). -/
theorem sel_present {w : Word} {cfg : Config} {b : Buf} (h : sel w = some b)
    (hp : (selIdx w).val < selCount cfg (selKind w)) : b.present cfg := by
  unfold sel at h
  split at h <;> rename_i hk <;> simp only [hk, selCount] at hp <;> cases h <;> exact hp

/-- A counter below a capacity does not wrap when it advances. -/
theorem toNat_succ {p : Word} {n : Nat} (h : p.toNat < n) (hn : n ≤ 65535) : (p + 1).toNat = p.toNat + 1 := by
  have hp : p.toNat + 1 < 2 ^ 16 := by omega
  exact (BitVec.toNat_add p 1).trans (Nat.mod_eq_of_lt hp)

theorem toNat_pos {w : Word} : 0 < w.toNat ↔ w ≠ 0 := by
  rw [Nat.pos_iff_ne_zero]
  exact not_congr ⟨fun h => BitVec.eq_of_toNat_eq (by simpa using h), fun h => by simp [h]⟩

theorem sub_one_eq_zero {w : Word} : w - 1 = 0 ↔ w = 1 :=
  ⟨fun h => (BitVec.sub_eq_iff_eq_add.1 h).trans (BitVec.zero_add 1), fun h => by rw [h]; rfl⟩

end Sys2Proof.Machine
end

