-- ==== Sys2Proof/Laws/Decode.lean ====
section
/-! SUPPORT. The fields of an encoded word. -/

namespace Sys2Proof

/-- The low field of a concatenation. -/
theorem field_append_low {m n : Nat} (a : BitVec m) (b : BitVec n) : field (a ++ b) 0 n = b := by
  apply BitVec.eq_of_getLsbD_eq
  intro i hi
  simp [field, hi, BitVec.getLsbD_append]

/-- A field of a concatenation that lies above its low part. -/
theorem field_append_high {m n : Nat} (a : BitVec m) (b : BitVec n) (lo len : Nat) :
    field (a ++ b) (n + lo) len = field a lo len := by
  apply BitVec.eq_of_getLsbD_eq
  intro i hi
  simp [field, hi, BitVec.getLsbD_append, show ¬ n + lo + i < n by omega, show n + lo + i - n = lo + i by omega]

theorem field_toNat {n : Nat} (w : BitVec n) (lo len : Nat) : (field w lo len).toNat = w.toNat / 2 ^ lo % 2 ^ len := by
  simp only [field, BitVec.extractLsb'_toNat, Nat.shiftRight_eq_div_pow]

/-- A word is its fields (R87). -/
theorem word_fields (w : Word) : field w 12 4 ++ field w 8 4 ++ field w 4 4 ++ field w 0 4 = w := by
  apply BitVec.eq_of_getLsbD_eq
  intro i hi
  interval_cases i <;> simp only [field, BitVec.getLsbD_append, BitVec.getLsbD_extractLsb'] <;> simp

/-- A command word with zero low bits is rebuilt from its fields (R87). -/
theorem cmdWord_fields {w : Word} (h : field w 0 4 = 0) : cmdWord (field w 12 4) (field w 8 4) (idxAt w 4) = w := by
  conv_rhs => rw [← word_fields w, h]
  rfl

/-- An event or step word is rebuilt from its fields (R94, R95). -/
theorem evtWord_fields (w : Word) : evtWord (field w 12 4) (idxAt w 8) (field w 0 8) = w := by
  have h : evtWord (field w 12 4) (idxAt w 8) (field w 0 8) = field w 12 4 ++ field w 8 4 ++ field w 0 8 := rfl
  rw [h]
  apply BitVec.eq_of_getLsbD_eq
  intro i hi
  interval_cases i <;> simp only [field, BitVec.getLsbD_append, BitVec.getLsbD_extractLsb'] <;> simp

theorem idxAt_cmdWord (u o : BitVec 4) (i : Idx) : idxAt (cmdWord u o i) 4 = i := by
  have h := field_append_high (u ++ o ++ BitVec.ofFin (w := 4) i) 0#4 0 4
  have h' := field_append_low (u ++ o) (BitVec.ofFin (w := 4) i)
  exact congrArg BitVec.toFin (h.trans h')

theorem field_evtWord_kind (k : BitVec 4) (i : Idx) (d : Byte) : field (evtWord k i d) 12 4 = k := by
  have h := field_append_high (k ++ BitVec.ofFin (w := 4) i) d 4 4
  have h' := field_append_high k (BitVec.ofFin (w := 4) i) 0 4
  refine h.trans (h'.trans ?_)
  apply BitVec.eq_of_getLsbD_eq
  intro j hj
  simp [field, hj]

theorem idxAt_evtWord (k : BitVec 4) (i : Idx) (d : Byte) : idxAt (evtWord k i d) 8 = i := by
  have h := field_append_high (k ++ BitVec.ofFin (w := 4) i) d 0 4
  have h' := field_append_low k (BitVec.ofFin (w := 4) i)
  exact congrArg BitVec.toFin (h.trans h')

theorem field_evtWord_data (k : BitVec 4) (i : Idx) (d : Byte) : field (evtWord k i d) 0 8 = d :=
  field_append_low (k ++ BitVec.ofFin (w := 4) i) d

end Sys2Proof
end

