-- ==== Sys2Proof/Laws/Inv.lean ====
section
/-! SUPPORT. The invariant under each named update: what an update must show of the part it writes. -/

namespace Sys2Proof.Machine

variable {s : State}

/-! ## The buffers after a record update -/

theorem mem_setChan (s : State) (c : Idx) (x : Channel) (b : Buf) :
    (s.setChan c x).mem b = if b = .chBuf c then x.buf else s.mem b := by
  cases b with
  | chBuf d =>
    by_cases h : c = d
    · simp [State.mem, h]
    · simp [State.mem, h, Ne.symm h]
  | _ => rfl

theorem mem_setPort (s : State) (p : Idx) (u : UartPort) (b : Buf) :
    (s.setPort p u).mem b = if b = .uartRx p then u.rxBuf else if b = .uartTx p then u.txBuf else s.mem b := by
  cases b with
  | uartRx d =>
    by_cases h : p = d
    · simp [State.mem, h]
    · simp [State.mem, h, Ne.symm h]
  | uartTx d =>
    by_cases h : p = d
    · simp [State.mem, h]
    · simp [State.mem, h, Ne.symm h]
  | _ => rfl

theorem mem_setI2c (s : State) (q : Idx) (x : I2cPort) (b : Buf) :
    (s.setI2c q x).mem b = if b = .i2cRx q then x.rxData else if b = .i2cTx q then x.txData else s.mem b := by
  cases b with
  | i2cRx d =>
    by_cases h : q = d
    · simp [State.mem, h]
    · simp [State.mem, h, Ne.symm h]
  | i2cTx d =>
    by_cases h : q = d
    · simp [State.mem, h]
    · simp [State.mem, h, Ne.symm h]
  | _ => rfl

/-! ## A buffer that one operation rewrites -/

/-- What `CellsInv` asks of one buffer of capacity `cap`. -/
abbrev BufOk (cap : Nat) (m : Mem) : Prop := m.wf ∧ ∀ x ∈ m, x.1 < cap

theorem bufOk_put {cap : Nat} {m : Mem} (h : BufOk cap m) {a : Nat} (ha : a < cap) (v : Byte) :
    BufOk cap (Mem.put m a v) :=
  ⟨Mem.wf_put h.1 a v, fun x hx => (Mem.mem_put hx).elim (fun e => by simpa [e] using ha) (h.2 x)⟩

theorem bufOk_write {cap : Nat} {m : Mem} (h : BufOk cap m) {a : Nat} (ha : a < cap) (v : Option Byte) :
    BufOk cap (Mem.write m a v) :=
  ⟨Mem.wf_write h.1 a v, fun x hx => (Mem.mem_write hx).elim (fun e => by simpa [e] using ha) (h.2 x)⟩

theorem bufOk_copy {cap n : Nat} {m : Mem} (src : Mem) (h : BufOk cap m) (hn : n ≤ cap) :
    BufOk cap (Mem.copy src n m) :=
  ⟨Mem.wf_copy src h.1 n, fun x hx => (Mem.mem_copy hx).elim (fun e => Nat.lt_of_lt_of_le e hn) (h.2 x)⟩

theorem bufOk_fill {cap n : Nat} {m : Mem} (v : Byte) (h : BufOk cap m) (hn : n ≤ cap) : BufOk cap (Mem.fill v n m) :=
  ⟨Mem.wf_fill v h.1 n, fun x hx => (Mem.mem_fill hx).elim (fun e => Nat.lt_of_lt_of_le e hn) (h.2 x)⟩

theorem CellsInv.bufOk (h : CellsInv s) {b : Buf} (hb : b.present s.cfg) : BufOk (s.cap b) (s.mem b) :=
  ⟨h.wf b, h.inside b hb⟩

/-! ## The invariant under the named updates -/

/-- The fields no part of the invariant reads. -/
theorem Inv.irrelevant (h : Inv s) (cmd result rdata : Word) (fault : Option Fault) (refused : Option Refusal)
    (extOut : List (Idx × Byte)) (pending : List Entry) (draws : Nat) :
    Inv { s with
      cmd := cmd, result := result, rdata := rdata, fault := fault, refused := refused, extOut := extOut,
      pending := pending, draws := draws } :=
  ⟨⟨h.cells.wf, h.cells.inside⟩, h.chan, h.uart, h.i2c,
    ⟨h.window.stgPtr_le, h.window.bufSel_legal, h.window.bufSel_present, h.window.bufPtr_le⟩, h.wait⟩

theorem Inv.setResult (h : Inv s) (w : Word) : Inv (s.setResult w) := h.irrelevant ..

theorem Inv.setWait (h : Inv s) {w : HostWait} (hw : WaitInv (s.setWait w)) : Inv (s.setWait w) :=
  ⟨⟨h.cells.wf, h.cells.inside⟩, h.chan, h.uart, h.i2c,
    ⟨h.window.stgPtr_le, h.window.bufSel_legal, h.window.bufSel_present, h.window.bufPtr_le⟩, hw⟩

theorem Inv.setBufPtr (h : Inv s) {w : Word} (hw : ∀ b, sel s.bufSel = some b → w.toNat ≤ s.cap b) :
    Inv (s.setBufPtr w) :=
  ⟨⟨h.cells.wf, h.cells.inside⟩, h.chan, h.uart, h.i2c,
    ⟨h.window.stgPtr_le, h.window.bufSel_legal, h.window.bufSel_present, hw⟩, h.wait⟩

theorem Inv.setChan (h : Inv s) {c : Idx} {x : Channel} (hx : c.val < s.cfg.nCh → ChanInv (s.chanCfg c) x)
    (hw : x.buf.wf) (hb : c.val < s.cfg.nCh → ∀ y ∈ x.buf, y.1 < (s.chanCfg c).bufCap) : Inv (s.setChan c x) := by
  refine ⟨⟨fun b => ?_, fun b hp y hy => ?_⟩, fun d hd => ?_, h.uart, h.i2c,
    ⟨h.window.stgPtr_le, h.window.bufSel_legal, h.window.bufSel_present, fun b hb => ?_⟩, h.wait⟩
  · rw [mem_setChan]
    split
    · exact hw
    · exact h.cells.wf b
  · rw [State.cap_setChan]
    rw [mem_setChan] at hy
    split at hy
    next e =>
      subst e
      exact hb hp y hy
    next => exact h.cells.inside b hp y hy
  · simp only [State.chan_setChan, State.chanCfg_setChan]
    split
    next e =>
      subst e
      exact hx hd
    next => exact h.chan d hd
  · rw [State.cap_setChan]
    exact h.window.bufPtr_le b hb

theorem Inv.setPort (h : Inv s) {p : Idx} {u : UartPort} (hu : p.val < s.cfg.nUart → UartInv (s.portCfg p) u)
    (hr : u.rxBuf.wf) (ht : u.txBuf.wf) (hrb : p.val < s.cfg.nUart → ∀ y ∈ u.rxBuf, y.1 < (s.portCfg p).rxCap)
    (htb : p.val < s.cfg.nUart → ∀ y ∈ u.txBuf, y.1 < (s.portCfg p).txCap) : Inv (s.setPort p u) := by
  refine ⟨⟨fun b => ?_, fun b hp y hy => ?_⟩, h.chan, fun d hd => ?_, h.i2c,
    ⟨h.window.stgPtr_le, h.window.bufSel_legal, h.window.bufSel_present, fun b hb => ?_⟩, h.wait⟩
  · rw [mem_setPort]
    split
    · exact hr
    · split
      · exact ht
      · exact h.cells.wf b
  · rw [State.cap_setPort]
    rw [mem_setPort] at hy
    split at hy
    next e =>
      subst e
      exact hrb hp y hy
    next =>
      split at hy
      next e =>
        subst e
        exact htb hp y hy
      next => exact h.cells.inside b hp y hy
  · simp only [State.port_setPort, State.portCfg_setPort]
    split
    next e =>
      subst e
      exact hu hd
    next => exact h.uart d hd
  · rw [State.cap_setPort]
    exact h.window.bufPtr_le b hb

theorem Inv.setI2c (h : Inv s) {q : Idx} {x : I2cPort} (hx : q.val < s.cfg.nI2c → I2cInv (s.i2cCfg q) x)
    (hr : x.rxData.wf) (ht : x.txData.wf) (hrb : q.val < s.cfg.nI2c → ∀ y ∈ x.rxData, y.1 < (s.i2cCfg q).rxCap)
    (htb : q.val < s.cfg.nI2c → ∀ y ∈ x.txData, y.1 < (s.i2cCfg q).txCap) : Inv (s.setI2c q x) := by
  refine ⟨⟨fun b => ?_, fun b hp y hy => ?_⟩, h.chan, h.uart, fun d hd => ?_,
    ⟨h.window.stgPtr_le, h.window.bufSel_legal, h.window.bufSel_present, fun b hb => ?_⟩, h.wait⟩
  · rw [mem_setI2c]
    split
    · exact hr
    · split
      · exact ht
      · exact h.cells.wf b
  · rw [State.cap_setI2c]
    rw [mem_setI2c] at hy
    split at hy
    next e =>
      subst e
      exact hrb hp y hy
    next =>
      split at hy
      next e =>
        subst e
        exact htb hp y hy
      next => exact h.cells.inside b hp y hy
  · simp only [State.i2cp_setI2c, State.i2cCfg_setI2c]
    split
    next e =>
      subst e
      exact hx hd
    next => exact h.i2c d hd
  · rw [State.cap_setI2c]
    exact h.window.bufPtr_le b hb

end Sys2Proof.Machine
end

