-- ==== Sys2Proof/Laws/Frames.lean ====
section
/-! SUPPORT. What the named updates leave unchanged, in the words of the statements. -/

namespace Sys2Proof.Machine

variable {s t u : State}

theorem Answers.of_next {P : State → Prop} (h : P t) : Answers (.next t) P := ⟨t, rfl, h⟩

/-- The buffers lie in STG and in the records of the instances. -/
theorem State.mem_congr (hs : t.stg = s.stg) (hc : t.ch = s.ch) (hu : t.uart = s.uart) (hi : t.i2c = s.i2c) (b : Buf) :
    t.mem b = s.mem b := by
  cases b <;> simp only [State.mem, State.chan, State.port, State.i2cp, hs, hc, hu, hi]

theorem SameCells.of_mem (h : ∀ b, t.mem b = s.mem b) : SameCells s t := fun b a => by rw [h]

theorem SameCells.trans (h : SameCells s t) (h' : SameCells t u) : SameCells s u := fun b a => (h' b a).trans (h b a)

theorem SameCells.setChan (h : SameCells s t) {c : Idx} {x : Channel} (hb : x.buf = (t.chan c).buf) :
    SameCells s (t.setChan c x) := fun b a => by
  rw [mem_setChan]
  split
  next e =>
    subst e
    rw [hb]
    exact h (.chBuf c) a
  · exact h b a

theorem SameCells.setPort (h : SameCells s t) {p : Idx} {x : UartPort} (hr : x.rxBuf = (t.port p).rxBuf)
    (ht : x.txBuf = (t.port p).txBuf) : SameCells s (t.setPort p x) := fun b a => by
  rw [mem_setPort]
  split
  next e =>
    subst e
    rw [hr]
    exact h (.uartRx p) a
  · split
    next e =>
      subst e
      rw [ht]
      exact h (.uartTx p) a
    · exact h b a

theorem SameCells.setI2c (h : SameCells s t) {q : Idx} {x : I2cPort} (hr : x.rxData = (t.i2cp q).rxData)
    (ht : x.txData = (t.i2cp q).txData) : SameCells s (t.setI2c q x) := fun b a => by
  rw [mem_setI2c]
  split
  next e =>
    subst e
    rw [hr]
    exact h (.i2cRx q) a
  · split
    next e =>
      subst e
      rw [ht]
      exact h (.i2cTx q) a
    · exact h b a

theorem OnlyChan.setChan (s : State) (c : Idx) (x : Channel) : OnlyChan c s (s.setChan c x) :=
  ⟨rfl, fun d hd => by simp only [State.chan_setChan, Ne.symm hd, if_false]⟩

theorem OnlyPort.setPort (s : State) (p : Idx) (x : UartPort) : OnlyPort p s (s.setPort p x) :=
  ⟨rfl, fun d hd => by simp only [State.port_setPort, Ne.symm hd, if_false]⟩

theorem OnlyI2c.setI2c (s : State) (q : Idx) (x : I2cPort) : OnlyI2c q s (s.setI2c q x) :=
  ⟨rfl, fun d hd => by simp only [State.i2cp_setI2c, Ne.symm hd, if_false]⟩

end Sys2Proof.Machine
end

