-- ==== Sys2Proof/Laws/PerInstr.lean ====
section
/-! SUPPORT. Per instruction: the decoder reads the encoder's entry as that instruction. -/

namespace Sys2Proof.Laws.RoundTrip

/-- The decoder takes the entry that encodes `i` for `i`, every operand included (30_encoding.md R86 to R95). -/
def Statement (i : Instr) : Prop := decode (encode i) = .ok i

theorem rdCmd : Statement .rdCmd := rfl
theorem rdArg0 : Statement .rdArg0 := rfl
theorem rdArg1 : Statement .rdArg1 := rfl
theorem rdResult : Statement .rdResult := rfl
theorem rdStgPtr : Statement .rdStgPtr := rfl
theorem rdStgData : Statement .rdStgData := rfl
theorem rdBufSel : Statement .rdBufSel := rfl
theorem rdBufPtr : Statement .rdBufPtr := rfl
theorem rdBufData : Statement .rdBufData := rfl
theorem wrCmd (d : Word) : Statement (.wrCmd d) := rfl
theorem wrArg0 (d : Word) : Statement (.wrArg0 d) := rfl
theorem wrArg1 (d : Word) : Statement (.wrArg1 d) := rfl
theorem wrStgPtr (d : Word) : Statement (.wrStgPtr d) := rfl
theorem wrStgData (d : Word) : Statement (.wrStgData d) := rfl
theorem wrBufSel (d : Word) : Statement (.wrBufSel d) := rfl
theorem wrBufPtr (d : Word) : Statement (.wrBufPtr d) := rfl
theorem wrBufData (d : Word) : Statement (.wrBufData d) := rfl
theorem wrResult (d : Word) : Statement (.wrResult d) := rfl
theorem rdChstat (i : Idx) : Statement (.rdChstat i) := by
  fin_cases i <;> exact rfl
theorem rdChcnt (i : Idx) : Statement (.rdChcnt i) := by
  fin_cases i <;> exact rfl
theorem rdChrem (i : Idx) : Statement (.rdChrem i) := by
  fin_cases i <;> exact rfl
theorem rdUstat (i : Idx) : Statement (.rdUstat i) := by
  fin_cases i <;> exact rfl
theorem rdUrxcnt (i : Idx) : Statement (.rdUrxcnt i) := by
  fin_cases i <;> exact rfl
theorem rdUtxcnt (i : Idx) : Statement (.rdUtxcnt i) := by
  fin_cases i <;> exact rfl
theorem rdUtxlen (i : Idx) : Statement (.rdUtxlen i) := by
  fin_cases i <;> exact rfl
theorem rdIstat (i : Idx) : Statement (.rdIstat i) := by
  fin_cases i <;> exact rfl
theorem rdItxcnt (i : Idx) : Statement (.rdItxcnt i) := by
  fin_cases i <;> exact rfl
theorem rdIrxcnt (i : Idx) : Statement (.rdIrxcnt i) := by
  fin_cases i <;> exact rfl
theorem rdIwlen (i : Idx) : Statement (.rdIwlen i) := by
  fin_cases i <;> exact rfl
theorem rdIrlen (i : Idx) : Statement (.rdIrlen i) := by
  fin_cases i <;> exact rfl
theorem wrChstat (i : Idx) (d : Word) : Statement (.wrChstat i d) := by
  fin_cases i <;> exact rfl
theorem wrChcnt (i : Idx) (d : Word) : Statement (.wrChcnt i d) := by
  fin_cases i <;> exact rfl
theorem wrChrem (i : Idx) (d : Word) : Statement (.wrChrem i d) := by
  fin_cases i <;> exact rfl
theorem wrUstat (i : Idx) (d : Word) : Statement (.wrUstat i d) := by
  fin_cases i <;> exact rfl
theorem wrUrxcnt (i : Idx) (d : Word) : Statement (.wrUrxcnt i d) := by
  fin_cases i <;> exact rfl
theorem wrUtxcnt (i : Idx) (d : Word) : Statement (.wrUtxcnt i d) := by
  fin_cases i <;> exact rfl
theorem wrUtxlen (i : Idx) (d : Word) : Statement (.wrUtxlen i d) := by
  fin_cases i <;> exact rfl
theorem wrIstat (i : Idx) (d : Word) : Statement (.wrIstat i d) := by
  fin_cases i <;> exact rfl
theorem wrItxcnt (i : Idx) (d : Word) : Statement (.wrItxcnt i d) := by
  fin_cases i <;> exact rfl
theorem wrIrxcnt (i : Idx) (d : Word) : Statement (.wrIrxcnt i d) := by
  fin_cases i <;> exact rfl
theorem wrIwlen (i : Idx) (d : Word) : Statement (.wrIwlen i d) := by
  fin_cases i <;> exact rfl
theorem wrIrlen (i : Idx) (d : Word) : Statement (.wrIrlen i d) := by
  fin_cases i <;> exact rfl
theorem rsv09 (d : Option Word) : Statement (.rsv09 d) := by
  cases d <;> exact rfl
theorem rsv0A (b : BitVec 1) (d : Option Word) : Statement (.rsv0A b d) := by
  obtain ⟨b⟩ := b
  fin_cases b <;> cases d <;> exact rfl
theorem rsv0C (b : BitVec 2) (d : Option Word) : Statement (.rsv0C b d) := by
  obtain ⟨b⟩ := b
  fin_cases b <;> cases d <;> exact rfl
theorem rsvD0 (b : BitVec 4) (d : Option Word) : Statement (.rsvD0 b d) := by
  obtain ⟨b⟩ := b
  fin_cases b <;> cases d <;> exact rfl
theorem rsvE0 (b : BitVec 5) (d : Option Word) : Statement (.rsvE0 b d) := by
  obtain ⟨b⟩ := b
  fin_cases b <;> cases d <;> exact rfl
theorem nop : Statement .nop := rfl
theorem chAcquire (c : Idx) : Statement (.chAcquire c) := by
  fin_cases c <;> exact rfl
theorem chEnable (c : Idx) : Statement (.chEnable c) := by
  fin_cases c <;> exact rfl
theorem chDisable (c : Idx) : Statement (.chDisable c) := by
  fin_cases c <;> exact rfl
theorem chForce (c : Idx) : Statement (.chForce c) := by
  fin_cases c <;> exact rfl
theorem chPoll (c : Idx) : Statement (.chPoll c) := by
  fin_cases c <;> exact rfl
theorem chSetcnt (c : Idx) : Statement (.chSetcnt c) := by
  fin_cases c <;> exact rfl
theorem uartFill (p : Idx) : Statement (.uartFill p) := by
  fin_cases p <;> exact rfl
theorem uartStart (p : Idx) : Statement (.uartStart p) := by
  fin_cases p <;> exact rfl
theorem uartSendDma (p : Idx) : Statement (.uartSendDma p) := by
  fin_cases p <;> exact rfl
theorem uartRxReady (p : Idx) : Statement (.uartRxReady p) := by
  fin_cases p <;> exact rfl
theorem uartTxReady (p : Idx) : Statement (.uartTxReady p) := by
  fin_cases p <;> exact rfl
theorem uartClearRx (p : Idx) : Statement (.uartClearRx p) := by
  fin_cases p <;> exact rfl
theorem i2cWrite (q : Idx) : Statement (.i2cWrite q) := by
  fin_cases q <;> exact rfl
theorem i2cRead (q : Idx) : Statement (.i2cRead q) := by
  fin_cases q <;> exact rfl
theorem i2cProbe (q : Idx) : Statement (.i2cProbe q) := by
  fin_cases q <;> exact rfl
theorem evRxb (p : Idx) (b : Byte) : Statement (.evRxb p b) := by
  simp [Statement, encode, decode, decodeEvt, field_evtWord_kind, idxAt_evtWord, field_evtWord_data]
theorem evRxfe (p : Idx) (x : Byte) : Statement (.evRxfe p x) := by
  simp [Statement, encode, decode, decodeEvt, field_evtWord_kind, idxAt_evtWord, field_evtWord_data]
theorem evTxld (p : Idx) (x : Byte) : Statement (.evTxld p x) := by
  simp [Statement, encode, decode, decodeEvt, field_evtWord_kind, idxAt_evtWord, field_evtWord_data]
theorem evTxsh (p : Idx) (x : Byte) : Statement (.evTxsh p x) := by
  simp [Statement, encode, decode, decodeEvt, field_evtWord_kind, idxAt_evtWord, field_evtWord_data]
theorem evChrq (c : Idx) (x : Byte) : Statement (.evChrq c x) := by
  simp [Statement, encode, decode, decodeEvt, field_evtWord_kind, idxAt_evtWord, field_evtWord_data]
theorem evI2cd (q : Idx) (d : Byte) : Statement (.evI2cd q d) := by
  simp [Statement, encode, decode, decodeEvt, field_evtWord_kind, idxAt_evtWord, field_evtWord_data]
theorem stRxsv (p : Idx) : Statement (.stRxsv p) := by
  fin_cases p <;> exact rfl
theorem stRxer (p : Idx) : Statement (.stRxer p) := by
  fin_cases p <;> exact rfl
theorem stTxsv (p : Idx) : Statement (.stTxsv p) := by
  fin_cases p <;> exact rfl
theorem stXfer (c : Idx) : Statement (.stXfer c) := by
  fin_cases c <;> exact rfl
theorem stChcp (c : Idx) : Statement (.stChcp c) := by
  fin_cases c <;> exact rfl
theorem stI2sv (q : Idx) : Statement (.stI2sv q) := by
  fin_cases q <;> exact rfl
theorem stHcont : Statement .stHcont := rfl

end Sys2Proof.Laws.RoundTrip
end

