-- ==== Sys2Proof/Tests/Slice0.lean ====
section
/-! SUPPORT. Tests. Every expected value is taken from the rules, tables or vectors of spec/ (named at the test); none is
copied from a run of the model. A `witness` theorem shows that the hypotheses of a statement can be met. -/

namespace Sys2Proof.Tests

open Sys2Proof.Machine

/-! ## Small states -/

/-- The state an outcome holds. -/
def out (o : Result) : State :=
  match o with
  | .next t => t
  | .fault _ | .refused _ => State.reset

/-- CFG-H of 95_test_vectors.md: CFG-A with a half-duplex port. -/
def cfgH : Config := { Config.cfgA with uart := Vector.replicate 16 ⟨8, 5, 4, 4, 1, true, some 0⟩ }

/-- CFG-N of 95_test_vectors.md: CFG-A without a DMA binding. -/
def cfgN : Config :=
  { Config.cfgA with
    uart := Vector.replicate 16 ⟨8, 5, 4, 4, 1, false, none⟩
    chan := (Vector.replicate 16 ⟨4, false, .external⟩).set 0 ⟨8, true, .external⟩ }

/-- After reset, with a record of its own for channel 0, port 0 or I2C port 0. -/
def withChan (x : Channel) : State := State.reset.setChan 0 x
def withPort (u : UartPort) : State := State.reset.setPort 0 u
def withI2c (x : I2cPort) : State := State.reset.setI2c 0 x

/-- A channel with a block of two bytes to move and a forced request. -/
def running : Channel :=
  { Channel.reset with state := .enabled, xfer := .inProgress, ie := true, cnt := 1, rem := 2, fpend := true,
                       buf := [(0, 0x41), (1, 0x42)] }

/-- A port that sends two bytes. -/
def sending : UartPort := { UartPort.reset with txBuf := [(0, 0x55), (1, 0xAA)], txLength := 2, txIe := true }

/-- A port that has received three bytes of a frame and holds two more. -/
def receiving : UartPort :=
  { UartPort.reset with rxBuf := [(0, 1), (1, 2), (2, 3)], rxCounter := 3, rxq := [0xA0, 0xB0] }

/-- An I2C port in a read of one address byte and two bytes, at `phase`, its bus operation complete. -/
def inRead (phase : BitVec 3) (tx rx : Word) : I2cPort :=
  { I2cPort.reset with
    txData := [(0, 0x90)], writeLength := 1, readLength := 2, mode := .read, busy := true, ie := true, mif := true,
    phase := phase, txCounter := tx, rxCounter := rx, rcv := some 0x11 }

/-- An I2C port just armed for a read. -/
def armedRead : I2cPort := { inRead 0 0 0 with mif := false, bop := .start, rcv := none }

/-- An I2C port just armed for a write of two bytes. -/
def armedWrite : I2cPort :=
  { I2cPort.reset with
    txData := [(0, 0x90), (1, 0x01)], writeLength := 2, busy := true, ie := true, bop := .start }

/-! ## Parameters (R5 to R13, R193) -/

theorem test_cfgA_valid : configValid Config.cfgA = true := by decide
theorem test_cfgH_valid : configValid cfgH = true := by decide
theorem test_cfgN_valid : configValid cfgN = true := by decide

/-- A UART-bound channel that is not FORCE_CAPABLE is refused (90_conflicts.md C9). -/
theorem test_bound_channel_must_be_forceable :
    configValid { Config.cfgA with chan := Vector.replicate 16 ⟨4, false, .uartTx 0⟩ } = false := by decide

/-- RX_LEN must not exceed RX_CAP (R7). -/
theorem test_frame_longer_than_buffer :
    configValid { cfgN with uart := Vector.replicate 16 ⟨8, 9, 4, 4, 1, false, none⟩ } = false := by decide

/-! ## Decoding: words written out from 30_encoding.md -/

/-- R86: W = 1, ADDR 0x05. -/
theorem test_decode_bus_write : decode (.bus 0b1_0000_0101 0x01A2) = .ok (.wrStgData 0x01A2) := by decide
/-- R86, R24: W = 0, ADDR 0x40 + 3. -/
theorem test_decode_bus_view : decode (.bus 0b0_0100_0011 0) = .ok (.rdUstat 3) := by decide
/-- R46: ADDR 0x0B, 0x0F, 0xD5 and 0xFF are reserved. -/
theorem test_decode_bus_reserved : [0x00B, 0x00F, 0x0D5, 0x0FF].map (fun a => decode (.bus a 0)) =
    [.ok (.rsv0A 1 none), .ok (.rsv0C 3 none), .ok (.rsvD0 5 none), .ok (.rsvE0 0x1F none)] := by decide
/-- R89: UNIT 1, OP 1, IDX 3. -/
theorem test_decode_channel_command : decode (.cmd 0b0001_0001_0011_0000) = .ok (.chEnable 3) := by decide
/-- R90: UNIT 2, OP 5, IDX 15. -/
theorem test_decode_uart_command : decode (.cmd 0b0010_0101_1111_0000) = .ok (.uartClearRx 15) := by decide
/-- R91: UNIT 3, OP 2, IDX 1. -/
theorem test_decode_i2c_command : decode (.cmd 0b0011_0010_0001_0000) = .ok (.i2cProbe 1) := by decide
/-- R92 -/
theorem test_decode_nop : decode (.cmd 0) = .ok .nop := by decide
/-- R94: KIND 1, IDX 2, DATA 0xA2. -/
theorem test_decode_event : decode (.evt 0b0001_0010_1010_0010) = .ok (.evRxb 2 0xA2) := by decide
/-- R95: KIND 4, IDX 5. -/
theorem test_decode_step : decode (.step 0b0100_0101_0000_0000) = .ok (.stXfer 5) := by decide
/-- R96: the same number is an event or a step by its form (95_test_vectors.md P1, line 3). -/
theorem test_form_decides : decode (.evt 0x1000) = .ok (.evRxb 0 0) ∧ decode (.step 0x1000) = .ok (.stRxsv 0) := by decide
/-- R93 to R95: words that name nothing, each by its reason. -/
theorem test_decode_rejects : [decode (.cmd 0x1601), decode (.cmd 0x1600), decode (.cmd 0x0010), decode (.cmd 0x4000),
    decode (.evt 0x0000), decode (.evt 0x7000), decode (.step 0x1001), decode (.step 0x8000), decode (.step 0x7100)] =
    [.error .reservedCommand, .error .reservedCommand, .error .reservedCommand, .error .reservedCommand,
     .error .eventKind, .error .eventKind, .error .stepLowByte, .error .stepKind, .error .hcontIdx] := by decide
/-- The host's words: a write of BUF_SEL, a command, an event. -/
theorem test_decodeTableWord : decodeTableWord 32 0x00100106 = some (.wrBufSel 0x0010) ∧
    decodeTableWord 16 0x1130 = some (.chEnable 3) ∧ decodeTableWord 16 0x60A5 = some (.evI2cd 0 0xA5) := by decide

/-! ## Well-formed instructions: one ill-formed term for each check (CFG-A has 2 channels, 1 port, 1 I2C port) -/

theorem test_ill_formed : [Instr.evRxb 1 0, .evRxfe 1 0, .evTxld 1 0, .evTxsh 1 0, .evChrq 2 0, .evI2cd 1 0, .stRxsv 1,
    .stRxer 1, .stTxsv 1, .stXfer 2, .stChcp 2, .stI2sv 1].map (Instr.wellFormed Config.cfgA) = List.replicate 12 false := by
  decide
theorem test_well_formed : [Instr.evRxb 0 0, .evChrq 1 0, .stXfer 1, .stHcont, .chEnable 7, .rdUstat 15].map
    (Instr.wellFormed Config.cfgA) = List.replicate 6 true := by decide

/-! ## Host accesses (95_test_vectors.md 2.1) -/

/-- R101's example and R100's: RD ARG0 after WR ARG0. -/
theorem test_arg0 : (out (exec .rdArg0 (out (exec (.wrArg0 0x0105) State.reset)))).rdata = 0x0105 := by decide
/-- V-H3 -/
theorem test_stgPtr_range : (out (exec (.wrStgPtr 9) State.reset)).refused = some .pointerRange ∧
    (out (exec (.wrStgPtr 8) State.reset)).stgPtr = 8 := by decide
/-- V-H1 -/
theorem test_staging : let t := out (exec (.wrStgData 0x1A2) State.reset)
    t.stg = [(0, 0xA2)] ∧ t.stgPtr = 1 ∧ (out (exec .rdStgData { t with stgPtr := 0 })).rdata = 0x00A2 := by decide
/-- V-H2, V-H4, V-H5 -/
theorem test_staging_ends : (out (exec .rdStgData State.reset)).fault = some (.unwrittenRead .stg 0) ∧
    exec (.wrStgData 0x11) { State.reset with stgPtr := 8 } = .next { State.reset with stgPtr := 8 } ∧
    (out (exec .rdStgData { State.reset with stgPtr := 8 })).refused = some .readPastEnd := by
  refine ⟨by decide, rfl, by decide⟩
/-- V-H6, V-H7 and R105's example with an instance that exists -/
theorem test_bufSel : (out (exec (.wrBufSel 0x0005) State.reset)).refused = some .reservedBits ∧
    (out (exec (.wrBufSel 0x0010) State.reset)).refused = some .indexRange ∧
    (out (exec (.wrBufSel 0x0014) { State.reset with bufPtr := 3 })).bufSel = 0x0014 ∧
    (out (exec (.wrBufSel 0x0014) { State.reset with bufPtr := 3 })).bufPtr = 0 := by decide
/-- V-H8 -/
theorem test_bufData : let t := out (exec (.wrBufData 0x41) { State.reset with bufSel := 0x0004 })
    (t.chan 0).buf = [(0, 0x41)] ∧ t.bufPtr = 1 ∧ (out (exec .rdBufData { t with bufPtr := 0 })).rdata = 0x0041 := by decide
/-- V-H9, R106 at the capacity -/
theorem test_bufData_refusals : (out (exec (.wrBufData 1) State.reset)).refused = some .bufWriteKind ∧
    (out (exec (.wrBufPtr 9) State.reset)).refused = some .pointerRange ∧
    (out (exec (.wrBufPtr 8) State.reset)).bufPtr = 8 := by decide
/-- V-H10, V-H11 -/
theorem test_refused_accesses : (out (exec (.wrResult 1) State.reset)).refused = some .readOnlyWrite ∧
    (out (exec (.rsv0A 0 none) State.reset)).refused = some .unmappedRegister := by decide
/-- V-H12, V-H13, V-R1 -/
theorem test_ustat : (out (exec (.rdUstat 0) State.reset)).rdata = 0x0010 ∧
    (out (exec (.rdUstat 1) State.reset)).rdata = 0 ∧
    (out (exec (.rdUstat 0) (withPort { UartPort.reset with rxq := [0x31] }))).rdata = 0x0030 := by decide
/-- 95_test_vectors.md P4, line 28: PHASE 2, ACKSTAT 1 -/
theorem test_istat : (out (exec (.rdIstat 0) (withI2c { I2cPort.reset with phase := 2, ackstat := true }))).rdata = 0x0042 := by
  decide
/-- V-H14, V-H16 -/
theorem test_reserved_command : let t := out (exec (.wrCmd 0x0001) State.reset)
    t.cmd = 0x0001 ∧ t.refused = some .reservedCommand ∧
    (out (exec (.wrCmd 0x4000) State.reset)).refused = some .reservedCommand := by decide
/-- V-H15, R110's example -/
theorem test_nop_and_wrCmd : exec .nop State.reset = .next State.reset ∧
    ((out (exec (.wrCmd 0x1110) State.reset)).chan 1).state = .enabled ∧ (out (exec (.wrCmd 0x1110) State.reset)).cmd = 0x1110 := by
  refine ⟨rfl, by decide, by decide⟩

/-! ## Channels (95_test_vectors.md 2.2) -/

/-- V-C2 -/
theorem test_chAcquire : (out (exec (.rdChstat 0) (out (exec (.chAcquire 0) State.reset)))).rdata = 0x0001 := by decide
/-- V-C3: CNT 2 gives REM 3. -/
theorem test_chEnable : let t := out (exec (.chEnable 1) (State.reset.setChan 1 { Channel.reset with cnt := 2 }))
    (out (exec (.rdChstat 1) t)).rdata = 0x0006 ∧ (out (exec (.rdChrem 1) t)).rdata = 3 := by decide
/-- V-C4 -/
theorem test_chDisable : let t := out (exec (.chDisable 0) (withChan running))
    (out (exec (.rdChstat 0) t)).rdata = 0x0003 ∧ (out (exec (.chPoll 0) t)).result = 2 ∧
    (out (exec (.chPoll 0) (out (exec (.chPoll 0) t)))).result = 0 := by decide
/-- V-C1, V-C3 -/
theorem test_chPoll : (out (exec (.chPoll 0) State.reset)).result = 0 ∧
    (out (exec (.chPoll 0) (withChan running))).result = 1 := by decide
/-- V-C5 and the largest legal count (R120) -/
theorem test_chSetcnt : (out (exec (.chSetcnt 1) { State.reset with arg0 := 4 })).refused = some .countRange ∧
    ((out (exec (.chSetcnt 1) { State.reset with arg0 := 3 })).chan 1).cnt = 3 := by decide
/-- V-C6, V-C7, R118's example -/
theorem test_chForce : (out (exec (.chForce 1) State.reset)).refused = some .notForceCapable ∧
    ((out (exec (.chForce 0) State.reset)).chan 0).fpend = false ∧
    ((out (exec (.chForce 0) (withChan { running with fpend := false }))).chan 0).fpend = true := by decide
/-- V-C13 -/
theorem test_absent_channel : exec (.chEnable 7) State.reset = .next { State.reset with cmd := 0x1170 } := rfl
/-- R121's example: 0x41 is pushed and REM is 1. -/
theorem test_stXfer : let t := out (exec (.stXfer 0) (withChan running))
    (t.port 0).txq = [0x41] ∧ (t.chan 0).rem = 1 ∧ (t.chan 0).fpend = false ∧ (t.chan 0).pend = false := by decide
/-- V-C8: the last transfer of an EXTERNAL channel sets IF. -/
theorem test_stXfer_last : let t := out (exec (.stXfer 1)
      (State.reset.setChan 1 { running with rem := 1, xidx := 1, rpend := true }))
    t.extOut = [(1, 0x42)] ∧ (t.chan 1).rem = 0 ∧ (t.chan 1).pend = true ∧ (t.chan 1).rpend = false := by decide
/-- V-C12 -/
theorem test_stXfer_unwritten : (out (exec (.stXfer 0) (withChan { running with buf := [] }))).fault =
    some (.unwrittenRead (.chBuf 0) 0) := by decide
/-- V-C10: a stale IF sets Done. -/
theorem test_stChcp : ((out (exec (.stChcp 0) (withChan { running with pend := true }))).chan 0).xfer = .done ∧
    ((out (exec (.stChcp 0) (withChan { running with pend := true }))).chan 0).state = .enabled := by decide
/-- V-C9 and R123: a bound channel ignores EV.CHRQ. -/
theorem test_evChrq : ((out (exec (.evChrq 1 0) (State.reset.setChan 1 running))).chan 1).rpend = true ∧
    exec (.evChrq 0 0) (withChan running) = .next (withChan running) := by
  refine ⟨by decide, rfl⟩

/-! ## Serial receiver (95_test_vectors.md 2.3) -/

/-- R129's queue, V-R2, V-R3 -/
theorem test_evRxb : ((out (exec (.evRxb 0 0x31) State.reset)).port 0).rxq = [0x31] ∧
    ((out (exec (.evRxb 0 0x99) (withPort { UartPort.reset with rxq := [1, 2, 3, 4] }))).port 0).oerr = true ∧
    ((out (exec (.evRxb 0 0x55) (withPort { UartPort.reset with oerr := true }))).port 0).rxq = [] := by decide
/-- V-R6 -/
theorem test_evRxfe : ((out (exec (.evRxfe 0 0x77) State.reset)).port 0).ferr = true ∧
    ((out (exec (.evRxfe 0 0x77) State.reset)).port 0).rxq = [] := by decide
/-- R131: inside a frame the byte is stored and the cursor advances. -/
theorem test_stRxsv : let u := (out (exec (.stRxsv 0) (withPort receiving))).port 0
    u.rxBuf = [(0, 1), (1, 2), (2, 3), (3, 0xA0)] ∧ u.rxCounter = 4 ∧ u.rxq = [0xB0] ∧ u.rxDone = false := by decide
/-- V-RX-3a: the frame boundary drains the queue. -/
theorem test_stRxsv_boundary : let u := (out (exec (.stRxsv 0) (withPort { receiving with rxCounter := 4 }))).port 0
    Mem.read u.rxBuf 4 = some 0xA0 ∧ u.rxCounter = 0 ∧ u.rxq = [] ∧ u.rxDone = true := by decide
/-- V-R4 -/
theorem test_stRxer : let u := (out (exec (.stRxer 0) (withPort { receiving with oerr := true, rxDone := true }))).port 0
    u.rxq = [] ∧ u.rxCounter = 0 ∧ u.oerr = false ∧ u.rxDone = true ∧ u.rxBuf = receiving.rxBuf := by decide
/-- 95_test_vectors.md S2 -/
theorem test_uartRxReady : let t := out (exec (.uartRxReady 0) (withPort { UartPort.reset with rxDone := true }))
    t.result = 1 ∧ (out (exec (.uartRxReady 0) t)).result = 0 := by decide
/-- 95_test_vectors.md S2 -/
theorem test_uartTxReady : let t := out (exec (.uartTxReady 0) (withPort { UartPort.reset with txDone := true }))
    t.result = 1 ∧ (out (exec (.uartTxReady 0) t)).result = 0 := by decide
/-- V-R7: RX_CAP is 8, and RXQ is not drained. -/
theorem test_uartClearRx : let u := (out (exec (.uartClearRx 0) { withPort receiving with arg0 := 0x12FF })).port 0
    u.rxBuf = (List.range 8).map (fun k => (k, 0xFF)) ∧ u.rxCounter = 0 ∧ u.rxq = receiving.rxq := by decide

/-! ## Serial transmitter (95_test_vectors.md 2.4, 2.5) -/

/-- 95_test_vectors.md S1: TX_CAP 4. -/
theorem test_uartFill_saturates : let s := { State.reset with arg0 := 6, stg := [(0, 1), (1, 2), (2, 3), (3, 4), (4, 5), (5, 6)] }
    ((out (exec (.uartFill 0) s)).port 0).txBuf = [(0, 1), (1, 2), (2, 3), (3, 4)] ∧
    ((out (exec (.uartFill 0) s)).port 0).txLength = 4 := by decide
/-- V-T5: an unwritten cell is copied as unwritten; V-T2. -/
theorem test_uartFill : ((out (exec (.uartFill 0) { withPort { UartPort.reset with txBuf := [(0, 7)] } with arg0 := 1 })).port 0).txBuf = [] ∧
    (out (exec (.uartFill 0) (withPort sending))).refused = some .txBusy := by decide
/-- R139, V-T2 and P5, line 6 -/
theorem test_uartStart : let u := (out (exec (.uartStart 0) (withPort { sending with txIe := false, txDone := true }))).port 0
    u.txIe = true ∧ u.txDone = false ∧ u.txCounter = 0 ∧ u.dir = .rx ∧
    ((out (exec (.uartStart 0) (State.init cfgH))).port 0).dir = .tx ∧
    (out (exec (.uartStart 0) (withPort sending))).refused = some .txBusy := by decide
/-- V-T1: a step pushes a byte. -/
theorem test_stTxsv : let u := (out (exec (.stTxsv 0) (withPort sending))).port 0
    u.txq = [0x55] ∧ u.txCounter = 1 ∧ u.txIe = true := by decide
/-- V-T3, V-T6 and V-T7: completion, and its half-duplex hold. -/
theorem test_stTxsv_completes : let u := { sending with txCounter := 2, dir := .tx }
    let t := (out (exec (.stTxsv 0) ((State.init cfgH).setPort 0 u))).port 0
    t.txDone = true ∧ t.txIe = false ∧ t.txCounter = 0 ∧ t.dir = .rx ∧
    (out (exec (.stTxsv 0) ((State.init cfgH).setPort 0 { u with tsr := some 0x55 }))).refused = some .badTrace := by decide
/-- P2, line 9: the load is a request pulse. -/
theorem test_evTxld : let s := (withChan { running with fpend := false }).setPort 0 { UartPort.reset with txq := [0x41] }
    let t := out (exec (.evTxld 0 0) s)
    (t.port 0).tsr = some 0x41 ∧ (t.port 0).txq = [] ∧ (t.chan 0).rpend = true := by decide
/-- R144 and V-D7 -/
theorem test_evTxsh : let u := { UartPort.reset with tsr := some 0x41 }
    ((out (exec (.evTxsh 0 0) (withPort u))).port 0).wireOut = [(0x41, true)] ∧
    ((out (exec (.evTxsh 0 0) ((State.init cfgH).setPort 0 u))).port 0).wireOut = [(0x41, false)] := by decide
/-- P2, line 6 -/
theorem test_uartSendDma : let t := out (exec (.uartSendDma 0) { State.reset with
      arg0 := 3, stg := [(0, 0x41), (1, 0x42), (2, 0x43)] })
    t.result = 1 ∧ t.chan 0 = { Channel.reset with
      state := .enabled, xfer := .inProgress, ie := true, cnt := 2, rem := 3, fpend := true,
      buf := [(0, 0x41), (1, 0x42), (2, 0x43)] } := by decide
/-- V-D2, V-D3, V-D4, V-D5, V-D8 -/
theorem test_uartSendDma_not : (out (exec (.uartSendDma 0) { withChan running with arg0 := 1, result := 7 })).result = 0 ∧
    (out (exec (.uartSendDma 0) { withPort { UartPort.reset with tsr := some 1 } with arg0 := 1, result := 7 })).result = 0 ∧
    (out (exec (.uartSendDma 0) { State.init cfgN with arg0 := 1 })).refused = some .noDmaChannel ∧
    (out (exec (.uartSendDma 0) State.reset)).refused = some .zeroLength ∧
    (out (exec (.uartSendDma 1) { State.reset with arg0 := 3, result := 7 })).result = 0 := by decide

/-! ## I2C (95_test_vectors.md 2.6) -/

/-- R151's example -/
theorem test_i2cWrite : let t := out (exec (.i2cWrite 0) { State.reset with arg0 := 3, stg := [(0, 0x90), (1, 1), (2, 0x7F)] })
    t.i2cp 0 = { I2cPort.reset with
      txData := [(0, 0x90), (1, 1), (2, 0x7F)], writeLength := 3, busy := true, ie := true, bop := .start,
      busOut := [(.start, none)] } ∧ t.hostWait = .none := by decide
/-- V-I7, V-I5 and V-I9 -/
theorem test_i2cWrite_not : ((out (exec (.i2cWrite 0) { State.reset with arg0 := 6 })).i2cp 0).writeLength = 4 ∧
    (out (exec (.i2cWrite 0) State.reset)).refused = some .zeroLength ∧
    (out (exec (.i2cWrite 0) { withI2c armedWrite with arg0 := 1 })).hostWait = .preArm 0x3000 := by decide
/-- P3, line 6, and V-I6 -/
theorem test_i2cRead : let t := out (exec (.i2cRead 0) { State.reset with arg0 := 2, arg1 := 3, stg := [(0, 0x90), (1, 5)] })
    (t.i2cp 0).txData = [(0, 0x90), (1, 5)] ∧ (t.i2cp 0).writeLength = 2 ∧ (t.i2cp 0).readLength = 3 ∧
    (t.i2cp 0).mode = .read ∧ t.hostWait = .postArm 0 .read ∧
    (out (exec (.i2cRead 0) { State.reset with arg0 := 1 })).refused = some .zeroLength := by decide
/-- P4, lines 8 and 19, and V-I8 -/
theorem test_i2cProbe : let t := out (exec (.i2cProbe 0) { State.reset with arg0 := 0x00A0 })
    (t.i2cp 0).txData = [(0, 0xA0)] ∧ (t.i2cp 0).writeLength = 1 ∧ t.hostWait = .postArm 0 .probe ∧
    (out (exec (.i2cProbe 0) (withI2c armedWrite))).hostWait = .preArm 0x3200 ∧
    (out (exec (.i2cProbe 3) State.reset)).hostWait = .none := by decide
/-- P4, line 19: the held probe arms. -/
theorem test_stHcont_arms : let t := out (exec .stHcont { State.reset with hostWait := .preArm 0x3200, arg0 := 0xA0 })
    (t.i2cp 0).busy = true ∧ (t.i2cp 0).txData = [(0, 0xA0)] ∧ t.hostWait = .postArm 0 .probe := by decide
/-- P3, line 25, and P4, line 26 -/
theorem test_stHcont_releases : let x := { I2cPort.reset with readLength := 3, ackstat := true }
    (out (exec .stHcont { withI2c x with hostWait := .postArm 0 .read })).result = 3 ∧
    (out (exec .stHcont { withI2c x with hostWait := .postArm 0 .probe, result := 7 })).result = 0 ∧
    (out (exec .stHcont { withI2c x with hostWait := .postArm 0 .read })).hostWait = .none := by decide
/-- I2C port 0 of the reset machine, with the record `x`, after the instruction `i`. -/
def i2cAfter (i : Instr) (x : I2cPort) : I2cPort := (out (exec i (withI2c x))).i2cp 0

/-- 95_test_vectors.md S4: the operation issued and the next phase at each phase of a read. -/
theorem test_stI2sv_read_phases : ([inRead 0 0 0, inRead 1 1 0, inRead 2 1 0, inRead 3 1 0, inRead 4 1 0, inRead 4 1 1].map
      (i2cAfter (.stI2sv 0))).map (fun y => (y.busOut, y.phase)) =
    [([(.send, some 0x90)], 1), ([(.restart, none)], 2), ([(.send, some 0x91)], 3), ([(.rcen, none)], 4),
     ([(.ackrcv, none)], 4), ([(.nackstop, none)], 5)] := by decide
/-- P3, line 18 -/
theorem test_stI2sv_stores : (i2cAfter (.stI2sv 0) (inRead 4 1 0)).rxData = [(0, 0x11)] := by decide
/-- P3, line 24, and P4, line 18: the ends of a read and of a write. -/
theorem test_stI2sv_ends :
    i2cAfter (.stI2sv 0) (inRead 5 1 2) =
      { inRead 5 0 0 with mif := false, busy := false, ie := false } ∧
    i2cAfter (.stI2sv 0) { inRead 2 1 0 with mode := .write } =
      { inRead 2 1 0 with mode := .write, mif := false, busy := false, ie := false } := by decide
/-- R167 -/
theorem test_stI2sv_dash : (out (exec (.stI2sv 0) (withI2c { inRead 3 1 0 with mode := .write }))).fault =
    some (.unreachablePhase 0) := by decide
/-- R166: SEND records the acknowledge bit, RCEN the byte, START neither; without an operation there is no event. -/
theorem test_evI2cd : ([BusOp.send, .rcen, .start].map
      (fun k => i2cAfter (.evI2cd 0 0x33) { armedRead with bop := k })).map (fun y => (y.ackstat, y.rcv, y.bop, y.mif)) =
    [(true, none, .none, true), (false, some 0x33, .none, true), (false, none, .none, true)] ∧
    (out (exec (.evI2cd 0 0) State.reset)).refused = some .badTrace := by decide

/-! ## One step -/

/-- R97: the next entry of the trace is taken. -/
theorem test_step_takes_entry : let t := out (step (State.reset.withEntry (.cmd 0x1000)))
    (t.chan 0).state = .assigned ∧ t.pending = [] := by decide
/-- R99, R175: a held host makes no access. -/
theorem test_held_host : (out (exec .rdCmd { State.reset with hostWait := .postArm 0 .read })).refused = some .badTrace := by decide
/-- R61: a faulted machine stays. -/
theorem test_stopped : exec .nop { State.reset with fault := some (.unreachablePhase 0) } = .fault (.unreachablePhase 0) := rfl
/-- The host's placing of a word makes the next step run it. -/
theorem test_withFetchWord : ((out (step (State.reset.withFetchWord 16 0x1110))).chan 1).state = .enabled := by decide

/-! ## Witnesses: for each statement with hypotheses, states and operands that meet them, one set for each clause, at the
ends of their ranges. A statement over `HostReady s` or `Live s` alone has `ready_reset`. -/

theorem ready_reset : HostReady State.reset := by decide

/-- Words that are legal, and entries of the statement's tables. -/
theorem witness_OpcodeTables : (0x10, Instr.chAcquire) ∈ [(0x10, Instr.chAcquire)] ∧ (6, Instr.evI2cd) ∈ [(6, Instr.evI2cd)] ∧
    (1, Instr.stRxsv) ∈ [(1, Instr.stRxsv)] := by simp
theorem witness_EveryLegalWordIsEncoded : decodeCmd 0x25F0 = .ok (.uartClearRx 15) ∧
    decodeEvt 0x6FFF = .ok (.evI2cd 15 0xFF) ∧ decodeStep 0x6F00 = .ok (.stI2sv 15) := by decide

/-- A state whose next entry is legal, and states whose next entry names nothing. -/
theorem witness_StepRunsTraceEntry : (State.reset.withEntry (.cmd 0)).pending = .cmd 0 :: [] ∧ decode (.cmd 0) = .ok .nop := by
  decide
theorem witness_WordOfNoTransitionRefused : Live (State.reset.withEntry (.evt 0)) ∧
    (State.reset.withEntry (.evt 0)).pending = .evt 0 :: [] ∧ decodeEvt 0 = .error .eventKind ∧
    (State.reset.withEntry (.step 0x7100)).pending = .step 0x7100 :: [] ∧ decodeStep 0x7100 = .error .hcontIdx ∧
    (State.reset.withEntry (.cmd 0x1600)).pending = .cmd 0x1600 :: [] ∧ decodeCmd 0x1600 = .error .reservedCommand ∧
    (State.reset.withEntry (.cmd 0x1600)).hostWait = .none := by decide
/-- A free and a held host; what is drawn is free. -/
theorem witness_EmptyTraceDraws :
    let held := { State.reset with hostWait := .postArm 0 .read }
    (Live State.reset ∧ State.reset.pending = [] ∧ State.reset.hostWait = .none) ∧
    (Live held ∧ held.pending = [] ∧ held.hostWait ≠ .none) := by decide
theorem witness_StoppedMachineStays : configValid { State.reset with fault := some (.unreachablePhase 0) }.cfg = true ∧
    { State.reset with fault := some (.unreachablePhase 0) }.fault = some (.unreachablePhase 0) ∧
    { State.reset with refused := some .badTrace }.fault = none ∧
    { State.reset with refused := some .badTrace }.refused = some .badTrace := by decide
theorem witness_OnlyValidParametersRun : configValid { State.reset with cfg := { Config.cfgA with nCh := 0 } }.cfg = false := by
  decide
theorem witness_DisabledTransitionsAreBadTrace :
    (Live { State.reset with hostWait := .preArm 0x3000 } ∧ isHostAccess (.wrArg0 1) = true) ∧
    Live State.reset ∧ Instr.wellFormed State.reset.cfg (.evRxb 1 0) = false := by decide
theorem witness_StopChangesNothingElse : exec (.wrStgPtr 9) State.reset =
      .next { State.reset with refused := some .pointerRange } ∧
    exec .rdStgData State.reset = .next { State.reset with fault := some (.unwrittenRead .stg 0) } := by
  refine ⟨rfl, rfl⟩

/-! Host accesses -/

/-- The ends of the pointers' ranges. -/
theorem witness_PointerWrites : (8#16).toNat ≤ State.reset.cfg.stgCap ∧ State.reset.cfg.stgCap < (9#16).toNat ∧
    sel { State.reset with bufSel := 0x0014 }.bufSel = some (.chBuf 1) ∧ HostReady { State.reset with bufSel := 0x0014 } ∧
    (4#16).toNat ≤ { State.reset with bufSel := 0x0014 }.cap (.chBuf 1) ∧
    { State.reset with bufSel := 0x0014 }.cap (.chBuf 1) < (5#16).toNat := by decide
/-- The last cell and the end, the last cell written and unwritten. -/
theorem witness_StagingWindow :
    let last := { State.reset with stgPtr := 7, stg := [(7, 0x41)] }
    (HostReady last ∧ last.stgPtr.toNat < last.cfg.stgCap ∧ last.stgPtr.toNat ≠ last.cfg.stgCap ∧
      Mem.read (last.mem .stg) last.stgPtr.toNat = some 0x41) ∧
    (HostReady { last with stgPtr := 8 } ∧ last.cfg.stgCap ≤ { last with stgPtr := 8 }.stgPtr.toNat ∧
      { last with stgPtr := 8 }.stgPtr.toNat = last.cfg.stgCap) ∧
    Mem.read ({ last with stg := [] }.mem .stg) last.stgPtr.toNat = none := by decide
/-- KIND 4 and 5, the reserved bits, and the last present and first absent index. -/
theorem witness_BufferSelect :
    (4 < (BitVec.extractLsb' 0 3 0x0005#16).toNat) ∧ (0x0008#16).getLsbD 3 = true ∧ BitVec.extractLsb' 8 8 0x0100#16 ≠ 0 ∧
    ¬ (BitVec.extractLsb' 8 8 0x0024#16 ≠ 0 ∨ (0x0024#16).getLsbD 3 = true ∨ 4 < (BitVec.extractLsb' 0 3 0x0024#16).toNat) ∧
    State.reset.cfg.nCh ≤ (BitVec.extractLsb' 4 4 0x0024#16).toNat ∧
    ¬ (BitVec.extractLsb' 8 8 0x0014#16 ≠ 0 ∨ (0x0014#16).getLsbD 3 = true ∨ 4 < (BitVec.extractLsb' 0 3 0x0014#16).toNat) ∧
    (BitVec.extractLsb' 4 4 0x0014#16).toNat < State.reset.cfg.nCh := by decide
theorem witness_SelectionNamesBuffer : 4 < (5#3).toNat ∧
    { State.reset with bufSel := 0x0005 }.bufSel = 0#8 ++ BitVec.ofFin (w := 4) 0 ++ 0#1 ++ 5#3 ∧
    HostReady { State.reset with bufSel := 0x0005 } := by decide
/-- The last cell of a channel buffer, written and unwritten, and its end. -/
theorem witness_BufferLoad :
    let last := { State.reset with bufSel := 0x0004, bufPtr := 7, ch := (withChan { Channel.reset with buf := [(7, 1)] }).ch }
    (HostReady last ∧ sel last.bufSel = some (.chBuf 0) ∧ last.bufPtr.toNat ≠ last.cap (.chBuf 0) ∧
      Mem.read (last.mem (.chBuf 0)) last.bufPtr.toNat = some 1) ∧
    Mem.read ({ last with bufPtr := 6 }.mem (.chBuf 0)) { last with bufPtr := 6 }.bufPtr.toNat = none ∧
    { last with bufPtr := 8 }.bufPtr.toNat = last.cap (.chBuf 0) := by decide
theorem witness_BufferStore : selKind State.reset.bufSel ≠ 4 ∧ HostReady { State.reset with bufSel := 0x0014, bufPtr := 3 } ∧
    selKind 0x0014 = 4 ∧ (3#16).toNat < (State.reset.chanCfg (selIdx 0x0014)).bufCap ∧
    (State.reset.chanCfg (selIdx 0x0014)).bufCap ≤ (4#16).toNat := by decide
theorem witness_StatusViewBits : HostReady State.reset ∧ (1 : Idx).val < State.reset.cfg.nCh ∧
    (0 : Idx).val < State.reset.cfg.nUart ∧ (0 : Idx).val < State.reset.cfg.nI2c := by decide
theorem witness_RefusedAccesses : (0x09 ≤ (0x0F#8).toNat ∧ (0x0F#8).toNat ≤ 0x0F) ∧ 0xD0 ≤ (0xD0#8).toNat ∧
    (0x10 ≤ (0xCF#8).toNat ∧ (0xCF#8).toNat ≤ 0xCF) := by decide

/-! Commands -/

theorem witness_CommandWordsWithoutEffect : HostReady State.reset ∧ decodeCmd 0x1600 = .error .reservedCommand := by decide
theorem witness_WriteCmdExecutes : decodeCmd 0x1000 = .ok (.chAcquire 0) ∧ decodeCmd 0x0001 = .error .reservedCommand := by
  decide

/-! Channels: 0 and 1 exist, 2 does not. -/

theorem witness_ChannelLifecycle : HostReady State.reset ∧ State.reset.cfg.nCh ≤ (2 : Idx).val ∧
    (1 : Idx).val < State.reset.cfg.nCh := by decide
theorem witness_ForceRequestsTransfer : HostReady (withChan running) ∧ State.reset.cfg.nCh ≤ (2 : Idx).val ∧
    ((1 : Idx).val < State.reset.cfg.nCh ∧ (State.reset.chanCfg 1).forceCapable = false) ∧
    ((0 : Idx).val < State.reset.cfg.nCh ∧ (State.reset.chanCfg 0).forceCapable = true) := by decide
theorem witness_PollReportsDoneOnce : HostReady (withChan { running with xfer := .done }) ∧ State.reset.cfg.nCh ≤ (2 : Idx).val ∧
    (0 : Idx).val < State.reset.cfg.nCh ∧ ((withChan { running with xfer := .done }).chan 0).xfer = .done := by decide
theorem witness_SetCountForNextBlock : HostReady { State.reset with arg0 := 4 } ∧ HostReady { State.reset with arg0 := 3 } ∧
    State.reset.cfg.nCh ≤ (2 : Idx).val ∧ (1 : Idx).val < State.reset.cfg.nCh ∧
    (State.reset.chanCfg 1).bufCap ≤ (4#16).toNat ∧ (3#16).toNat < (State.reset.chanCfg 1).bufCap := by decide
/-- A bound and an external channel; an unwritten cell; a channel with a full sink, and one without a request. -/
theorem witness_TransferStep :
    let s := withChan running
    let e := State.reset.setChan 1 { running with fpend := false, rpend := true }
    (Live s ∧ (0 : Idx).val < s.cfg.nCh ∧ xferEnabled 0 s = true ∧ (s.chanCfg 0).sink = .uartTx 0 ∧
      (s.port 0).txq.length < (s.portCfg 0).txDepth ∧ (s.chan 0).state = .enabled ∧ (s.chan 0).xfer = .inProgress ∧
      0 < (s.chan 0).rem.toNat ∧ (s.chan 0).fpend = true ∧ Mem.read (s.mem (.chBuf 0)) (s.chan 0).xidx.toNat = some 0x41) ∧
    (Live e ∧ (1 : Idx).val < e.cfg.nCh ∧ (e.chanCfg 1).sink = .external ∧ (e.chan 1).state = .enabled ∧
      (e.chan 1).xfer = .inProgress ∧ 0 < (e.chan 1).rem.toNat ∧ (e.chan 1).rpend = true ∧
      Mem.read (e.mem (.chBuf 1)) (e.chan 1).xidx.toNat = some 0x41) ∧
    Mem.read ((withChan { running with buf := [] }).mem (.chBuf 0)) 0 = none ∧
    ¬ ((s.setPort 0 { UartPort.reset with txq := [1] }).port 0).txq.length < (s.portCfg 0).txDepth ∧
    xferEnabled 0 (withChan { running with fpend := false }) = false := by decide
theorem witness_CompletionStep : Live (withChan { running with pend := true }) ∧ (0 : Idx).val < State.reset.cfg.nCh ∧
    (((withChan { running with pend := true }).chan 0).pend = true ∧ ((withChan { running with pend := true }).chan 0).ie = true) ∧
    ¬ (((withChan running).chan 0).pend = true ∧ ((withChan running).chan 0).ie = true) := by decide
theorem witness_RequestPulses :
    let s := withPort { UartPort.reset with txq := [1, 2] }
    (Live s ∧ (1 : Idx).val < s.cfg.nCh ∧ (s.chanCfg 1).sink = .external) ∧ (s.chanCfg 0).sink ≠ .external ∧
    s.cfg.nCh ≤ (2 : Idx).val ∧ (0 : Idx).val < s.cfg.nUart ∧ ((s.port 0).tsr = none ∧ (s.port 0).txq = 1 :: [2]) ∧
    (State.reset.port 0).txq = [] ∧ ((withPort { UartPort.reset with tsr := some 1 }).port 0).tsr ≠ none ∧
    (s.portCfg 0).txDmaCh = some 0 ∧ configValid cfgN = true ∧ ((State.init cfgN).portCfg 0).txDmaCh = none := by decide

/-! Serial ports: 0 exists, 1 does not. -/

theorem witness_ReceiverEvents :
    let full := withPort { UartPort.reset with rxq := [1, 2, 3, 4] }
    (Live full ∧ (0 : Idx).val < full.cfg.nUart ∧ (full.port 0).oerr = false ∧
      (full.port 0).rxq.length = (full.portCfg 0).rxDepth) ∧
    (Live (withPort receiving) ∧ ((withPort receiving).port 0).oerr = false ∧
      ((withPort receiving).port 0).rxq.length ≠ (full.portCfg 0).rxDepth) ∧
    ((withPort { receiving with oerr := true }).port 0).oerr = true := by decide
/-- The cursor inside the frame, at its last cell, at its end and past it (RX_LEN is 5). -/
theorem witness_ReceiveStep :
    Live (withPort receiving) ∧ (0 : Idx).val < State.reset.cfg.nUart ∧ ((withPort receiving).port 0).rxq = 0xA0 :: [0xB0] ∧
    (State.reset.port 0).rxq = [] ∧ ((withPort receiving).port 0).rxCounter.toNat + 1 < (State.reset.portCfg 0).rxLen ∧
    ((withPort { receiving with rxCounter := 4 }).port 0).rxCounter.toNat + 1 = (State.reset.portCfg 0).rxLen ∧
    ((withPort { receiving with rxCounter := 5 }).port 0).rxCounter.toNat = (State.reset.portCfg 0).rxLen ∧
    (State.reset.portCfg 0).rxLen < ((withPort { receiving with rxCounter := 6 }).port 0).rxCounter.toNat := by decide
theorem witness_ReceiveErrorStep : Live (withPort { receiving with oerr := true }) ∧ (0 : Idx).val < State.reset.cfg.nUart ∧
    ((withPort { receiving with oerr := true }).port 0).oerr = true ∧
    (State.reset.port 0).oerr = false ∧ (State.reset.port 0).ferr = false := by decide
theorem witness_ReadyFlagsReportOnce : HostReady (withPort { UartPort.reset with rxDone := true, txDone := true }) ∧
    State.reset.cfg.nUart ≤ (1 : Idx).val ∧ (0 : Idx).val < State.reset.cfg.nUart := by decide
theorem witness_ClearReceiveBuffer : HostReady (withPort receiving) ∧ State.reset.cfg.nUart ≤ (1 : Idx).val ∧
    (0 : Idx).val < State.reset.cfg.nUart := by decide
theorem witness_FillAndStart : HostReady (withPort sending) ∧ State.reset.cfg.nUart ≤ (1 : Idx).val ∧
    (0 : Idx).val < State.reset.cfg.nUart ∧ ((withPort sending).port 0).txIe = true ∧ (State.reset.port 0).txIe = false := by
  decide
/-- A byte to send, written and unwritten; the completion of both kinds of port; a send that is not enabled. -/
theorem witness_TransmitStep :
    let s := withPort sending
    let h := (State.init cfgH).setPort 0 { sending with txCounter := 2, dir := .tx }
    (Live s ∧ (0 : Idx).val < s.cfg.nUart ∧ (s.port 0).txCounter.toNat ≤ (s.port 0).txLength.toNat ∧
      (s.port 0).txIe = true ∧ (s.port 0).txq.length < (s.portCfg 0).txDepth ∧ (s.port 0).txCounter ≠ (s.port 0).txLength ∧
      Mem.read (s.mem (.uartTx 0)) (s.port 0).txCounter.toNat = some 0x55) ∧
    Mem.read ((withPort { sending with txBuf := [] }).mem (.uartTx 0)) 0 = none ∧
    (Live h ∧ (h.port 0).txIe = true ∧ (h.port 0).txq.length < (h.portCfg 0).txDepth ∧
      (h.port 0).txCounter = (h.port 0).txLength ∧ (h.portCfg 0).halfDuplex = true ∧ (h.port 0).txq = [] ∧
      (h.port 0).tsr = none) ∧
    (s.portCfg 0).halfDuplex = false ∧ (State.reset.port 0).txIe = false := by decide
theorem witness_ShiftRegisterFinishes : Live (withPort { UartPort.reset with tsr := some 0x41 }) ∧
    (0 : Idx).val < State.reset.cfg.nUart ∧ ((withPort { UartPort.reset with tsr := some 0x41 }).port 0).tsr = some 0x41 ∧
    (State.reset.port 0).tsr = none := by decide
theorem witness_SendByDma :
    HostReady { State.reset with arg0 := 1 } ∧ State.reset.cfg.nUart ≤ (1 : Idx).val ∧ (0 : Idx).val < State.reset.cfg.nUart ∧
    HostReady (State.init cfgN) ∧ ((State.init cfgN).portCfg 0).txDmaCh = none ∧
    (State.reset.portCfg 0).txDmaCh = some 0 ∧ State.reset.arg0 = 0 ∧ { State.reset with arg0 := 1 }.arg0 ≠ 0 ∧
    ((withChan running).chan 0).xfer = .inProgress ∧
    ¬ ((State.reset.chan 0).xfer = .inProgress ∨ (State.reset.port 0).txq ≠ [] ∨ (State.reset.port 0).tsr ≠ none) := by decide

/-! I2C ports: 0 exists, 1 does not. -/

theorem witness_WriteArmsOrHolds : HostReady { State.reset with arg0 := 1 } ∧ HostReady { withI2c armedWrite with arg0 := 1 } ∧
    State.reset.cfg.nI2c ≤ (1 : Idx).val ∧ (0 : Idx).val < State.reset.cfg.nI2c ∧ State.reset.arg0 = 0 ∧
    { State.reset with arg0 := 1 }.arg0 ≠ 0 ∧ ((withI2c armedWrite).i2cp 0).busy = true ∧ (State.reset.i2cp 0).busy = false := by
  decide
theorem witness_ReadArmsOrHolds : HostReady { State.reset with arg0 := 1, arg1 := 1 } ∧
    HostReady { withI2c armedWrite with arg0 := 1, arg1 := 1 } ∧ State.reset.cfg.nI2c ≤ (1 : Idx).val ∧
    (0 : Idx).val < State.reset.cfg.nI2c ∧ State.reset.arg1 = 0 ∧ { State.reset with arg0 := 1, arg1 := 1 }.arg0 ≠ 0 ∧
    { State.reset with arg0 := 1, arg1 := 1 }.arg1 ≠ 0 ∧ ((withI2c armedWrite).i2cp 0).busy = true ∧
    (State.reset.i2cp 0).busy = false ∧
    (Live { State.reset with hostWait := .postArm 0 .read } ∧
      { State.reset with hostWait := .postArm 0 .read }.hostWait = .postArm 0 .read) := by decide
theorem witness_ProbeArmsOrHolds : HostReady (withI2c armedWrite) ∧ State.reset.cfg.nI2c ≤ (1 : Idx).val ∧
    (0 : Idx).val < State.reset.cfg.nI2c ∧ ((withI2c armedWrite).i2cp 0).busy = true ∧ (State.reset.i2cp 0).busy = false := by
  decide
/-- A free host; a held command of each kind, on a busy and on an idle port, and a word that is none; both waits. -/
theorem witness_HostContinuation :
    (Live State.reset ∧ State.reset.hostWait = .none) ∧
    (Live { State.reset with hostWait := .preArm 0x3200 } ∧ { State.reset with hostWait := .preArm 0x3200 }.hostWait = .preArm 0x3200 ∧
      (State.reset.i2cp (cmdIdx 0x3200)).busy = false) ∧
    (cmdOp 0x3000 = 0 ∧ cmdOp 0x3100 = 1 ∧ cmdOp 0x3200 = 2 ∧ 2 < cmdOp 0x3300) ∧
    (Live { withI2c armedWrite with hostWait := .preArm 0x3000 } ∧ ((withI2c armedWrite).i2cp (cmdIdx 0x3000)).busy = true) ∧
    (Live { State.reset with hostWait := .postArm 0 .read } ∧
      { State.reset with hostWait := .postArm 0 .read }.hostWait = .postArm 0 .read ∧ (State.reset.i2cp 0).busy = false) ∧
    (Live { State.reset with hostWait := .postArm 0 .probe } ∧
      { State.reset with hostWait := .postArm 0 .probe }.hostWait = .postArm 0 .probe) ∧
    (Live { withI2c armedRead with hostWait := .postArm 0 .read } ∧
      { withI2c armedRead with hostWait := .postArm 0 .read }.hostWait = .postArm 0 .read ∧
      ((withI2c armedRead).i2cp 0).busy = true) := by
  decide
/-- The address byte, the last write byte, written and unwritten, and the end of the write bytes. -/
theorem witness_PhaseBytes :
    let s := withI2c (inRead 0 0 0)
    let e := withI2c (inRead 1 1 0)
    let b := withI2c { inRead 1 1 0 with txData := [(0, 0x90), (1, 5)], writeLength := 2 }
    (Live s ∧ (0 : Idx).val < s.cfg.nI2c ∧ (s.i2cp 0).mif = true ∧ (s.i2cp 0).ie = true ∧ (s.i2cp 0).phase = 0 ∧
      Mem.read (s.mem (.i2cTx 0)) (s.i2cp 0).txCounter.toNat = some 0x90) ∧
    ((b.i2cp 0).phase = 1 ∧ (b.i2cp 0).txCounter.toNat < (b.i2cp 0).writeLength.toNat ∧
      Mem.read (b.mem (.i2cTx 0)) (b.i2cp 0).txCounter.toNat = some 5) ∧
    Mem.read ((withI2c { inRead 0 0 0 with txData := [] }).mem (.i2cTx 0)) 0 = none ∧
    ((e.i2cp 0).phase = 1 ∧ (e.i2cp 0).writeLength.toNat ≤ (e.i2cp 0).txCounter.toNat) := by decide
theorem witness_PhaseReadAddress :
    let s := withI2c (inRead 2 1 0)
    (Live s ∧ (0 : Idx).val < s.cfg.nI2c ∧ (s.i2cp 0).mif = true ∧ (s.i2cp 0).ie = true ∧ (s.i2cp 0).mode = .read ∧
      (s.i2cp 0).phase = 2 ∧ Mem.read (s.mem (.i2cTx 0)) 0 = some 0x90) ∧
    Mem.read ((withI2c { inRead 2 1 0 with txData := [] }).mem (.i2cTx 0)) 0 = none := by decide
/-- Phase 3, and phase 4 with a byte to come and with the last byte. -/
theorem witness_PhaseReceive :
    let s := withI2c (inRead 4 1 0)
    (Live s ∧ (0 : Idx).val < s.cfg.nI2c ∧ (s.i2cp 0).mif = true ∧ (s.i2cp 0).ie = true ∧ (s.i2cp 0).mode = .read ∧
      (s.i2cp 0).phase = 4 ∧ (s.i2cp 0).rxCounter + 1 < (s.i2cp 0).readLength) ∧
    ¬ ((withI2c (inRead 4 1 1)).i2cp 0).rxCounter + 1 < (s.i2cp 0).readLength ∧
    ((withI2c (inRead 3 1 0)).i2cp 0).phase = 3 := by decide
theorem witness_PhaseStepEnds :
    let w := withI2c { inRead 2 1 0 with mode := .write }
    (Live w ∧ (0 : Idx).val < w.cfg.nI2c ∧ (w.i2cp 0).mif = true ∧ (w.i2cp 0).ie = true ∧ (w.i2cp 0).mode = .write ∧
      (w.i2cp 0).phase = 2) ∧
    (((withI2c (inRead 5 1 2)).i2cp 0).mode = .read ∧ ((withI2c (inRead 5 1 2)).i2cp 0).phase = 5) ∧
    (((withI2c { inRead 3 1 0 with mode := .write }).i2cp 0).mode = .write ∧
      3 ≤ ((withI2c { inRead 3 1 0 with mode := .write }).i2cp 0).phase.toNat) ∧
    6 ≤ ((withI2c (inRead 6 1 0)).i2cp 0).phase.toNat ∧
    ¬ ((State.reset.i2cp 0).mif = true ∧ (State.reset.i2cp 0).ie = true) := by decide
theorem witness_BusCompletion : Live (withI2c armedRead) ∧ (0 : Idx).val < State.reset.cfg.nI2c ∧
    ((withI2c armedRead).i2cp 0).bop ≠ .none ∧ (State.reset.i2cp 0).bop = .none := by decide

/-! The whole machine -/

theorem witness_ResetLeaves : configValid cfgH = true ∧ (0 : Idx).val < cfgH.nUart := by decide
theorem witness_ResetMeetsInvariant : configValid Config.cfgA = true := by decide

/-- The reset machine meets the invariant. -/
theorem inv_reset : Inv State.reset where
  cells := by
    have hb : ∀ b, State.reset.mem b = [] := fun b => by
      cases b <;> simp [State.mem, State.reset, State.init, State.chan, State.port, State.i2cp, Channel.reset,
        UartPort.reset, I2cPort.reset]
    exact ⟨fun b => by rw [hb]; exact Mem.wf_nil, fun b _ x hx => by rw [hb] at hx; cases hx⟩
  chan := fun c hc => by
    have h := (cfg_chan (s := State.reset) (by decide) hc).1
    have e : State.reset.chan c = Channel.reset := by simp [State.reset, State.init, State.chan]
    rw [e]
    constructor <;> simp [Channel.reset]
    omega
  uart := fun p hp => by
    have h := cfg_uart (s := State.reset) (by decide) hp
    have e : State.reset.port p = UartPort.reset := by simp [State.reset, State.init, State.port]
    rw [e]
    constructor <;> simp [UartPort.reset]
    omega
  i2c := fun q _ => by
    have e : State.reset.i2cp q = I2cPort.reset := by simp [State.reset, State.init, State.i2cp]
    rw [e]
    constructor <;> simp [I2cPort.reset]
  window := ⟨by decide, by decide, by decide, fun _ _ => Nat.zero_le _⟩
  wait := trivial

/-- A machine that meets the invariant, with its next transition. -/
theorem witness_EveryStepKeepsInvariant : Inv (State.reset.withEntry (.cmd 0)) ∧
    step (State.reset.withEntry (.cmd 0)) = .next State.reset :=
  ⟨inv_reset.irrelevant .., rfl⟩

theorem inv_armedRead : Inv (withI2c armedRead) :=
  inv_reset.setI2c (fun _ => by constructor <;> decide) (by decide) (by decide) (by decide) (by decide)

theorem inv_armedWrite : Inv (withI2c armedWrite) :=
  inv_reset.setI2c (fun _ => by constructor <;> decide) (by decide) (by decide) (by decide) (by decide)

theorem witness_PhaseTableSuffices : Inv (withI2c armedRead) ∧
    exec (.evI2cd 0 0) (withI2c armedRead) = .next (out (exec (.evI2cd 0 0) (withI2c armedRead))) :=
  ⟨inv_armedRead, rfl⟩

/-- Both modes, just armed; the number of beats is that of the lengths. -/
theorem witness_PhaseOrder :
    (Live (withI2c armedWrite) ∧ Inv (withI2c armedWrite) ∧ (armedWrite.mode = .write ∧ armedWrite.busy = true ∧
      armedWrite.phase = 0 ∧ armedWrite.bop = .start ∧ armedWrite.txCounter = 0 ∧ armedWrite.rxCounter = 0 ∧
      (∀ a < armedWrite.writeLength.toNat, Mem.read armedWrite.txData a ≠ none)) ∧
      [0, 1, 2, (3 : Byte)].length = armedWrite.writeLength.toNat + 2) ∧
    (Live (withI2c armedRead) ∧ Inv (withI2c armedRead) ∧ (armedRead.mode = .read ∧ armedRead.busy = true ∧
      armedRead.phase = 0 ∧ armedRead.bop = .start ∧ armedRead.txCounter = 0 ∧ armedRead.rxCounter = 0 ∧
      (∀ a < armedRead.writeLength.toNat, Mem.read armedRead.txData a ≠ none)) ∧
      [0, 1, 2, 3, 4, 5, (6 : Byte)].length = armedRead.writeLength.toNat + armedRead.readLength.toNat + 4) :=
  ⟨⟨by decide, inv_armedWrite, by decide, by decide⟩, ⟨by decide, inv_armedRead, by decide, by decide⟩⟩

/-- Each transfer state that a transition writes. -/
theorem witness_TransferStateWriters :
    let after (i : Instr) (x : Channel) := ((out (exec i (withChan x))).chan 0).xfer
    after (.chEnable 0) Channel.reset = .inProgress ∧ after (.chDisable 0) running = .done ∧
    after (.stChcp 0) { running with pend := true } = .done ∧ after (.chPoll 0) { running with xfer := .done } = .idle := by
  decide
/-- Each flag changes somewhere: raised, or cleared, by one of its writers. -/
theorem witness_FlagWriters :
    let port (i : Instr) (u : UartPort) := (out (exec i (withPort u))).port 0
    let chan (i : Instr) (x : Channel) := (out (exec i (withChan x))).chan 0
    ((port (.stRxsv 0) { receiving with rxCounter := 4 }).rxDone = true ∧ receiving.rxDone = false) ∧
    (port (.uartTxReady 0) { UartPort.reset with txDone := true }).txDone = false ∧
    ((port (.evRxb 0 0) { UartPort.reset with rxq := [1, 2, 3, 4] }).oerr = true ∧ UartPort.reset.oerr = false) ∧
    ((port (.evRxfe 0 0) UartPort.reset).ferr = true ∧ UartPort.reset.ferr = false) ∧
    ((chan (.stXfer 0) { running with rem := 1 }).pend = true ∧ running.pend = false) ∧
    (chan (.chAcquire 0) { running with pend := true }).pend = false ∧
    ((i2cAfter (.i2cProbe 0) I2cPort.reset).busy = true ∧ I2cPort.reset.busy = false) ∧
    ((i2cAfter (.evI2cd 0 1) armedRead).mif = true ∧ armedRead.mif = false) ∧
    ((i2cAfter (.stI2sv 0) (inRead 0 0 0)).mif = false ∧ (inRead 0 0 0).mif = true) ∧
    ((i2cAfter (.evI2cd 0 1) { armedRead with bop := .send }).ackstat = true ∧ armedRead.ackstat = false) := by decide
theorem witness_RegisterWriters : (out (exec (.wrArg0 5) State.reset)).arg0 ≠ State.reset.arg0 ∧
    (out (exec (.wrStgData 5) State.reset)).stg ≠ State.reset.stg ∧
    (out (exec (.chPoll 0) (withChan running))).cmd ≠ (withChan running).cmd ∧
    (out (exec (.chPoll 0) (withChan running))).result ≠ (withChan running).result := by decide
theorem witness_ChannelIsolation : actsAs (.wrCmd 0x1000) = .chAcquire 0 ∧
    exec (.wrCmd 0x1000) State.reset = .next (out (exec (.wrCmd 0x1000) State.reset)) := by
  refine ⟨by decide, rfl⟩

end Sys2Proof.Tests
end

/-! ## O6, O8 and O10: the gate every transition passes, a step of the trace, a draw, and the valid parameter sets. -/

namespace Sys2Proof.Machine

variable {s : State} {i : Instr} {w : Word} {m k : State → Result} {en : State → Bool}

/-! ### Outcomes that are next states -/

/-- A transition's outcome is a next state: a fault or a refusal it raises is recorded there (R173). -/
def Advances (o : Result) : Prop := ∃ t, o = .next t

@[simp] theorem advances_next (t : State) : Advances (.next t) := ⟨t, rfl⟩

@[simp] theorem advances_refuse (r : Refusal) (s : State) : Advances (refuse r s) := ⟨_, rfl⟩

@[simp] theorem advances_raise (f : Fault) (s : State) : Advances (raise f s) := ⟨_, rfl⟩

@[simp] theorem advances_ite {c : Prop} [Decidable c] {a b : Result} :
    Advances (if c then a else b) ↔ (c → Advances a) ∧ (¬c → Advances b) := by
  split <;> simp [*]

theorem advances_observe {b : Buf} {a : Nat} {g : Byte → Result} (hg : ∀ v, Advances (g v)) :
    Advances (observe s b a g) := by
  cases hv : Mem.read (s.mem b) a with
  | some v => rw [observe_some hv]; exact hg v
  | none => rw [observe_none hv]; exact advances_next _

theorem advances_withSel {g : Buf → Result} (hg : ∀ b, Advances (g b)) : Advances (withSel s g) := by
  unfold withSel
  split
  · exact hg _
  · exact advances_refuse ..

theorem advances_windowRead (s : State) (b : Buf) (ptr : Word) (bump : Word → State → State) :
    Advances (windowRead s b ptr bump) :=
  advances_ite.2 ⟨fun _ => advances_refuse .., fun _ => advances_observe fun _ => advances_next _⟩

@[simp] theorem advances_armOrHold (q : Idx) (s : State) (g : State → State) : Advances (armOrHold q s g) := by
  simp [armOrHold]

@[simp] theorem advances_sendNext (q : Idx) (s : State) (x : I2cPort) (ph : BitVec 3) :
    Advances (sendNext q s x ph) := advances_observe fun _ => advances_next _

@[simp] theorem advances_phaseReadAddress (q : Idx) (s : State) (x : I2cPort) : Advances (phaseReadAddress q s x) :=
  advances_observe fun _ => advances_next _

/-! ### The gate -/

/-- A meaning behind the gate of R173 and R193: a running machine gets a next state, any other its recorded reason. -/
def Gated (m : State → Result) : Prop := ∃ k : State → State, ∀ s, m s = live s fun u => .next (k u)

theorem Gated.congr {m' : State → Result} (hm : Gated m) (h : ∀ s, m' s = m s) : Gated m' := funext h ▸ hm

theorem gated_live (hk : ∀ s, Advances (k s)) : Gated fun s => live s k := by
  choose g hg using hk
  exact ⟨g, fun s => congrArg (live s) (funext hg)⟩

theorem gated_transition (hk : ∀ s, Advances (k s)) : Gated fun s => transition en s k :=
  gated_live fun s => advances_ite.2 ⟨fun _ => hk s, fun _ => advances_refuse ..⟩

theorem gated_hostAccess (hk : ∀ s, Advances (k s)) : Gated fun s => hostAccess s k := gated_transition hk

theorem gated_hostRead (v : State → Word) : Gated fun s => hostRead s v := gated_hostAccess fun _ => advances_next _

theorem gated_hostRefused (r : Refusal) : Gated (hostRefused r) := gated_hostAccess (advances_refuse r)

theorem gated_command (hk : ∀ s, Advances (k s)) : Gated fun s => command w s k := gated_hostAccess fun _ => hk _

theorem gated_chanCommand {op : BitVec 4} {c : Idx} (hk : ∀ s, Advances (k s)) :
    Gated fun s => chanCommand op c s k :=
  gated_command fun s => advances_ite.2 ⟨fun _ => hk s, fun _ => advances_next s⟩

theorem gated_uartCommand {op : BitVec 4} {p : Idx} (hk : ∀ s, Advances (k s)) :
    Gated fun s => uartCommand op p s k :=
  gated_command fun s => advances_ite.2 ⟨fun _ => hk s, fun _ => advances_next s⟩

theorem gated_uartQuery {op : BitVec 4} {p : Idx} (hk : ∀ s, Advances (k s)) :
    Gated fun s => uartQuery op p s k :=
  gated_command fun s => advances_ite.2 ⟨fun _ => hk s, fun _ => advances_next _⟩

/-- No run exists for an invalid parameter set (R193). -/
theorem Gated.badConfig (hm : Gated m) (hc : configValid s.cfg = false) : m s = .refused .badConfig := by
  obtain ⟨k, hk⟩ := hm
  simp [hk, live, hc]

theorem Gated.advances (hm : Gated m) (h : Live s) : Advances (m s) := by
  obtain ⟨k, hk⟩ := hm
  exact ⟨k s, (hk s).trans (live_eq h)⟩

/-! ### Every transition passes the gate -/

theorem gated_execUartSendDma (p : Idx) : Gated (execUartSendDma p) := gated_uartQuery fun s => by
  split <;> simp

theorem gated_execStHcont : Gated execStHcont := gated_transition fun s => by
  split
  case h_2 => split <;> exact advances_next _
  all_goals exact advances_next _

theorem gated_execStI2sv (q : Idx) : Gated (execStI2sv q) := gated_transition fun s => by
  dsimp only
  split <;> simp [phaseAddress, phaseBytes, phaseWriteEnd, phaseReceive, phaseStore, phaseReadEnd]

theorem gated_execEvTxld (p : Idx) (x : Byte) : Gated (execEvTxld p x) := gated_transition fun s => by
  dsimp only
  split <;> exact advances_next _

theorem gated_execEvChrq (c : Idx) (x : Byte) : Gated (execEvChrq c x) := gated_transition fun s => by
  split <;> exact advances_next _

/-- Every instruction's meaning but WR CMD, which takes that of a command (R110). -/
theorem gated_exec_of_ne_wrCmd (h : ∀ w, i ≠ .wrCmd w) : Gated (exec i) := by
  unfold exec
  cases i with
  | wrCmd w => exact absurd rfl (h w)
  | rdCmd | rdArg0 | rdArg1 | rdResult | rdStgPtr | rdBufSel | rdBufPtr => exact gated_hostRead _
  | rdChstat | rdChcnt | rdChrem | rdUstat | rdUrxcnt | rdUtxcnt | rdUtxlen => exact gated_hostRead _
  | rdIstat | rdItxcnt | rdIrxcnt | rdIwlen | rdIrlen => exact gated_hostRead _
  | wrResult | wrChstat | wrChcnt | wrChrem | wrUstat | wrUrxcnt | wrUtxcnt | wrUtxlen => exact gated_hostRefused _
  | wrIstat | wrItxcnt | wrIrxcnt | wrIwlen | wrIrlen => exact gated_hostRefused _
  | rsv09 | rsv0A | rsv0C | rsvD0 | rsvE0 => exact gated_hostRefused _
  | rdStgData => exact gated_hostAccess fun s => advances_windowRead ..
  | rdBufData => exact gated_hostAccess fun s => advances_withSel fun b => advances_windowRead ..
  | wrBufPtr => exact gated_hostAccess fun s => advances_withSel fun b => by simp
  | wrArg0 | wrArg1 => exact gated_hostAccess fun s => advances_next _
  | wrStgPtr | wrStgData | wrBufSel | wrBufData => exact gated_hostAccess fun s => by simp
  | nop => exact gated_command advances_next
  | chAcquire | chEnable | chDisable => exact gated_chanCommand fun s => advances_next _
  | chForce | chSetcnt => exact gated_chanCommand fun s => by simp
  | chPoll | i2cWrite | i2cRead | i2cProbe => exact gated_command fun s => by simp
  | uartFill | uartStart => exact gated_uartCommand fun s => by simp
  | uartClearRx => exact gated_uartCommand fun s => advances_next _
  | uartRxReady | uartTxReady => exact gated_uartQuery fun s => advances_next _
  | uartSendDma p => exact gated_execUartSendDma p
  | evRxb => exact gated_transition fun s => by simp
  | evTxld p x => exact gated_execEvTxld p x
  | evChrq c x => exact gated_execEvChrq c x
  | evRxfe | evTxsh | evI2cd | stRxsv | stRxer | stChcp => exact gated_transition fun s => advances_next _
  | stTxsv => exact gated_transition fun s => by simp [advances_observe]
  | stXfer => exact gated_transition fun s => advances_observe fun v => advances_next _
  | stI2sv q => exact gated_execStI2sv q
  | stHcont => exact gated_execStHcont

/-- A command word is reserved, or it names a command, whose meaning WR CMD takes (R110, R112). -/
theorem decodeCmd_cases (w : Word) : decodeCmd w = .error .reservedCommand ∨
    ∃ i, decodeCmd w = .ok i ∧ (∀ d, i ≠ .wrCmd d) ∧ exec (.wrCmd w) = exec i := by
  have hw : exec (.wrCmd w) = execWrCmd w := rfl
  unfold execWrCmd at hw
  rw [hw]
  unfold decodeCmd
  split
  · exact .inl rfl
  split
  case h_1 =>
    split
    · exact .inr ⟨_, rfl, nofun, rfl⟩
    · exact .inl rfl
  case h_17 => exact .inl rfl
  all_goals exact .inr ⟨_, rfl, nofun, rfl⟩

/-- WR CMD with a reserved word (R112). -/
theorem exec_wrCmd_of_error {r : Reject} (h : decodeCmd w = .error r) : exec (.wrCmd w) s = reservedWord w s := by
  simp only [exec, execWrCmd, h]

theorem gated_reservedWord (w : Word) : Gated (reservedWord w) := gated_command (advances_refuse _)

theorem gated_exec (i : Instr) : Gated (exec i) := by
  cases i with
  | wrCmd w =>
    obtain h | ⟨j, -, hne, hj⟩ := decodeCmd_cases w
    · exact (gated_reservedWord w).congr fun _ => exec_wrCmd_of_error h
    · exact hj ▸ gated_exec_of_ne_wrCmd hne
  | _ => exact gated_exec_of_ne_wrCmd nofun

/-! ### One entry -/

@[simp] theorem runEntry_of_ok {e : Entry} (h : decode e = .ok i) : runEntry e s = exec i s := by
  simp only [runEntry, h]

/-- A reserved CMD word is the write to CMD that it stands for (R93, R112). -/
theorem runEntry_reservedCmd {r : Reject} (h : decodeCmd w = .error r) : runEntry (.cmd w) s = reservedWord w s := by
  obtain h | ⟨j, hj, -⟩ := decodeCmd_cases w
  · simp only [runEntry, decode, h, exec_wrCmd_of_error h]
  · cases hj.symm.trans h

/-- An entry of another form that names nothing (R175). -/
theorem runEntry_of_error {e : Entry} {r : Reject} (h : decode e = .error r) (he : ∀ w, e ≠ .cmd w) :
    runEntry e s = live s (refuse .badTrace) := by
  unfold runEntry
  split
  next hi => rw [h] at hi; cases hi
  next w _ => exact absurd rfl (he w)
  next => rfl

theorem gated_runEntry (e : Entry) : Gated (runEntry e) := by
  cases h : decode e with
  | ok i => exact (gated_exec i).congr fun _ => runEntry_of_ok h
  | error r =>
    cases e with
    | cmd w => exact (gated_reservedWord w).congr fun _ => runEntry_reservedCmd h
    | bus | evt | step => exact (gated_live (advances_refuse _)).congr fun _ => runEntry_of_error h nofun

/-! ### One step -/

theorem step_of_cons {e : Entry} {rest : List Entry} (h : s.pending = e :: rest) :
    step s = runEntry e { s with pending := rest } := by
  simp only [step, h, traceStep]

theorem step_of_nil (h : s.pending = []) :
    step s = orIdle s.countDraw (runEntry (Config.draw s.draws) s.countDraw) := by
  simp only [step, h, drawStep]

theorem orIdle_refused_badTrace (u t : State) : orIdle u (.next { t with refused := some .badTrace }) = .next u := rfl

theorem orIdle_eq (u t : State) : orIdle u (.next t) = .next (if t.refused = some .badTrace then u else t) := by
  simp only [orIdle]
  split <;> rfl

theorem step_badConfig (hc : configValid s.cfg = false) : step s = .refused .badConfig := by
  cases h : s.pending with
  | cons e rest => exact (step_of_cons h).trans ((gated_runEntry e).badConfig hc)
  | nil =>
    rw [step_of_nil h, (gated_runEntry _).badConfig (s := s.countDraw) hc, orIdle]

/-! ### Valid parameter sets -/

variable {cfg : Config}

theorem configValid_iff : configValid cfg = true ↔
    (1 ≤ cfg.nCh ∧ cfg.nCh ≤ 16) ∧ (1 ≤ cfg.nUart ∧ cfg.nUart ≤ 16) ∧ (1 ≤ cfg.nI2c ∧ cfg.nI2c ≤ 16) ∧
      CapOk cfg.stgCap ∧ (BindingsOk cfg ∧ ∀ p : Idx, p.val < cfg.nUart → UartOk cfg cfg.uart[p]) ∧
      (∀ c : Idx, c.val < cfg.nCh → ChanOk cfg c cfg.chan[c]) ∧ ∀ q : Idx, q.val < cfg.nI2c → I2cOk cfg cfg.i2c[q] := by
  simp only [configValid, Bool.and_eq_true, decide_eq_true_eq, and_assoc]

/-- A bound channel is one whose sink is not EXTERNAL (R11). -/
theorem chanOk_iff {c : Idx} {k : ChanCfg} : ChanOk cfg c k ↔
    CapOk k.bufCap ∧ k.bufCap ≤ cfg.stgCap ∧ (∀ p : Idx, k.sink = .uartTx p ↔ BoundTo cfg p c) ∧
      (k.sink ≠ .external → k.forceCapable = true) := by
  refine and_congr_right fun _ => and_congr_right fun _ => forall_and.trans (and_congr_right fun hsink => ?_)
  constructor
  · intro hforce hne
    cases hk : k.sink with
    | external => exact absurd hk hne
    | uartTx p => exact hforce p ((hsink p).1 hk)
  · intro hforce p hp
    exact hforce (by simp [(hsink p).2 hp])

/-- R10 of every port together: its channel exists, and no other port names it. -/
theorem bindingsOk_and_uartOk_iff :
    (BindingsOk cfg ∧ ∀ p : Idx, p.val < cfg.nUart → UartOk cfg cfg.uart[p]) ↔
      ∀ p : Idx, p.val < cfg.nUart →
        CapOk cfg.uart[p].rxCap ∧ (1 ≤ cfg.uart[p].rxLen ∧ cfg.uart[p].rxLen ≤ cfg.uart[p].rxCap) ∧
          CapOk cfg.uart[p].txCap ∧ cfg.uart[p].txCap ≤ cfg.stgCap ∧ 1 ≤ cfg.uart[p].rxDepth ∧ 1 ≤ cfg.uart[p].txDepth ∧
          ∀ c : Idx, cfg.uart[p].txDmaCh = some c →
            c.val < cfg.nCh ∧ ∀ p' : Idx, p'.val < cfg.nUart → cfg.uart[p'].txDmaCh = some c → p' = p := by
  constructor
  · rintro ⟨hbind, huart⟩ p hp
    obtain ⟨hrx, hlen, hlen', htx, hrd, htd, hstg, hch⟩ := huart p hp
    exact ⟨hrx, ⟨hlen, hlen'⟩, htx, hstg, hrd, htd,
      fun c hc => ⟨hch c hc, fun p' hp' hc' => hbind p' c ⟨hp', hc'⟩ p ⟨hp, hc⟩⟩⟩
  · refine fun h => ⟨fun p c ⟨hp, hc⟩ p' ⟨hp', hc'⟩ => ?_, fun p hp => ?_⟩
    · obtain ⟨-, -, -, -, -, -, hdma⟩ := h p' hp'
      exact (hdma c hc').2 p hp hc
    · obtain ⟨hrx, ⟨hlen, hlen'⟩, htx, hstg, hrd, htd, hdma⟩ := h p hp
      exact ⟨hrx, hlen, hlen', htx, hrd, htd, hstg, fun c hc => (hdma c hc).1⟩

end Sys2Proof.Machine

namespace Sys2Proof.Proofs

open Sys2Proof.Machine

/-- Settles O6: both sides run the entry over the state without it. -/
theorem stepRunsTraceEntry : Obligations.StepRunsTraceEntry := fun _ _ _ _ hp hd =>
  (step_of_cons hp).trans (runEntry_of_ok hd)

/-- Settles O8: a step is the drawn entry's outcome through `orIdle`, and that outcome is known for each form. -/
theorem emptyTraceDraws : Obligations.EmptyTraceDraws := by
  intro s hl hp u
  have hu : Live u := hl
  have hstep : step s = orIdle u (runEntry (Config.draw s.draws) u) := step_of_nil hp
  generalize Config.draw s.draws = e at hstep ⊢
  cases hd : decode e with
  | ok i =>
    obtain ⟨t, ht⟩ := (gated_exec i).advances hu
    exact ⟨t, ht, by rw [hstep, runEntry_of_ok hd, ht, orIdle_eq]⟩
  | error r =>
    cases e with
    | cmd w =>
      rw [runEntry_reservedCmd hd] at hstep
      refine ⟨fun hw => ?_, fun hw => ?_⟩
      · rw [hstep, reservedWord, command_on ⟨hu, hw⟩, refuse, orIdle_eq]
        rfl
      · rw [hstep, reservedWord, command, hostAccess_off hu hw, orIdle_refused_badTrace]
    | bus | evt | step =>
      dsimp only
      rw [hstep, runEntry_of_error hd nofun, live_eq hu, refuse, orIdle_refused_badTrace]

/-- Settles O10: the model's check says the same as R5 to R13, and every transition passes the gate that asks for it. -/
theorem onlyValidParametersRun : Obligations.OnlyValidParametersRun := by
  refine ⟨fun cfg => ?_, fun s i hc => ⟨(gated_exec i).badConfig hc, step_badConfig hc⟩⟩
  have hchan : (∀ c : Idx, c.val < cfg.nCh → ChanOk cfg c cfg.chan[c]) ↔ _ := forall₂_congr fun _ _ => chanOk_iff
  rw [configValid_iff, bindingsOk_and_uartOk_iff, hchan]

end Sys2Proof.Proofs

/-! ## O1: each instruction's entry is read back. -/

namespace Sys2Proof.Proofs

open Sys2Proof.Machine Sys2Proof.Laws

/-- Settles O1: by cases on the instruction, from the law of each. -/
theorem roundTripEveryInstruction : Obligations.RoundTripEveryInstruction
  | .rdCmd => RoundTrip.rdCmd | .rdArg0 => RoundTrip.rdArg0 | .rdArg1 => RoundTrip.rdArg1
  | .rdResult => RoundTrip.rdResult | .rdStgPtr => RoundTrip.rdStgPtr | .rdStgData => RoundTrip.rdStgData
  | .rdBufSel => RoundTrip.rdBufSel | .rdBufPtr => RoundTrip.rdBufPtr | .rdBufData => RoundTrip.rdBufData
  | .wrCmd d => RoundTrip.wrCmd d | .wrArg0 d => RoundTrip.wrArg0 d | .wrArg1 d => RoundTrip.wrArg1 d
  | .wrStgPtr d => RoundTrip.wrStgPtr d | .wrStgData d => RoundTrip.wrStgData d
  | .wrBufSel d => RoundTrip.wrBufSel d | .wrBufPtr d => RoundTrip.wrBufPtr d
  | .wrBufData d => RoundTrip.wrBufData d | .wrResult d => RoundTrip.wrResult d
  | .rdChstat i => RoundTrip.rdChstat i | .rdChcnt i => RoundTrip.rdChcnt i | .rdChrem i => RoundTrip.rdChrem i
  | .rdUstat i => RoundTrip.rdUstat i | .rdUrxcnt i => RoundTrip.rdUrxcnt i
  | .rdUtxcnt i => RoundTrip.rdUtxcnt i | .rdUtxlen i => RoundTrip.rdUtxlen i
  | .rdIstat i => RoundTrip.rdIstat i | .rdItxcnt i => RoundTrip.rdItxcnt i
  | .rdIrxcnt i => RoundTrip.rdIrxcnt i | .rdIwlen i => RoundTrip.rdIwlen i | .rdIrlen i => RoundTrip.rdIrlen i
  | .wrChstat i d => RoundTrip.wrChstat i d | .wrChcnt i d => RoundTrip.wrChcnt i d
  | .wrChrem i d => RoundTrip.wrChrem i d | .wrUstat i d => RoundTrip.wrUstat i d
  | .wrUrxcnt i d => RoundTrip.wrUrxcnt i d | .wrUtxcnt i d => RoundTrip.wrUtxcnt i d
  | .wrUtxlen i d => RoundTrip.wrUtxlen i d | .wrIstat i d => RoundTrip.wrIstat i d
  | .wrItxcnt i d => RoundTrip.wrItxcnt i d | .wrIrxcnt i d => RoundTrip.wrIrxcnt i d
  | .wrIwlen i d => RoundTrip.wrIwlen i d | .wrIrlen i d => RoundTrip.wrIrlen i d
  | .rsv09 d => RoundTrip.rsv09 d | .rsv0A b d => RoundTrip.rsv0A b d | .rsv0C b d => RoundTrip.rsv0C b d
  | .rsvD0 b d => RoundTrip.rsvD0 b d | .rsvE0 b d => RoundTrip.rsvE0 b d | .nop => RoundTrip.nop
  | .chAcquire c => RoundTrip.chAcquire c | .chEnable c => RoundTrip.chEnable c
  | .chDisable c => RoundTrip.chDisable c | .chForce c => RoundTrip.chForce c | .chPoll c => RoundTrip.chPoll c
  | .chSetcnt c => RoundTrip.chSetcnt c | .uartFill p => RoundTrip.uartFill p
  | .uartStart p => RoundTrip.uartStart p | .uartSendDma p => RoundTrip.uartSendDma p
  | .uartRxReady p => RoundTrip.uartRxReady p | .uartTxReady p => RoundTrip.uartTxReady p
  | .uartClearRx p => RoundTrip.uartClearRx p | .i2cWrite q => RoundTrip.i2cWrite q
  | .i2cRead q => RoundTrip.i2cRead q | .i2cProbe q => RoundTrip.i2cProbe q | .evRxb p b => RoundTrip.evRxb p b
  | .evRxfe p x => RoundTrip.evRxfe p x | .evTxld p x => RoundTrip.evTxld p x
  | .evTxsh p x => RoundTrip.evTxsh p x | .evChrq c x => RoundTrip.evChrq c x
  | .evI2cd q d => RoundTrip.evI2cd q d | .stRxsv p => RoundTrip.stRxsv p | .stRxer p => RoundTrip.stRxer p
  | .stTxsv p => RoundTrip.stTxsv p | .stXfer c => RoundTrip.stXfer c | .stChcp c => RoundTrip.stChcp c
  | .stI2sv q => RoundTrip.stI2sv q | .stHcont => RoundTrip.stHcont

end Sys2Proof.Proofs

/-! ## O9: a recorded stop is the answer of every meaning behind the gate. -/

namespace Sys2Proof.Machine

variable {s t : State} {m : State → Result}

theorem Gated.faulted {f : Fault} (hm : Gated m) (hc : configValid s.cfg = true) (hf : s.fault = some f) :
    m s = .fault f := by
  obtain ⟨k, hk⟩ := hm
  simp [hk, live, hc, hf]

theorem Gated.wasRefused {r : Refusal} (hm : Gated m) (hc : configValid s.cfg = true) (hf : s.fault = none)
    (hr : s.refused = some r) : m s = .refused r := by
  obtain ⟨k, hk⟩ := hm
  simp [hk, live, hc, hf, hr]

/-- A meaning that answers a next state ran (R61, R173, R193). -/
theorem Gated.live (hm : Gated m) (h : m s = .next t) : Live s := by
  obtain ⟨k, hk⟩ := hm
  exact (live_next ((hk s).symm.trans h)).1

theorem step_faulted {f : Fault} (hc : configValid s.cfg = true) (hf : s.fault = some f) : step s = .fault f := by
  cases h : s.pending with
  | cons e rest => exact (step_of_cons h).trans ((gated_runEntry e).faulted hc hf)
  | nil => rw [step_of_nil h, (gated_runEntry _).faulted (s := s.countDraw) hc hf, orIdle]

theorem step_wasRefused {r : Refusal} (hc : configValid s.cfg = true) (hf : s.fault = none)
    (hr : s.refused = some r) : step s = .refused r := by
  cases h : s.pending with
  | cons e rest => exact (step_of_cons h).trans ((gated_runEntry e).wasRefused hc hf hr)
  | nil => rw [step_of_nil h, (gated_runEntry _).wasRefused (s := s.countDraw) hc hf hr, orIdle]

end Sys2Proof.Machine

namespace Sys2Proof.Proofs

open Sys2Proof.Machine

/-- Settles O9: the gate answers the recorded reason, for the instruction and for the entry a step takes. -/
theorem stoppedMachineStays : Obligations.StoppedMachineStays := fun _ i hc =>
  ⟨fun _ hf => ⟨(gated_exec i).faulted hc hf, step_faulted hc hf⟩,
    fun _ hf hr => ⟨(gated_exec i).wasRefused hc hf hr, step_wasRefused hc hf hr⟩⟩

end Sys2Proof.Proofs

/-! ## O23: the fields of the three status words. -/

namespace Sys2Proof.Machine

theorem toNat_append_mod {m n : Nat} (a : BitVec m) (b : BitVec n) : (a ++ b).toNat % 2 ^ n = b.toNat := by
  have h := congrArg BitVec.toNat (field_append_low a b)
  rwa [field_toNat, Nat.pow_zero, Nat.div_one] at h

theorem toNat_lt_of_field_high {w : Word} (h : field w 6 10 = 0#10) : w.toNat < 64 := by
  have hf := field_toNat w 6 10
  rw [h, BitVec.toNat_ofNat, Nat.zero_mod] at hf
  have hw := w.isLt
  omega

variable (x : Channel) (u : UartPort) (y : I2cPort)

/-! ### CHSTAT (R34) -/

theorem chstat_state : (chstat x).toNat % 4 = x.state.enc.toNat := toNat_append_mod ..

theorem chstat_bits : (chstat x).getLsbD 2 = x.ie ∧ (chstat x).getLsbD 3 = x.pend ∧ (chstat x).getLsbD 4 = x.fpend ∧
    (chstat x).getLsbD 5 = x.rpend := by
  simp only [chstat, BitVec.getLsbD_append]
  simp

theorem chstat_lt : (chstat x).toNat < 64 := toNat_lt_of_field_high <| by
  apply BitVec.eq_of_getLsbD_eq
  intro i hi
  interval_cases i <;> simp only [chstat, field, BitVec.getLsbD_append, BitVec.getLsbD_extractLsb'] <;> simp

/-! ### USTAT (R37) -/

theorem ustat_bits : (ustat u).getLsbD 0 = u.txIe ∧ (ustat u).getLsbD 1 = u.dir.enc.getLsbD 0 ∧
    (ustat u).getLsbD 2 = u.oerr ∧ (ustat u).getLsbD 3 = u.ferr ∧ (ustat u).getLsbD 4 = trmt u ∧
    (ustat u).getLsbD 5 = rxda u := by
  simp only [ustat, BitVec.getLsbD_append]
  simp

theorem ustat_lt : (ustat u).toNat < 64 := toNat_lt_of_field_high <| by
  apply BitVec.eq_of_getLsbD_eq
  intro i hi
  interval_cases i <;> simp only [ustat, field, BitVec.getLsbD_append, BitVec.getLsbD_extractLsb'] <;> simp

theorem trmt_iff : trmt u = true ↔ u.txq = [] ∧ u.tsr = none := by
  simp [trmt]

theorem rxda_iff : rxda u = true ↔ u.rxq ≠ [] := by
  simp [rxda]

/-! ### ISTAT (R41, R57) -/

theorem istat_phase : (istat y).toNat % 8 = y.phase.toNat := toNat_append_mod ..

theorem istat_bits : (istat y).getLsbD 3 = y.mode.enc.getLsbD 0 ∧ (istat y).getLsbD 4 = y.busy ∧
    (istat y).getLsbD 5 = y.ie ∧ (istat y).getLsbD 6 = y.ackstat ∧ (istat y).getLsbD 7 = y.mif := by
  simp only [istat, BitVec.getLsbD_append]
  simp

theorem istat_field_bop : field (istat y) 8 8 = 0#5 ++ y.bop.enc := by
  apply BitVec.eq_of_getLsbD_eq
  intro i hi
  interval_cases i <;> simp only [istat, field, BitVec.getLsbD_append, BitVec.getLsbD_extractLsb'] <;> simp

theorem istat_bop : (istat y).toNat / 256 = y.bop.enc.toNat := by
  have h := field_toNat (istat y) 8 8
  have hb : (0#5 ++ y.bop.enc).toNat = y.bop.enc.toNat := by
    rw [BitVec.toNat_append, BitVec.toNat_ofNat, Nat.zero_mod, Nat.zero_shiftLeft, Nat.zero_or]
  have hw := (istat y).isLt
  rw [istat_field_bop, hb] at h
  omega

end Sys2Proof.Machine

namespace Sys2Proof.Proofs

open Sys2Proof.Machine

/-- Settles O23: a read of a view of an instance that exists returns its status word, whose fields are known. -/
theorem statusViewBits : Obligations.StatusViewBits := by
  refine fun s i hs => ⟨fun hi => ⟨_, hostRead_on hs, ?_⟩, fun hi => ⟨_, hostRead_on hs, ?_⟩,
    fun hi => ⟨_, hostRead_on hs, ?_⟩⟩
  · have hv : chView i chstat s = chstat (s.chan i) := if_pos hi
    obtain ⟨hie, hpend, hfpend, hrpend⟩ := chstat_bits (s.chan i)
    simp only [hv]
    refine ⟨(chstat_state _).trans ?_, hie, hpend, hfpend, hrpend, chstat_lt _⟩
    cases (s.chan i).state <;> rfl
  · have hv : uartView i ustat s = ustat (s.port i) := if_pos hi
    obtain ⟨htxIe, hdir, hoerr, hferr, htrmt, hrxda⟩ := ustat_bits (s.port i)
    simp only [hv]
    refine ⟨htxIe, ?_, hoerr, hferr, htrmt ▸ trmt_iff _, hrxda ▸ rxda_iff _, ustat_lt _⟩
    rw [hdir]
    cases (s.port i).dir <;> decide
  · have hv : i2cView i istat s = istat (s.i2cp i) := if_pos hi
    obtain ⟨hmode, hbusy, hie, hack, hmif⟩ := istat_bits (s.i2cp i)
    simp only [hv]
    refine ⟨istat_phase _, ?_, hbusy, hie, hack, hmif, (istat_bop _).trans ?_⟩
    · rw [hmode]
      cases (s.i2cp i).mode <;> decide
    · cases (s.i2cp i).bop <;> rfl

end Sys2Proof.Proofs

/-! ## O52 and O54: the reset state. -/

namespace Sys2Proof.Machine

variable {cfg : Config}

@[simp] theorem State.mem_init (cfg : Config) (b : Buf) : (State.init cfg).mem b = [] := by
  cases b <;> simp [State.mem, Channel.reset, UartPort.reset, I2cPort.reset]
  rfl

theorem live_init (h : configValid cfg = true) : Live (State.init cfg) := ⟨h, rfl, rfl⟩

theorem chanInv_reset {k : ChanCfg} (h : 1 ≤ k.bufCap) : ChanInv k Channel.reset := by
  constructor <;> simp [Channel.reset]
  omega

theorem uartInv_reset {k : UartCfg} (h : 1 ≤ k.rxLen) : UartInv k UartPort.reset := by
  constructor <;> simp [UartPort.reset]
  omega

theorem i2cInv_reset (k : I2cCfg) : I2cInv k I2cPort.reset := by
  constructor <;> simp [I2cPort.reset]

/-- The buffer window names cell 0 of serial port 0's rx_buf, and port 0 exists (R6). -/
theorem windowInv_init (h : configValid cfg = true) : WindowInv (State.init cfg) where
  stgPtr_le := Nat.zero_le _
  bufSel_legal := (by decide : selLegal 0 = true)
  bufSel_present := by
    have hk : selCount cfg (selKind 0) = cfg.nUart := rfl
    have hi : (selIdx 0).val = 0 := rfl
    obtain ⟨-, ⟨hn, -⟩, -⟩ : CountsOk cfg := cfg_counts (s := State.init cfg) h
    exact hi ▸ hk ▸ hn
  bufPtr_le _ _ := Nat.zero_le _

theorem inv_init (h : configValid cfg = true) : Inv (State.init cfg) where
  cells := ⟨fun b => by simp, fun b _ => by simp⟩
  chan c hc := State.chan_init cfg c ▸ chanInv_reset (cap_bounds (s := State.init cfg) h (b := .chBuf c) hc).1
  uart p hp := by
    obtain ⟨-, hlen, -⟩ := cfg_uart (s := State.init cfg) h hp
    exact State.port_init cfg p ▸ uartInv_reset hlen
  i2c q _ := State.i2cp_init cfg q ▸ i2cInv_reset _
  window := windowInv_init h
  wait := trivial

end Sys2Proof.Machine

namespace Sys2Proof.Proofs

open Sys2Proof.Machine

/-- Settles O52: the records by the reset lemmas, USTAT by the view read of an idle port. -/
theorem resetLeaves : Obligations.ResetLeaves := by
  refine ⟨fun cfg i => ⟨State.chan_init cfg i, State.port_init cfg i, State.i2cp_init cfg i⟩,
    fun cfg => ⟨rfl, rfl, rfl, rfl, rfl, rfl, rfl, fun b a => by simp, rfl, rfl, rfl, rfl, rfl⟩,
    fun cfg hc p hp => ⟨_, hostRead_on ⟨live_init hc, rfl⟩, ?_⟩⟩
  have hv : uartView p ustat (State.init cfg) = ustat ((State.init cfg).port p) := if_pos hp
  rw [hv, State.port_init]
  exact (by decide : ustat UartPort.reset = 0x0010)

/-- Settles O54: each part of the invariant at reset. -/
theorem resetMeetsInvariant : Obligations.ResetMeetsInvariant := ⟨fun _ => inv_init, rfl, by decide⟩

end Sys2Proof.Proofs

/-! ## What an instruction can change: one relation per kind of record, then one for the machine. -/

namespace Sys2Proof.Machine

/-- The records that instruction `i`, taken in `s`, may leave in channel `c` (R115 to R123, R108, R146). -/
inductive ChanWrite (s : State) (c : Idx) : Instr → Channel → Prop
  | keep {i : Instr} : ChanWrite s c i (s.chan c)
  | acquire : ChanWrite s c (.chAcquire c) { s.chan c with state := .assigned, pend := false }
  | enable : ChanWrite s c (.chEnable c) (startBlock (s.chan c))
  | disable : ChanWrite s c (.chDisable c)
      { s.chan c with state := .disabled, xfer := .done, ie := false, fpend := false, rpend := false }
  | force (he : eligible (s.chan c) = true) : ChanWrite s c (.chForce c) { s.chan c with fpend := true }
  | poll : ChanWrite s c (.chPoll c)
      { s.chan c with xfer := if (s.chan c).xfer = .done then .idle else (s.chan c).xfer }
  | setcnt (h : s.arg0.toNat < (s.chanCfg c).bufCap) : ChanWrite s c (.chSetcnt c) { s.chan c with cnt := s.arg0 }
  | store {d : Word} (h : s.bufPtr.toNat < (s.chanCfg c).bufCap) : ChanWrite s c (.wrBufData d)
      { s.chan c with buf := Mem.put (s.chan c).buf s.bufPtr.toNat (lowByte d) }
  | transfer (he : eligible (s.chan c) = true) : ChanWrite s c (.stXfer c)
      (endBlock (takeRequest { s.chan c with xidx := (s.chan c).xidx + 1, rem := (s.chan c).rem - 1 }))
  | complete : ChanWrite s c (.stChcp c) { s.chan c with pend := false, xfer := .done }
  | request {i : Instr} :
      ChanWrite s c i (if eligible (s.chan c) then { s.chan c with rpend := true } else s.chan c)
  | send {p : Idx} (hp : (s.portCfg p).txDmaCh = some c) (h : s.arg0 ≠ 0) :
      ChanWrite s c (.uartSendDma p) (sendBlock s (saturate s.arg0 (s.chanCfg c).bufCap) (s.chan c))

/-- The records that instruction `i`, taken in `s`, may leave in serial port `p` (R129 to R146, R121). -/
inductive PortWrite (s : State) (p : Idx) : Instr → UartPort → Prop
  | keep {i : Instr} : PortWrite s p i (s.port p)
  | overrun {b : Byte} : PortWrite s p (.evRxb p b) { s.port p with oerr := true }
  | arrive {b : Byte} (h : (s.port p).rxq.length ≠ (s.portCfg p).rxDepth) :
      PortWrite s p (.evRxb p b) { s.port p with rxq := (s.port p).rxq ++ [b] }
  | frameError {x : Byte} : PortWrite s p (.evRxfe p x) { s.port p with ferr := true }
  | receive : PortWrite s p (.stRxsv p) (endFrame (s.portCfg p).rxLen (storeRx (s.portCfg p).rxLen
      ((s.port p).rxq.headD 0) { s.port p with rxq := (s.port p).rxq.tail }))
  | recover : PortWrite s p (.stRxer p) { s.port p with rxq := [], rxCounter := 0, oerr := false, ferr := false }
  | rxReady : PortWrite s p (.uartRxReady p) { s.port p with rxDone := false }
  | txReady : PortWrite s p (.uartTxReady p) { s.port p with txDone := false }
  | clearRx : PortWrite s p (.uartClearRx p) { s.port p with
      rxBuf := Mem.fill (lowByte s.arg0) (s.portCfg p).rxCap (s.port p).rxBuf, rxCounter := 0 }
  | fill (h : (s.port p).txIe = false) : PortWrite s p (.uartFill p) { s.port p with
      txBuf := s.fromStg (saturate s.arg0 (s.portCfg p).txCap) (s.port p).txBuf,
      txLength := count16 (saturate s.arg0 (s.portCfg p).txCap) }
  | start : PortWrite s p (.uartStart p) { s.port p with
      txCounter := 0, txDone := false, txIe := true,
      dir := if (s.portCfg p).halfDuplex then .tx else (s.port p).dir }
  | sendByte {v : Byte} (hi : (s.port p).txIe = true) (hm : txMore (s.port p) = true)
      (hq : (s.port p).txq.length < (s.portCfg p).txDepth) : PortWrite s p (.stTxsv p)
      { s.port p with txq := (s.port p).txq ++ [v], txCounter := (s.port p).txCounter + 1 }
  | sendEnd : PortWrite s p (.stTxsv p) (endSend (s.portCfg p).halfDuplex (s.port p))
  | load {x : Byte} :
      PortWrite s p (.evTxld p x) { s.port p with tsr := (s.port p).txq.head?, txq := (s.port p).txq.tail }
  | shift {x : Byte} : PortWrite s p (.evTxsh p x) { s.port p with
      tsr := none,
      wireOut := (s.port p).wireOut ++ [((s.port p).tsr.getD 0, wireOk (s.portCfg p).halfDuplex (s.port p))] }
  | deliver {c : Idx} {v : Byte} (hq : (s.port p).txq.length < (s.portCfg p).txDepth) :
      PortWrite s p (.stXfer c) { s.port p with txq := (s.port p).txq ++ [v] }

/-- How the command with OP `op` comes to arm port `q`: as the host's command, with the lengths it demands, or as the
word a held host has waited with (R151 to R153, R156). -/
inductive Arms (s : State) (q : Idx) : Instr → Nat → Prop
  | write (h : s.arg0 ≠ 0) : Arms s q (.i2cWrite q) 0
  | read (h : s.arg0 ≠ 0) (h' : s.arg1 ≠ 0) : Arms s q (.i2cRead q) 1
  | probe : Arms s q (.i2cProbe q) 2
  | resume {w : Word} (hw : s.hostWait = .preArm w) (hq : cmdIdx w = q) : Arms s q .stHcont (cmdOp w)

/-- The records that a phase step may make of the port `x` (R158 to R165). -/
inductive PhaseWrite (x : I2cPort) : I2cPort → Prop
  | sendByte {v : Byte} (h : x.phase = 0 ∨ x.phase = 1 ∧ x.txCounter.toNat < x.writeLength.toNat) :
      PhaseWrite x (issue { x with mif := false, txCounter := x.txCounter + 1, phase := 1 } .send (some v))
  | endBytes {op : BusOp} (hop : op ≠ .none) (h : x.phase = 1) :
      PhaseWrite x (issue { x with mif := false, phase := 2 } op none)
  | writeEnd : PhaseWrite x { x with mif := false, busy := false, ie := false }
  | readAddress {v : Byte} (hm : x.mode = .read) (h : x.phase = 2) :
      PhaseWrite x (issue { x with mif := false, phase := 3 } .send (some v))
  | receive (hm : x.mode = .read) (h : x.phase = 3) :
      PhaseWrite x (issue { x with mif := false, phase := 4 } .rcen none)
  | store (hm : x.mode = .read) (h : x.phase = 4) (hr : (x.rxCounter + 1).toNat < x.readLength.toNat) :
      PhaseWrite x (issue { x with
        mif := false, rxData := Mem.write x.rxData x.rxCounter.toNat x.rcv, rxCounter := x.rxCounter + 1 } .ackrcv none)
  | storeLast (hm : x.mode = .read) (h : x.phase = 4) :
      PhaseWrite x (issue { x with
        mif := false, rxData := Mem.write x.rxData x.rxCounter.toNat x.rcv, rxCounter := x.rxCounter + 1, phase := 5 }
        .nackstop none)
  | readEnd : PhaseWrite x { x with mif := false, busy := false, txCounter := 0, rxCounter := 0, ie := false }

/-- The records that instruction `i`, taken in `s`, may leave in I2C port `q` (R151 to R166). -/
inductive I2cWrite (s : State) (q : Idx) : Instr → I2cPort → Prop
  | keep {i : Instr} : I2cWrite s q i (s.i2cp q)
  | write {i : Instr} (h : Arms s q i 0) : I2cWrite s q i (arm { s.i2cp q with
      txData := s.fromStg (saturate s.arg0 (s.i2cCfg q).txCap) (s.i2cp q).txData,
      writeLength := count16 (saturate s.arg0 (s.i2cCfg q).txCap), mode := .write })
  | read {i : Instr} (h : Arms s q i 1) : I2cWrite s q i (arm { s.i2cp q with
      txData := s.fromStg (saturate s.arg0 (s.i2cCfg q).txCap) (s.i2cp q).txData,
      writeLength := count16 (saturate s.arg0 (s.i2cCfg q).txCap),
      readLength := count16 (saturate s.arg1 (s.i2cCfg q).rxCap), mode := .read })
  | probe {i : Instr} {op : Nat} (h : Arms s q i op) : I2cWrite s q i (arm { s.i2cp q with
      txData := Mem.put (s.i2cp q).txData 0 (lowByte s.arg0), writeLength := 1, mode := .write })
  | complete {d : Byte} (h : (s.i2cp q).bop ≠ .none) :
      I2cWrite s q (.evI2cd q d) { complete (s.i2cp q) d with bop := .none, mif := true }
  | phase {y : I2cPort} (hm : (s.i2cp q).mif = true) (hy : PhaseWrite (s.i2cp q) y) : I2cWrite s q (.stI2sv q) y

/-- The instructions that write RESULT (R28). -/
def WritesResult (i : Instr) : Prop :=
  ∃ k, i ∈ [Instr.chPoll k, .uartSendDma k, .uartRxReady k, .uartTxReady k, .i2cRead k, .i2cProbe k, .stHcont]

/-- Everything instruction `i`, taken in `s`, can do: updates one after another, each under the condition its rule gives
it. The instance a record update names exists, where the invariant holds. -/
inductive Changes (s : State) (i : Instr) : State → Prop
  | refl : Changes s i s
  | enter {w : Word} (h : i = .wrCmd w ∨ encode i = .cmd w) : Changes s i { s with cmd := w }
  | mark {t : State} (h : Changes s i t) (f : Option Fault) (r : Option Refusal) (d : Word) (e : List (Idx × Byte)) :
      Changes s i { t with fault := f, refused := r, rdata := d, extOut := e }
  | chan {t : State} {c : Idx} {y : Channel} (h : Changes s i t) (hc : Inv s → c.val < s.cfg.nCh)
      (hy : ChanWrite s c i y) : Changes s i (t.setChan c y)
  | port {t : State} {p : Idx} {y : UartPort} (h : Changes s i t) (hp : p.val < s.cfg.nUart)
      (hy : PortWrite s p i y) : Changes s i (t.setPort p y)
  | i2c {t : State} {q : Idx} {y : I2cPort} (h : Changes s i t) (hq : Inv s → q.val < s.cfg.nI2c)
      (hy : I2cWrite s q i y) : Changes s i (t.setI2c q y)
  | result {t : State} (h : Changes s i t) (hi : WritesResult i) (w : Word) : Changes s i (t.setResult w)
  | wait {t : State} {w : HostWait} (h : Changes s i t) (hw : Inv s → WaitInv (t.setWait w)) : Changes s i (t.setWait w)
  | arg0 {d : Word} (hi : i = .wrArg0 d) (hw : s.hostWait = .none) : Changes s i { s with arg0 := d }
  | arg1 {d : Word} (hi : i = .wrArg1 d) (hw : s.hostWait = .none) : Changes s i { s with arg1 := d }
  | stgPtr {p : Word} (hp : p.toNat ≤ s.cfg.stgCap) : Changes s i { s with stgPtr := p }
  | stgPut {d : Word} (hi : i = .wrStgData d) (h : s.stgPtr.toNat < s.cfg.stgCap) :
      Changes s i { s with stg := Mem.put s.stg s.stgPtr.toNat (lowByte d), stgPtr := s.stgPtr + 1 }
  | stgGet {v : Word} (h : s.stgPtr.toNat ≠ s.cfg.stgCap) :
      Changes s i { s with rdata := v, stgPtr := s.stgPtr + 1 }
  | bufSel {d : Word} (hd : selLegal d = true) (h : (selIdx d).val < selCount s.cfg (selKind d)) :
      Changes s i { s with bufSel := d, bufPtr := 0 }
  | bufPtr {p : Word} {b : Buf} (hb : sel s.bufSel = some b) (hp : p.toNat ≤ s.cap b) : Changes s i (s.setBufPtr p)
  | bufNext {t : State} {b : Buf} (h : Changes s i t) (ht : t.bufSel = s.bufSel) (hb : sel s.bufSel = some b)
      (hp : s.bufPtr.toNat ≠ s.cap b) : Changes s i (t.setBufPtr (s.bufPtr + 1))

/-! ### Outcomes -/

variable {s t u : State} {i : Instr} {o : Result} {k : State → Result} {en : State → Bool} {w : Word}

/-- The next state that `o` may answer is one that `i` can reach from `s`. -/
def Yields (s : State) (i : Instr) (o : Result) : Prop := ∀ t, o = .next t → Changes s i t

theorem yields_next (h : Changes s i t) : Yields s i (.next t) := fun _ ht => Host.Outcome.next.inj ht ▸ h

theorem yields_refuse {r : Refusal} (h : Changes s i u) : Yields s i (refuse r u) := yields_next (h.mark ..)

theorem yields_raise {f : Fault} (h : Changes s i u) : Yields s i (raise f u) := yields_next (h.mark ..)

theorem yields_ite {c : Prop} [Decidable c] {a b : Result} (ha : c → Yields s i a) (hb : ¬c → Yields s i b) :
    Yields s i (if c then a else b) := by
  split
  · exact ha ‹_›
  · exact hb ‹_›

theorem yields_observe {b : Buf} {a : Nat} {g : Byte → Result} (h : Changes s i u) (hg : ∀ v, Yields s i (g v)) :
    Yields s i (observe u b a g) := by
  cases hv : Mem.read (u.mem b) a with
  | some v => exact observe_some hv ▸ hg v
  | none => exact observe_none hv ▸ yields_next (h.mark ..)

theorem yields_withSel {g : Buf → Result} (hg : ∀ b, sel s.bufSel = some b → Yields s i (g b)) :
    Yields s i (withSel s g) := by
  unfold withSel
  split
  next hb => exact hg _ hb
  next => exact yields_refuse .refl

theorem yields_windowRead {b : Buf} {ptr : Word} {bump : Word → State → State}
    (h : ptr.toNat ≠ s.cap b → ∀ v, Changes s i (bump (ptr + 1) { s with rdata := v })) :
    Yields s i (windowRead s b ptr bump) :=
  yields_ite (fun _ => yields_refuse .refl) fun hp => yields_observe .refl fun _ => yields_next (h hp _)

theorem yields_transition (hk : en s = true → Yields s i (k s)) : Yields s i (transition en s k) := by
  intro t ht
  obtain ⟨he, hn⟩ | ⟨-, rfl⟩ := (transition_next ht).2
  · exact hk he t hn
  · exact Changes.refl.mark ..

theorem yields_hostAccess (hk : s.hostWait = .none → Yields s i (k s)) : Yields s i (hostAccess s k) :=
  yields_transition fun he => hk (of_decide_eq_true he)

theorem yields_hostRead (v : State → Word) : Yields s i (hostRead s v) :=
  yields_hostAccess fun _ => yields_next (Changes.refl.mark ..)

theorem yields_hostRefused (r : Refusal) : Yields s i (hostRefused r s) := yields_hostAccess fun _ => yields_refuse .refl

theorem yields_command (hk : s.hostWait = .none → Yields s i (k { s with cmd := w })) : Yields s i (command w s k) :=
  yields_hostAccess hk

theorem yields_chanCommand {op : BitVec 4} {c : Idx} (he : encode i = .cmd (cmdWord 1 op c))
    (hk : c.val < s.cfg.nCh → Yields s i (k { s with cmd := cmdWord 1 op c })) : Yields s i (chanCommand op c s k) :=
  yields_command fun _ => yields_ite hk fun _ => yields_next (.enter (.inr he))

theorem yields_uartCommand {op : BitVec 4} {p : Idx} (he : encode i = .cmd (cmdWord 2 op p))
    (hk : p.val < s.cfg.nUart → Yields s i (k { s with cmd := cmdWord 2 op p })) : Yields s i (uartCommand op p s k) :=
  yields_command fun _ => yields_ite hk fun _ => yields_next (.enter (.inr he))

theorem yields_uartQuery {op : BitVec 4} {p : Idx} (he : encode i = .cmd (cmdWord 2 op p)) (hi : WritesResult i)
    (hk : p.val < s.cfg.nUart → Yields s i (k { s with cmd := cmdWord 2 op p })) : Yields s i (uartQuery op p s k) :=
  yields_command fun _ => yields_ite hk fun _ => yields_next (.result (.enter (.inr he)) hi 0)

/-! ### Command words -/

@[simp] theorem cmdIdx_cmdWord (u o : BitVec 4) (q : Idx) : cmdIdx (cmdWord u o q) = q := idxAt_cmdWord u o q

@[simp] theorem cmdOp_cmdWord (u o : BitVec 4) (q : Idx) : cmdOp (cmdWord u o q) = o.toNat := by
  have h := field_append_high (u ++ o ++ BitVec.ofFin (w := 4) q) 0#4 4 4
  have h' := field_append_high (u ++ o) (BitVec.ofFin (w := 4) q) 0 4
  exact congrArg BitVec.toNat (h.trans (h'.trans (field_append_low u o)))

/-- A command word is the one that its UNIT, OP and IDX make (R87). -/
theorem cmdWord_of_fields {u o : BitVec 4} (h : field w 0 4 = 0) (hu : (field w 12 4).toNat = u.toNat)
    (ho : (field w 8 4).toNat = o.toNat) : cmdWord u o (idxAt w 4) = w := by
  rw [← BitVec.eq_of_toNat_eq hu, ← BitVec.eq_of_toNat_eq ho, cmdWord_fields h]

/-- A word that names a command is the word the command encodes to (R87, R89 to R92). -/
theorem encode_of_decodeCmd (h : decodeCmd w = .ok i) : encode i = .cmd w := by
  unfold decodeCmd at h
  split at h
  · cases h
  next hlow =>
    have hlow := not_not.1 hlow
    split at h
    case h_1 hu ho =>
      split at h
      next hidx =>
        cases h
        have hi : idxAt w 4 = 0 := congrArg BitVec.toFin hidx
        exact congrArg Entry.cmd (hi ▸ cmdWord_of_fields (u := 0) (o := 0) hlow hu ho)
      next => cases h
    case h_17 => cases h
    all_goals
      rename_i hu ho
      cases h
      exact congrArg Entry.cmd (cmdWord_of_fields hlow hu ho)

/-- WR CMD acts as a command whose encoding is its word; every other instruction acts as itself (R110). -/
theorem actsAs_eq_or (i : Instr) : actsAs i = i ∨ ∃ w, i = .wrCmd w ∧ encode (actsAs i) = .cmd w := by
  cases i with
  | wrCmd w =>
    cases h : decodeCmd w with
    | error r => exact .inl (by simp only [actsAs, h]; rfl)
    | ok j => exact .inr ⟨w, rfl, by simp only [actsAs, h]; exact encode_of_decodeCmd h⟩
  | _ => exact .inl rfl

/-! ### What an enabled transition may rely on -/

theorem lt_of_decide_and {m n : Nat} {b : Bool} (h : (decide (m < n) && b) = true) : m < n :=
  of_decide_eq_true (Bool.and_eq_true_iff.1 h).1

/-- The channel that a port is bound to exists (R10). -/
theorem txDmaCh_present (hc : configValid s.cfg = true) {p c : Idx} (hp : p.val < s.cfg.nUart)
    (h : (s.portCfg p).txDmaCh = some c) : c.val < s.cfg.nCh := by
  obtain ⟨-, -, -, -, -, -, -, hdma⟩ := cfg_uart hc hp
  exact hdma c h

/-- The port that is a channel's sink exists (R11). -/
theorem sink_present (hc : configValid s.cfg = true) {c p : Idx} (hn : c.val < s.cfg.nCh)
    (h : (s.chanCfg c).sink = .uartTx p) : p.val < s.cfg.nUart := by
  obtain ⟨-, -, hsink⟩ := cfg_chan hc hn
  exact ((hsink p).1.1 h).1

/-! ### Arming, holding and the phases -/

theorem waitInv_preArm {q : Idx} (hi : cmdIdx w = q) (hq : q.val < s.cfg.nI2c)
    (h : decodeCmd w = .ok (.i2cWrite q) ∧ s.arg0 ≠ 0 ∨ decodeCmd w = .ok (.i2cRead q) ∧ s.arg0 ≠ 0 ∧ s.arg1 ≠ 0 ∨
      decodeCmd w = .ok (.i2cProbe q)) : WaitInv (s.setWait (.preArm w)) := by
  subst hi
  exact ⟨hq, h⟩

theorem yields_armOrHold {q : Idx} {g : State → State} (h : Changes s i u)
    (hw : WaitInv (u.setWait (.preArm u.cmd))) (hg : Changes s i (g u)) : Yields s i (armOrHold q u g) :=
  yields_ite (fun _ => yields_next (h.wait fun _ => hw)) fun _ => yields_next hg

theorem Changes.writeArm {q : Idx} (h : Changes s i u) (ha : Arms s q i 0) (hq : Inv s → q.val < s.cfg.nI2c)
    (hu : u = { s with cmd := u.cmd, hostWait := u.hostWait }) : Changes s i (writeArm q u) := by
  rw [hu] at h ⊢
  exact .i2c h hq (.write ha)

theorem Changes.readArm {q : Idx} (h : Changes s i u) (ha : Arms s q i 1) (hq : Inv s → q.val < s.cfg.nI2c)
    (hu : u = { s with cmd := u.cmd, hostWait := u.hostWait }) : Changes s i (readArm q u) := by
  rw [hu] at h ⊢
  exact .wait (.i2c h hq (.read ha)) hq

theorem Changes.probeArm {q : Idx} {op : Nat} (h : Changes s i u) (ha : Arms s q i op) (hq : Inv s → q.val < s.cfg.nI2c)
    (hu : u = { s with cmd := u.cmd, hostWait := u.hostWait }) : Changes s i (probeArm q u) := by
  rw [hu] at h ⊢
  exact .wait (.i2c h hq (.probe ha)) hq

section Phases

variable {q : Idx} (hq : q.val < s.cfg.nI2c) (hm : (s.i2cp q).mif = true)
include hq hm

theorem yields_phase {y : I2cPort} (hy : PhaseWrite (s.i2cp q) y) : Yields s (.stI2sv q) (.next (s.setI2c q y)) :=
  yields_next (.i2c .refl (fun _ => hq) (.phase hm hy))

theorem yields_sendNext
    (h : (s.i2cp q).phase = 0 ∨ (s.i2cp q).phase = 1 ∧ (s.i2cp q).txCounter.toNat < (s.i2cp q).writeLength.toNat) :
    Yields s (.stI2sv q) (sendNext q s { s.i2cp q with mif := false } 1) :=
  yields_observe .refl fun _ => yields_phase hq hm (.sendByte h)

theorem yields_phaseBytes {op : BusOp} (hop : op ≠ .none) (h : (s.i2cp q).phase = 1) :
    Yields s (.stI2sv q) (phaseBytes q s { s.i2cp q with mif := false } op) :=
  yields_ite (fun hc => yields_sendNext hq hm (.inr ⟨h, hc⟩)) fun _ => yields_phase hq hm (.endBytes hop h)

end Phases

/-! ### The instructions with more than one outcome -/

theorem yields_execStI2sv (q : Idx) : Yields s (.stI2sv q) (execStI2sv q s) := yields_transition fun he => by
  simp only [i2svEnabled, Bool.and_eq_true, decide_eq_true_eq] at he
  obtain ⟨⟨hq, hm⟩, -⟩ := he
  dsimp only
  split
  next hp => exact yields_sendNext hq hm (.inl (BitVec.eq_of_toNat_eq hp))
  next hp _ => exact yields_phaseBytes hq hm nofun (BitVec.eq_of_toNat_eq hp)
  next => exact yields_phase hq hm .writeEnd
  next hp _ => exact yields_phaseBytes hq hm nofun (BitVec.eq_of_toNat_eq hp)
  next hp hr =>
    exact yields_observe .refl fun _ => yields_phase hq hm (.readAddress hr (BitVec.eq_of_toNat_eq hp))
  next hp hr => exact yields_phase hq hm (.receive hr (BitVec.eq_of_toNat_eq hp))
  next hp hr =>
    exact yields_ite (fun hc => yields_phase hq hm (.store hr (BitVec.eq_of_toNat_eq hp) hc))
      fun _ => yields_phase hq hm (.storeLast hr (BitVec.eq_of_toNat_eq hp))
  next => exact yields_phase hq hm .readEnd
  next => exact yields_raise .refl

theorem yields_execStHcont : Yields s .stHcont (execStHcont s) := yields_transition fun _ => by
  have release : Changes s .stHcont (s.setWait .none) := .wait .refl fun _ => trivial
  split
  next => exact yields_next .refl
  next w hw =>
    have ha : Arms s (cmdIdx w) .stHcont (cmdOp w) := .resume hw rfl
    have hq : Inv s → (cmdIdx w).val < s.cfg.nI2c := fun h => by
      have hwait := h.wait
      rw [WaitInv, hw] at hwait
      exact hwait.1
    split
    next ho => exact yields_next (release.writeArm (ho ▸ ha) hq rfl)
    next ho => exact yields_next (release.readArm (ho ▸ ha) hq rfl)
    next => exact yields_next (release.probeArm ha hq rfl)
  all_goals exact yields_next (.wait (.result .refl ⟨0, by simp⟩ _) fun _ => trivial)

theorem yields_execI2cWrite (q : Idx) : Yields s (.i2cWrite q) (execI2cWrite q s) :=
  yields_command fun _ =>
    have enter : Changes s (.i2cWrite q) { s with cmd := cmdWord 3 0 q } := .enter (.inr rfl)
    yields_ite (fun _ => yields_next enter) fun hq => yields_ite (fun _ => yields_refuse enter) fun h0 =>
      have hq : q.val < s.cfg.nI2c := Nat.lt_of_not_le hq
      yields_armOrHold enter (waitInv_preArm (cmdIdx_cmdWord 3 0 q) hq (.inl ⟨Laws.RoundTrip.i2cWrite q, h0⟩))
        (enter.writeArm (.write h0) (fun _ => hq) rfl)

theorem yields_execI2cRead (q : Idx) : Yields s (.i2cRead q) (execI2cRead q s) :=
  yields_command fun _ =>
    have enter : Changes s (.i2cRead q) { s with cmd := cmdWord 3 1 q } := .enter (.inr rfl)
    yields_ite (fun _ => yields_next (enter.result ⟨q, by simp⟩ 0)) fun hq =>
      yields_ite (fun _ => yields_refuse enter) fun h0 =>
        have hq : q.val < s.cfg.nI2c := Nat.lt_of_not_le hq
        have ⟨h0, h1⟩ := not_or.1 h0
        yields_armOrHold enter
          (waitInv_preArm (cmdIdx_cmdWord 3 1 q) hq (.inr (.inl ⟨Laws.RoundTrip.i2cRead q, h0, h1⟩)))
          (enter.readArm (.read h0 h1) (fun _ => hq) rfl)

theorem yields_execI2cProbe (q : Idx) : Yields s (.i2cProbe q) (execI2cProbe q s) :=
  yields_command fun _ =>
    have enter : Changes s (.i2cProbe q) { s with cmd := cmdWord 3 2 q } := .enter (.inr rfl)
    yields_ite (fun _ => yields_next (enter.result ⟨q, by simp⟩ 0)) fun hq =>
      have hq : q.val < s.cfg.nI2c := Nat.lt_of_not_le hq
      yields_armOrHold enter (waitInv_preArm (cmdIdx_cmdWord 3 2 q) hq (.inr (.inr (Laws.RoundTrip.i2cProbe q))))
        (enter.probeArm .probe (fun _ => hq) rfl)

theorem yields_execChPoll (c : Idx) : Yields s (.chPoll c) (execChPoll c s) :=
  have hi : WritesResult (.chPoll c) := ⟨c, by simp⟩
  yields_command fun _ =>
    have enter : Changes s (.chPoll c) { s with cmd := cmdWord 1 4 c } := .enter (.inr rfl)
    yields_ite (fun hc => yields_next (.result (.chan enter (fun _ => hc) .poll) hi _))
      fun _ => yields_next (enter.result hi 0)

theorem yields_execUartSendDma (hl : Live s) (p : Idx) : Yields s (.uartSendDma p) (execUartSendDma p s) :=
  have hi : WritesResult (.uartSendDma p) := ⟨p, by simp⟩
  yields_uartQuery rfl hi fun hp => by
    have enter : Changes s (.uartSendDma p) { s with cmd := cmdWord 2 2 p } := .enter (.inr rfl)
    split
    next => exact yields_refuse enter
    next c hc =>
      have hcn : c.val < s.cfg.nCh := txDmaCh_present hl.1 hp hc
      exact yields_ite (fun _ => yields_refuse enter) fun h0 =>
        yields_ite (fun _ => yields_next (enter.result hi 0)) fun _ =>
          yields_next (.result (.chan enter (fun _ => hcn) (.send hc h0)) hi 1)

theorem yields_execEvTxld (hl : Live s) (p : Idx) (x : Byte) : Yields s (.evTxld p x) (execEvTxld p x s) :=
  yields_transition fun he => by
    simp only [Bool.and_eq_true, decide_eq_true_eq] at he
    obtain ⟨⟨hp, -⟩, -⟩ := he
    have load : Changes s (.evTxld p x) _ := .port .refl hp .load
    dsimp only
    split
    next c hc => exact yields_next (.chan load (fun _ => txDmaCh_present hl.1 hp hc) .request)
    next => exact yields_next load

theorem yields_execEvChrq (c : Idx) (x : Byte) : Yields s (.evChrq c x) (execEvChrq c x s) :=
  yields_transition fun hc => by
    split
    next => exact yields_next (.chan .refl (fun _ => of_decide_eq_true hc) .request)
    next => exact yields_next .refl

theorem yields_execStXfer (hl : Live s) (c : Idx) : Yields s (.stXfer c) (execStXfer c s) :=
  yields_transition fun he => by
    simp only [xferEnabled, Bool.and_eq_true, decide_eq_true_eq] at he
    obtain ⟨⟨⟨hc, hel⟩, -⟩, hready⟩ := he
    refine yields_observe .refl fun v => ?_
    have move : Changes s (.stXfer c) _ := .chan .refl (fun _ => hc) (.transfer hel)
    cases hs : (s.chanCfg c).sink with
    | external => exact yields_next (by simp only [deliver, State.chanCfg_setChan, hs]; exact move.mark ..)
    | uartTx p =>
      have hp : p.val < s.cfg.nUart := sink_present hl.1 hc hs
      have hfree : (s.port p).txq.length < (s.portCfg p).txDepth := by simpa [sinkReady, hs] using hready
      exact yields_next (by simp only [deliver, State.chanCfg_setChan, hs]; exact .port move hp (.deliver hfree))

theorem yields_execStTxsv (p : Idx) : Yields s (.stTxsv p) (execStTxsv p s) := yields_transition fun he => by
  simp only [txsvEnabled, Bool.and_eq_true, decide_eq_true_eq] at he
  obtain ⟨⟨⟨hp, hi⟩, hfree⟩, -⟩ := he
  exact yields_ite (fun hm => yields_observe .refl fun _ => yields_next (.port .refl hp (.sendByte hi hm hfree)))
    fun _ => yields_next (.port .refl hp .sendEnd)

theorem yields_execWrBufData (d : Word) : Yields s (.wrBufData d) (execWrBufData d s) :=
  yields_hostAccess fun _ => yields_ite (fun _ => yields_refuse .refl) fun hk => by
    have hk : selKind s.bufSel = 4 := not_not.1 hk
    have hsel : sel s.bufSel = some (.chBuf (selIdx s.bufSel)) := by simp only [sel, hk]
    have hc : Inv s → (selIdx s.bufSel).val < s.cfg.nCh := fun h => sel_present hsel h.window.bufSel_present
    exact yields_ite (fun h => yields_next (.bufNext (.chan .refl hc (.store h)) rfl hsel (Nat.ne_of_lt h)))
      fun _ => yields_next .refl

/-! ### Every instruction -/

theorem yields_exec_of_ne_wrCmd (hl : Live s) (h : ∀ w, i ≠ .wrCmd w) : Yields s i (exec i s) := by
  cases i with dsimp only [exec]
  | wrCmd w => exact absurd rfl (h w)
  | rdCmd | rdArg0 | rdArg1 | rdResult | rdStgPtr | rdBufSel | rdBufPtr => exact yields_hostRead _
  | rdChstat | rdChcnt | rdChrem | rdUstat | rdUrxcnt | rdUtxcnt | rdUtxlen => exact yields_hostRead _
  | rdIstat | rdItxcnt | rdIrxcnt | rdIwlen | rdIrlen => exact yields_hostRead _
  | wrResult | wrChstat | wrChcnt | wrChrem | wrUstat | wrUrxcnt | wrUtxcnt | wrUtxlen => exact yields_hostRefused _
  | wrIstat | wrItxcnt | wrIrxcnt | wrIwlen | wrIrlen => exact yields_hostRefused _
  | rsv09 | rsv0A | rsv0C | rsvD0 | rsvE0 => exact yields_hostRefused _
  | rdStgData => exact yields_hostAccess fun _ => yields_windowRead fun hp _ => .stgGet hp
  | rdBufData =>
    exact yields_hostAccess fun _ => yields_withSel fun b hb => yields_windowRead fun hp _ =>
      .bufNext (Changes.refl.mark ..) rfl hb hp
  | wrArg0 => exact yields_hostAccess fun hw => yields_next (.arg0 rfl hw)
  | wrArg1 => exact yields_hostAccess fun hw => yields_next (.arg1 rfl hw)
  | wrStgPtr =>
    exact yields_hostAccess fun _ => yields_ite (fun _ => yields_refuse .refl) fun hd =>
      yields_next (.stgPtr (Nat.le_of_not_lt hd))
  | wrStgData =>
    exact yields_hostAccess fun _ => yields_ite (fun hp => yields_next (.stgPut rfl hp)) fun _ => yields_next .refl
  | wrBufSel =>
    exact yields_hostAccess fun _ => yields_ite (fun _ => yields_refuse .refl) fun hd =>
      yields_ite (fun _ => yields_refuse .refl) fun hn =>
        yields_next (.bufSel (by simpa using hd) (Nat.lt_of_not_le hn))
  | wrBufPtr =>
    exact yields_hostAccess fun _ => yields_withSel fun b hb => yields_ite (fun _ => yields_refuse .refl) fun hp =>
      yields_next (.bufPtr hb (Nat.le_of_not_lt hp))
  | wrBufData d => exact yields_execWrBufData d
  | nop => exact yields_command fun _ => yields_next (.enter (.inr rfl))
  | chAcquire => exact yields_chanCommand rfl fun hc => yields_next (.chan (.enter (.inr rfl)) (fun _ => hc) .acquire)
  | chEnable => exact yields_chanCommand rfl fun hc => yields_next (.chan (.enter (.inr rfl)) (fun _ => hc) .enable)
  | chDisable => exact yields_chanCommand rfl fun hc => yields_next (.chan (.enter (.inr rfl)) (fun _ => hc) .disable)
  | chForce =>
    exact yields_chanCommand rfl fun hc => yields_ite (fun _ => yields_refuse (.enter (.inr rfl))) fun _ =>
      yields_ite (fun he => yields_next (.chan (.enter (.inr rfl)) (fun _ => hc) (.force he))) fun _ =>
        yields_next (.enter (.inr rfl))
  | chPoll c => exact yields_execChPoll c
  | chSetcnt =>
    exact yields_chanCommand rfl fun hc => yields_ite (fun _ => yields_refuse (.enter (.inr rfl))) fun hn =>
      yields_next (.chan (.enter (.inr rfl)) (fun _ => hc) (.setcnt (Nat.lt_of_not_le hn)))
  | uartFill =>
    exact yields_uartCommand rfl fun hp => yields_ite (fun _ => yields_refuse (.enter (.inr rfl))) fun hi =>
      yields_next (.port (.enter (.inr rfl)) hp (.fill (by simpa using hi)))
  | uartStart =>
    exact yields_uartCommand rfl fun hp => yields_ite (fun _ => yields_refuse (.enter (.inr rfl))) fun _ =>
      yields_next (.port (.enter (.inr rfl)) hp .start)
  | uartSendDma p => exact yields_execUartSendDma hl p
  | uartRxReady p =>
    exact yields_uartQuery rfl ⟨p, by simp⟩ fun hp =>
      yields_next (.result (.port (.enter (.inr rfl)) hp .rxReady) ⟨p, by simp⟩ _)
  | uartTxReady p =>
    exact yields_uartQuery rfl ⟨p, by simp⟩ fun hp =>
      yields_next (.result (.port (.enter (.inr rfl)) hp .txReady) ⟨p, by simp⟩ _)
  | uartClearRx => exact yields_uartCommand rfl fun hp => yields_next (.port (.enter (.inr rfl)) hp .clearRx)
  | i2cWrite q => exact yields_execI2cWrite q
  | i2cRead q => exact yields_execI2cRead q
  | i2cProbe q => exact yields_execI2cProbe q
  | evRxb =>
    exact yields_transition fun hp => yields_ite (fun _ => yields_next .refl) fun _ =>
      yields_ite (fun _ => yields_next (.port .refl (of_decide_eq_true hp) .overrun)) fun hn =>
        yields_next (.port .refl (of_decide_eq_true hp) (.arrive hn))
  | evRxfe => exact yields_transition fun hp => yields_next (.port .refl (of_decide_eq_true hp) .frameError)
  | evTxld p x => exact yields_execEvTxld hl p x
  | evTxsh =>
    exact yields_transition fun he => yields_next (.port .refl (lt_of_decide_and he) .shift)
  | evChrq c x => exact yields_execEvChrq c x
  | evI2cd =>
    exact yields_transition fun he => yields_next (.i2c .refl (fun _ => lt_of_decide_and he)
      (.complete (of_decide_eq_true (Bool.and_eq_true_iff.1 he).2)))
  | stRxsv => exact yields_transition fun he => yields_next (.port .refl (lt_of_decide_and he) .receive)
  | stRxer => exact yields_transition fun he => yields_next (.port .refl (lt_of_decide_and he) .recover)
  | stTxsv p => exact yields_execStTxsv p
  | stXfer c => exact yields_execStXfer hl c
  | stChcp =>
    exact yields_transition fun he =>
      yields_next (.chan .refl (fun _ => lt_of_decide_and (Bool.and_eq_true_iff.1 he).1) .complete)
  | stI2sv q => exact yields_execStI2sv q
  | stHcont => exact yields_execStHcont

/-- What an instruction that answers a next state can change; WR CMD changes what its command does (R110). -/
theorem exec_changes (h : exec i s = .next t) : Changes s (actsAs i) t := by
  have hl : Live s := (gated_exec i).live h
  cases i with
  | wrCmd w =>
    obtain hd | ⟨j, hd, hne, hj⟩ := decodeCmd_cases w
    · have ha : actsAs (.wrCmd w) = .wrCmd w := by simp only [actsAs, hd]; rfl
      rw [exec_wrCmd_of_error hd] at h
      rw [ha]
      exact yields_command (fun _ => yields_refuse (.enter (.inl rfl))) t h
    · have ha : actsAs (.wrCmd w) = j := by simp only [actsAs, hd]; rfl
      rw [hj] at h
      exact ha ▸ yields_exec_of_ne_wrCmd hl hne t h
  | _ => refine yields_exec_of_ne_wrCmd hl ?_ t h; nofun

end Sys2Proof.Machine

/-! ## O53: the invariant under everything an instruction can do. -/

namespace Sys2Proof.Machine

variable {s t u : State} {i : Instr} {w : Word}

/-! ### Channels -/

theorem eligible_rem {x : Channel} (h : eligible x = true) : x.rem ≠ 0 := by
  simp only [eligible, Bool.and_eq_true, decide_eq_true_eq] at h
  exact toNat_pos.1 h.2

theorem ChanInv.startBlock {k : ChanCfg} {x : Channel} (hk : CapOk k.bufCap) (h : ChanInv k x) :
    ChanInv k (startBlock x) ∧ (startBlock x).rem ≠ 0 := by
  have hc := h.cnt_lt
  have hr : (x.cnt + 1).toNat = x.cnt.toNat + 1 := toNat_succ hc hk.2
  refine ⟨⟨hc, ?_, fun _ => rfl, fun _ => rfl, nofun⟩, toNat_pos.1 ?_⟩ <;> simp only [Machine.startBlock, hr]
  · simpa using hc
  · omega

theorem ChanInv.endBlock {k : ChanCfg} {x : Channel} (h : ChanInv k { x with fpend := false, rpend := false }) :
    ChanInv k (endBlock x) := by
  unfold Machine.endBlock
  split
  next => exact ⟨h.cnt_lt, h.block_le, h.enabled_ie, h.running_ie, by simp⟩
  next hr => exact ⟨h.cnt_lt, h.block_le, h.enabled_ie, h.running_ie, fun _ => hr⟩

theorem takeRequest_unrequested (x : Channel) :
    { takeRequest x with fpend := false, rpend := false } = { x with fpend := false, rpend := false } := by
  unfold takeRequest
  split <;> rfl

theorem endBlock_buf (x : Channel) : (endBlock x).buf = x.buf := by
  unfold endBlock
  split <;> rfl

theorem takeRequest_buf (x : Channel) : (takeRequest x).buf = x.buf := by
  unfold takeRequest
  split <;> rfl

/-- One byte leaves the block (R121). -/
theorem ChanInv.advance {k : ChanCfg} {x : Channel} (hk : CapOk k.bufCap) (h : ChanInv k x) (hr : x.rem ≠ 0) :
    ChanInv k { x with xidx := x.xidx + 1, rem := x.rem - 1, fpend := false, rpend := false } := by
  have hle := h.block_le
  have hpos := toNat_pos.2 hr
  have hx : (x.xidx + 1).toNat = x.xidx.toNat + 1 := toNat_succ (n := k.bufCap) (by omega) hk.2
  have hrem : (x.rem - 1).toNat = x.rem.toNat - 1 := BitVec.toNat_sub_of_le (by bv_omega)
  refine ⟨h.cnt_lt, ?_, h.enabled_ie, h.running_ie, by simp⟩
  simp only [hx, hrem]
  omega

theorem ChanWrite.inv {c : Idx} {y : Channel} (h : ChanWrite s c i y) (hk : CapOk (s.chanCfg c).bufCap)
    (hx : ChanInv (s.chanCfg c) (s.chan c)) : ChanInv (s.chanCfg c) y := by
  cases h with
  | keep => exact hx
  | acquire => exact ⟨hx.cnt_lt, hx.block_le, nofun, hx.running_ie, hx.request_rem⟩
  | enable => exact (hx.startBlock hk).1
  | disable => exact ⟨hx.cnt_lt, hx.block_le, nofun, nofun, by simp⟩
  | force he => exact ⟨hx.cnt_lt, hx.block_le, hx.enabled_ie, hx.running_ie, fun _ => eligible_rem he⟩
  | poll =>
    refine ⟨hx.cnt_lt, hx.block_le, hx.enabled_ie, fun hr => hx.running_ie ?_, hx.request_rem⟩
    dsimp only at hr
    split at hr
    · cases hr
    · exact hr
  | setcnt hn => exact ⟨hn, hx.block_le, hx.enabled_ie, hx.running_ie, hx.request_rem⟩
  | store => exact ⟨hx.cnt_lt, hx.block_le, hx.enabled_ie, hx.running_ie, hx.request_rem⟩
  | transfer he =>
    refine .endBlock ?_
    rw [takeRequest_unrequested]
    exact hx.advance hk (eligible_rem he)
  | complete => exact ⟨hx.cnt_lt, hx.block_le, hx.enabled_ie, nofun, hx.request_rem⟩
  | request =>
    split
    next he => exact ⟨hx.cnt_lt, hx.block_le, hx.enabled_ie, hx.running_ie, fun _ => eligible_rem he⟩
    next => exact hx
  | send _ h0 =>
    have hn : (count16 (saturate s.arg0 (s.chanCfg c).bufCap - 1)).toNat < (s.chanCfg c).bufCap := by
      have hle := saturate_le s.arg0 (s.chanCfg c).bufCap
      rw [count16_toNat (by have := saturate_lt s.arg0 (s.chanCfg c).bufCap; omega)]
      omega
    have hcnt : ChanInv (s.chanCfg c) { s.chan c with
        buf := s.fromStg (saturate s.arg0 (s.chanCfg c).bufCap) (s.chan c).buf,
        cnt := count16 (saturate s.arg0 (s.chanCfg c).bufCap - 1) } :=
      ⟨hn, hx.block_le, hx.enabled_ie, hx.running_ie, hx.request_rem⟩
    obtain ⟨hs, hr⟩ := hcnt.startBlock hk
    exact ⟨hs.cnt_lt, hs.block_le, hs.enabled_ie, hs.running_ie, fun _ => hr⟩

theorem ChanWrite.buf {c : Idx} {y : Channel} (h : ChanWrite s c i y)
    (hx : BufOk (s.chanCfg c).bufCap (s.chan c).buf) : BufOk (s.chanCfg c).bufCap y.buf := by
  cases h with
  | store hp => exact bufOk_put hx hp _
  | send => exact bufOk_copy _ hx (saturate_le ..)
  | transfer =>
    rw [endBlock_buf, takeRequest_buf]
    exact hx
  | request => split <;> exact hx
  | keep | acquire | enable | disable | force | poll | setcnt | complete => exact hx

/-! ### Serial ports -/

theorem storeRx_inv {k : UartCfg} {x : UartPort} {b : Byte} (hk : UartOk s.cfg k) (h : UartInv k x) :
    UartInv k (endFrame k.rxLen (storeRx k.rxLen b x)) := by
  have hlt := h.rxCounter_lt
  obtain ⟨⟨-, hcap⟩, hlen0, hlen, -⟩ := hk
  have hsucc : (x.rxCounter + 1).toNat = x.rxCounter.toNat + 1 := toNat_succ hlt (by omega)
  rw [storeRx, if_pos hlt, endFrame]
  dsimp only
  split
  next => exact ⟨hlen0, h.txCounter_le, h.txLength_le, Nat.zero_le _, h.txq_le, h.sending_dir, h.idle_counter⟩
  next hne =>
    refine ⟨?_, h.txCounter_le, h.txLength_le, h.rxq_le, h.txq_le, h.sending_dir, h.idle_counter⟩
    dsimp only
    omega

theorem PortWrite.inv {p : Idx} {y : UartPort} (h : PortWrite s p i y) (hk : UartOk s.cfg (s.portCfg p))
    (hx : UartInv (s.portCfg p) (s.port p)) : UartInv (s.portCfg p) y := by
  obtain ⟨hrx, htx, hlen, hrq, htq, hdir, hidle⟩ := hx
  have ⟨_, hlen0, _⟩ := hk
  cases h with
  | keep | overrun | frameError | rxReady | txReady | shift => exact ⟨hrx, htx, hlen, hrq, htq, hdir, hidle⟩
  | arrive hne =>
    refine ⟨hrx, htx, hlen, ?_, htq, hdir, hidle⟩
    simp only [List.length_append, List.length_singleton]
    omega
  | receive =>
    exact storeRx_inv hk ⟨hrx, htx, hlen, Nat.le_trans (by simp) hrq, htq, hdir, hidle⟩
  | recover => exact ⟨hlen0, htx, hlen, Nat.zero_le _, htq, hdir, hidle⟩
  | clearRx => exact ⟨hlen0, htx, hlen, hrq, htq, hdir, hidle⟩
  | fill hi =>
    have h0 := hidle hi
    refine ⟨hrx, by simp [h0], ?_, hrq, htq, hdir, hidle⟩
    rw [count16_saturate]
    exact saturate_le ..
  | start =>
    exact ⟨hrx, Nat.zero_le _, hlen, hrq, htq, fun hh _ => by simp [hh], nofun⟩
  | sendByte hi hm hq =>
    have hm : (s.port p).txCounter.toNat < (s.port p).txLength.toNat := of_decide_eq_true hm
    have hsucc : ((s.port p).txCounter + 1).toNat = (s.port p).txCounter.toNat + 1 :=
      toNat_succ hm (Nat.le_of_lt_succ (s.port p).txLength.isLt)
    refine ⟨hrx, ?_, hlen, hrq, ?_, hdir, fun hf => by simp [hi] at hf⟩
    · simp only [hsucc]
      omega
    · simpa using hq
  | sendEnd => exact ⟨hrx, Nat.zero_le _, hlen, hrq, htq, nofun, fun _ => rfl⟩
  | load => exact ⟨hrx, htx, hlen, hrq, Nat.le_trans (by simp) htq, hdir, hidle⟩
  | deliver hq => exact ⟨hrx, htx, hlen, hrq, by simpa using hq, hdir, hidle⟩

theorem endFrame_rxBuf (len : Nat) (u : UartPort) : (endFrame len u).rxBuf = u.rxBuf := by
  unfold endFrame
  split <;> rfl

theorem endFrame_txBuf (len : Nat) (u : UartPort) : (endFrame len u).txBuf = u.txBuf := by
  unfold endFrame
  split <;> rfl

theorem storeRx_txBuf (len : Nat) (b : Byte) (u : UartPort) : (storeRx len b u).txBuf = u.txBuf := by
  unfold storeRx
  split <;> rfl

theorem bufOk_storeRx {cap len : Nat} (hlen : len ≤ cap) (b : Byte) {x : UartPort} (h : BufOk cap x.rxBuf) :
    BufOk cap (storeRx len b x).rxBuf := by
  unfold storeRx
  split
  next hlt => exact bufOk_put h (Nat.lt_of_lt_of_le hlt hlen) b
  next => exact h

theorem PortWrite.rxBuf {p : Idx} {y : UartPort} (h : PortWrite s p i y)
    (hlen : (s.portCfg p).rxLen ≤ (s.portCfg p).rxCap)
    (hx : BufOk (s.portCfg p).rxCap (s.port p).rxBuf) : BufOk (s.portCfg p).rxCap y.rxBuf := by
  cases h with
  | receive =>
    rw [endFrame_rxBuf]
    exact bufOk_storeRx hlen _ hx
  | clearRx => exact bufOk_fill _ hx (Nat.le_refl _)
  | overrun | arrive | frameError | recover | rxReady | txReady | fill | start | sendByte | sendEnd => exact hx
  | keep | load | shift | deliver => exact hx

theorem PortWrite.txBuf {p : Idx} {y : UartPort} (h : PortWrite s p i y)
    (hx : BufOk (s.portCfg p).txCap (s.port p).txBuf) : BufOk (s.portCfg p).txCap y.txBuf := by
  cases h with
  | receive =>
    rw [endFrame_txBuf, storeRx_txBuf]
    exact hx
  | fill => exact bufOk_copy _ hx (saturate_le ..)
  | overrun | arrive | frameError | recover | rxReady | txReady | clearRx | start | sendByte | sendEnd => exact hx
  | keep | load | shift | deliver => exact hx

/-! ### I2C ports -/

/-- A busy port issues its next operation (R168) with its counters and phase moved on. -/
theorem I2cInv.issueNext {k : I2cCfg} {x : I2cPort} {op : BusOp} {v : Option Byte} {m : Mem} {tx rx : Word}
    {ph : BitVec 3} (h : I2cInv k x) (hb : x.busy = true) (hop : op ≠ .none) (htx : tx.toNat ≤ x.writeLength.toNat)
    (hrx : rx.toNat ≤ x.readLength.toNat) (hph : ph.toNat ≤ 5) (hph0 : ph ≠ 0) (hw : x.mode = .write → ph.toNat ≤ 2)
    (hr : x.mode = .read → ph.toNat ≤ 4 → rx.toNat < x.readLength.toNat) :
    I2cInv k (issue { x with mif := false, rxData := m, txCounter := tx, rxCounter := rx, phase := ph } op v) where
  writeLength_le := h.writeLength_le
  readLength_le := h.readLength_le
  txCounter_le := htx
  rxCounter_le := hrx
  phase_le := hph
  write_phase_le := hw
  busy_ie := h.busy_ie
  idle_bop hn := absurd (hb.symm.trans hn) nofun
  busy_bop _ := ⟨nofun, fun hn => absurd hn hop⟩
  address_left _ h0 := absurd h0 hph0
  read_left _ := hr

/-- The transaction ends and the port is idle (R160, R165). -/
theorem I2cInv.release {k : I2cCfg} {x : I2cPort} {tx rx : Word} (h : I2cInv k x) (hbop : x.bop = .none)
    (htx : tx.toNat ≤ x.writeLength.toNat) (hrx : rx.toNat ≤ x.readLength.toNat) :
    I2cInv k { x with mif := false, busy := false, txCounter := tx, rxCounter := rx, ie := false } :=
  ⟨h.writeLength_le, h.readLength_le, htx, hrx, h.phase_le, h.write_phase_le, rfl, fun _ => ⟨hbop, rfl⟩, nofun, nofun,
    nofun⟩

theorem I2cInv.busy_of_mif {k : I2cCfg} {x : I2cPort} (h : I2cInv k x) (hm : x.mif = true) :
    x.busy = true ∧ x.bop = .none := by
  have hb : x.busy = true := Bool.not_eq_false _ ▸ fun hn => absurd (hm.symm.trans (h.idle_bop hn).2) nofun
  exact ⟨hb, (h.busy_bop hb).1 hm⟩

theorem PhaseWrite.inv {k : I2cCfg} {x y : I2cPort} (h : PhaseWrite x y) (hx : I2cInv k x) (hm : x.mif = true) :
    I2cInv k y := by
  obtain ⟨hb, hbop⟩ := hx.busy_of_mif hm
  have htx := hx.txCounter_le
  have hrx := hx.rxCounter_le
  have hread (hr : x.mode = .read) (hp : x.phase.toNat ≤ 4) := hx.read_left hb hr hp
  cases h with
  | sendByte hp =>
    have hlt : x.txCounter.toNat < x.writeLength.toNat := hp.elim (hx.address_left hb) And.right
    have hsucc : (x.txCounter + 1).toNat = x.txCounter.toNat + 1 :=
      toNat_succ hlt (Nat.le_of_lt_succ x.writeLength.isLt)
    have hph : x.phase.toNat ≤ 4 := by
      obtain hp | ⟨hp, -⟩ := hp <;> simp [hp]
    exact hx.issueNext hb nofun (hsucc ▸ hlt) hrx (by decide) (by decide) (fun _ => by decide) fun hr _ => hread hr hph
  | endBytes hop hp =>
    exact hx.issueNext hb hop htx hrx (by decide) (by decide) (fun _ => by decide) fun hr _ => hread hr (by simp [hp])
  | writeEnd => exact hx.release hbop htx hrx
  | readAddress hr hp =>
    exact hx.issueNext hb nofun htx hrx (by decide) (by decide) (by simp [hr]) fun hr _ => hread hr (by simp [hp])
  | receive hr hp =>
    exact hx.issueNext hb nofun htx hrx (by decide) (by decide) (by simp [hr]) fun hr _ => hread hr (by simp [hp])
  | store hr hp hlt =>
    exact hx.issueNext hb nofun htx hlt.le hx.phase_le (by simp [hp]) (by simp [hr]) fun _ _ => hlt
  | storeLast hr hp =>
    have hlt := hread hr (by simp [hp])
    have hsucc : (x.rxCounter + 1).toNat = x.rxCounter.toNat + 1 :=
      toNat_succ hlt (Nat.le_of_lt_succ x.readLength.isLt)
    exact hx.issueNext hb nofun htx (hsucc ▸ hlt) (by decide) (by decide) (by simp [hr]) fun _ h54 =>
      absurd h54 (by decide)
  | readEnd => exact hx.release hbop (Nat.zero_le _) (Nat.zero_le _)

/-- A transaction starts with a byte to send, and a byte to read in Read (R154). -/
theorem i2cInv_arm {k : I2cCfg} {x : I2cPort} (hw : 0 < x.writeLength.toNat ∧ x.writeLength.toNat ≤ k.txCap)
    (hr : x.readLength.toNat ≤ k.rxCap) (hr0 : x.mode = .read → 0 < x.readLength.toNat) : I2cInv k (arm x) where
  writeLength_le := hw.2
  readLength_le := hr
  txCounter_le := Nat.zero_le _
  rxCounter_le := Nat.zero_le _
  phase_le := Nat.zero_le _
  write_phase_le _ := Nat.zero_le _
  busy_ie := rfl
  idle_bop := nofun
  busy_bop _ := ⟨nofun, nofun⟩
  address_left _ _ := hw.1
  read_left _ hm _ := hr0 hm

/-- A held word demanded its lengths when it was held (R60). -/
theorem Arms.lengths {q : Idx} {op : Nat} (h : Arms s q i op) (hw : WaitInv s) :
    (op = 0 → s.arg0 ≠ 0) ∧ (op = 1 → s.arg0 ≠ 0 ∧ s.arg1 ≠ 0) := by
  cases h with
  | write h0 => exact ⟨fun _ => h0, nofun⟩
  | read h0 h1 => exact ⟨nofun, fun _ => ⟨h0, h1⟩⟩
  | probe => exact ⟨nofun, nofun⟩
  | @resume w hheld _ =>
    have hop {o : BitVec 4} (he : Entry.cmd (cmdWord 3 o (cmdIdx w)) = .cmd w) : cmdOp w = o.toNat :=
      (congrArg cmdOp (Entry.cmd.inj he)).symm.trans (cmdOp_cmdWord ..)
    rw [WaitInv, hheld] at hw
    obtain ⟨-, ⟨hd, h0⟩ | ⟨-, h0, h1⟩ | hd⟩ := hw
    · rw [hop (encode_of_decodeCmd hd)]
      exact ⟨fun _ => h0, nofun⟩
    · exact ⟨fun _ => h0, fun _ => ⟨h0, h1⟩⟩
    · rw [hop (encode_of_decodeCmd hd)]
      exact ⟨nofun, nofun⟩

theorem saturate_pos {n : Nat} (hw : w ≠ 0) (hn : 1 ≤ n) : 0 < saturate w n := lt_min (toNat_pos.2 hw) hn

theorem I2cInv.complete {k : I2cCfg} {x : I2cPort} (h : I2cInv k x) (hbop : x.bop ≠ .none) (d : Byte) :
    I2cInv k { complete x d with bop := .none, mif := true } := by
  have hb : x.busy = true := Bool.not_eq_false _ ▸ fun hn => hbop (h.idle_bop hn).1
  unfold Machine.complete
  split <;>
    exact ⟨h.writeLength_le, h.readLength_le, h.txCounter_le, h.rxCounter_le, h.phase_le, h.write_phase_le, h.busy_ie,
      fun hn => absurd (hb.symm.trans hn) nofun, fun _ => ⟨fun _ => rfl, fun _ => rfl⟩, h.address_left, h.read_left⟩

theorem I2cWrite.inv {q : Idx} {y : I2cPort} (h : I2cWrite s q i y) (hk : I2cOk s.cfg (s.i2cCfg q)) (hw : WaitInv s)
    (hx : I2cInv (s.i2cCfg q) (s.i2cp q)) : I2cInv (s.i2cCfg q) y := by
  obtain ⟨⟨htx, -⟩, ⟨hrx, -⟩, -⟩ := hk
  cases h with
  | keep => exact hx
  | write ha =>
    have h0 := (ha.lengths hw).1 rfl
    refine i2cInv_arm ?_ hx.readLength_le nofun
    simp only [count16_saturate]
    exact ⟨saturate_pos h0 htx, saturate_le ..⟩
  | read ha =>
    obtain ⟨h0, h1⟩ := (ha.lengths hw).2 rfl
    refine i2cInv_arm ?_ ?_ fun _ => ?_ <;> simp only [count16_saturate]
    · exact ⟨saturate_pos h0 htx, saturate_le ..⟩
    · exact saturate_le ..
    · exact saturate_pos h1 hrx
  | probe => exact i2cInv_arm ⟨Nat.one_pos, htx⟩ hx.readLength_le nofun
  | complete hbop => exact hx.complete hbop _
  | phase hm hy => exact hy.inv hx hm

theorem PhaseWrite.txData {x y : I2cPort} (h : PhaseWrite x y) : y.txData = x.txData := by
  cases h <;> rfl

theorem PhaseWrite.rxData {k : I2cCfg} {x y : I2cPort} (h : PhaseWrite x y) (hx : I2cInv k x) (hm : x.mif = true)
    (hd : BufOk k.rxCap x.rxData) : BufOk k.rxCap y.rxData := by
  have hin (hr : x.mode = .read) (hp : x.phase = 4) : x.rxCounter.toNat < k.rxCap :=
    Nat.lt_of_lt_of_le (hx.read_left (hx.busy_of_mif hm).1 hr (by simp [hp])) hx.readLength_le
  cases h with
  | store hr hp => exact bufOk_write hd (hin hr hp) _
  | storeLast hr hp => exact bufOk_write hd (hin hr hp) _
  | sendByte | endBytes | writeEnd | readAddress | receive | readEnd => exact hd

theorem complete_data (x : I2cPort) (d : Byte) :
    (complete x d).txData = x.txData ∧ (complete x d).rxData = x.rxData := by
  unfold complete
  split <;> exact ⟨rfl, rfl⟩

theorem I2cWrite.txData {q : Idx} {y : I2cPort} (h : I2cWrite s q i y) (hcap : 1 ≤ (s.i2cCfg q).txCap)
    (hd : BufOk (s.i2cCfg q).txCap (s.i2cp q).txData) : BufOk (s.i2cCfg q).txCap y.txData := by
  cases h with
  | keep => exact hd
  | write => exact bufOk_copy _ hd (saturate_le ..)
  | read => exact bufOk_copy _ hd (saturate_le ..)
  | probe => exact bufOk_put hd hcap _
  | @complete d _ => exact (complete_data (s.i2cp q) d).1 ▸ hd
  | phase hm hy => exact hy.txData ▸ hd

theorem I2cWrite.rxData {q : Idx} {y : I2cPort} (h : I2cWrite s q i y) (hx : I2cInv (s.i2cCfg q) (s.i2cp q))
    (hd : BufOk (s.i2cCfg q).rxCap (s.i2cp q).rxData) : BufOk (s.i2cCfg q).rxCap y.rxData := by
  cases h with
  | keep | write | read | probe => exact hd
  | @complete d _ => exact (complete_data (s.i2cp q) d).2 ▸ hd
  | phase hm hy => exact hy.rxData hx hm hd

/-! ### The machine -/

/-- No update changes the parameters. -/
theorem Changes.cfg (h : Changes s i t) : t.cfg = s.cfg := by
  induction h with
  | refl | enter | arg0 | arg1 | stgPtr | stgPut | stgGet | bufSel | bufPtr => rfl
  | mark _ _ _ _ _ ih | chan _ _ _ ih | port _ _ _ ih | i2c _ _ _ ih => exact ih
  | result _ _ _ ih | wait _ _ ih | bufNext _ _ _ _ ih => exact ih

theorem Inv.setArgs (h : Inv s) (hw : s.hostWait = .none) (a b : Word) : Inv { s with arg0 := a, arg1 := b } := by
  refine ⟨⟨h.cells.wf, h.cells.inside⟩, h.chan, h.uart, h.i2c,
    ⟨h.window.stgPtr_le, h.window.bufSel_legal, h.window.bufSel_present, h.window.bufPtr_le⟩, ?_⟩
  rw [WaitInv, hw]
  trivial

theorem Inv.setStg (h : Inv s) {m : Mem} {p : Word} (hm : BufOk s.cfg.stgCap m) (hp : p.toNat ≤ s.cfg.stgCap) :
    Inv { s with stg := m, stgPtr := p } := by
  have hmem {b : Buf} (hb : b ≠ .stg) : State.mem { s with stg := m, stgPtr := p } b = s.mem b := by
    cases b with
    | stg => exact absurd rfl hb
    | _ => rfl
  refine ⟨⟨fun b => ?_, fun b hb => ?_⟩, h.chan, h.uart, h.i2c,
    ⟨hp, h.window.bufSel_legal, h.window.bufSel_present, h.window.bufPtr_le⟩, h.wait⟩ <;> by_cases hs : b = .stg
  · exact hs ▸ hm.1
  · exact hmem hs ▸ h.cells.wf b
  · exact hs ▸ hm.2
  · exact hmem hs ▸ h.cells.inside b hb

theorem Inv.setBufSel (h : Inv s) {d : Word} (hd : selLegal d = true)
    (hn : (selIdx d).val < selCount s.cfg (selKind d)) : Inv { s with bufSel := d, bufPtr := 0 } :=
  ⟨⟨h.cells.wf, h.cells.inside⟩, h.chan, h.uart, h.i2c, ⟨h.window.stgPtr_le, hd, hn, fun _ _ => Nat.zero_le _⟩, h.wait⟩

theorem Inv.setStgPtr (h : Inv s) {p : Word} (hp : p.toNat ≤ s.cfg.stgCap) : Inv { s with stgPtr := p } :=
  h.setStg (h.cells.bufOk (b := .stg) trivial) hp

/-- Everything an instruction can do keeps the invariant. -/
theorem Changes.inv (h : Changes s i t) (hc : configValid s.cfg = true) (hI : Inv s) : Inv t := by
  induction h with
  | refl => exact hI
  | enter => exact hI.irrelevant ..
  | mark _ _ _ _ _ ih => exact ih.irrelevant ..
  | @chan t c y ht hn hy ih =>
    have hn := hn hI
    have hk : t.chanCfg c = s.chanCfg c := by simp only [State.chanCfg, ht.cfg]
    have hb : BufOk (s.chanCfg c).bufCap y.buf := hy.buf (hI.cells.bufOk (b := .chBuf c) hn)
    exact ih.setChan (fun _ => hk ▸ hy.inv (cap_bounds hc (b := .chBuf c) hn) (hI.chan c hn)) hb.1 fun _ => hk ▸ hb.2
  | @port t p y ht hp hy ih =>
    have hk : t.portCfg p = s.portCfg p := by simp only [State.portCfg, ht.cfg]
    have hu := cfg_uart hc hp
    have ⟨_, _, hlen, _⟩ := hu
    have hrx : BufOk (s.portCfg p).rxCap y.rxBuf := hy.rxBuf hlen (hI.cells.bufOk (b := .uartRx p) hp)
    have htx : BufOk (s.portCfg p).txCap y.txBuf := hy.txBuf (hI.cells.bufOk (b := .uartTx p) hp)
    exact ih.setPort (fun _ => hk ▸ hy.inv hu (hI.uart p hp)) hrx.1 htx.1 (fun _ => hk ▸ hrx.2) fun _ => hk ▸ htx.2
  | @i2c t q y ht hq hy ih =>
    have hq := hq hI
    have hk : t.i2cCfg q = s.i2cCfg q := by simp only [State.i2cCfg, ht.cfg]
    have hi := cfg_i2c hc hq
    have hrx : BufOk (s.i2cCfg q).rxCap y.rxData := hy.rxData (hI.i2c q hq) (hI.cells.bufOk (b := .i2cRx q) hq)
    have hcap : 1 ≤ (s.i2cCfg q).txCap := (cap_bounds hc (b := .i2cTx q) hq).1
    have htx : BufOk (s.i2cCfg q).txCap y.txData := hy.txData hcap (hI.cells.bufOk (b := .i2cTx q) hq)
    exact ih.setI2c (fun _ => hk ▸ hy.inv hi hI.wait (hI.i2c q hq)) hrx.1 htx.1 (fun _ => hk ▸ hrx.2)
      fun _ => hk ▸ htx.2
  | result _ _ w ih => exact ih.setResult w
  | wait _ hw ih => exact ih.setWait (hw hI)
  | arg0 _ hw => exact hI.setArgs hw _ _
  | arg1 _ hw => exact hI.setArgs hw _ _
  | stgPtr hp => exact hI.setStgPtr hp
  | stgPut _ hp =>
    have hs : (s.stgPtr + 1).toNat = s.stgPtr.toNat + 1 := toNat_succ hp (cap_bounds hc (b := .stg) trivial).2
    exact hI.setStg (bufOk_put (hI.cells.bufOk (b := .stg) trivial) hp _) (hs ▸ hp)
  | stgGet hp =>
    have hlt := Nat.lt_of_le_of_ne hI.window.stgPtr_le hp
    have hs : (s.stgPtr + 1).toNat = s.stgPtr.toNat + 1 := toNat_succ hlt (cap_bounds hc (b := .stg) trivial).2
    exact (hI.setStgPtr (hs.trans_le hlt)).irrelevant ..
  | bufSel hd hn => exact hI.setBufSel hd hn
  | bufPtr hb hp => exact hI.setBufPtr fun b hb' => Option.some.inj (hb.symm.trans hb') ▸ hp
  | @bufNext t b ht hsel hb hp ih =>
    have hlt : s.bufPtr.toNat < s.cap b := Nat.lt_of_le_of_ne (hI.window.bufPtr_le b hb) hp
    have hcap := (cap_bounds hc (sel_present hb hI.window.bufSel_present)).2
    have hs : (s.bufPtr + 1).toNat = s.bufPtr.toNat + 1 := toNat_succ hlt hcap
    refine ih.setBufPtr fun b' hb' => ?_
    obtain rfl : b = b' := Option.some.inj (hb.symm.trans (hsel ▸ hb'))
    have hk : t.cap b = s.cap b := by
      cases b <;> simp only [State.cap, State.chanCfg, State.portCfg, State.i2cCfg, ht.cfg]
    rw [hk, hs]
    exact hlt

theorem exec_inv (h : exec i s = .next t) (hI : Inv s) : Inv t :=
  (exec_changes h).inv ((gated_exec i).live h).1 hI

end Sys2Proof.Machine

namespace Sys2Proof.Proofs

open Sys2Proof.Machine

/-- Settles O53: a step runs one instruction, marks a bad trace, or does nothing, after the entry or the draw is taken. -/
theorem everyStepKeepsInvariant : Obligations.EveryStepKeepsInvariant := by
  intro s t hI h
  obtain ⟨u, hu, hrun⟩ := step_next h
  have hIu : Inv u := hu ▸ hI.irrelevant ..
  obtain ⟨i, hi⟩ | ⟨-, rfl⟩ | rfl := hrun
  · exact exec_inv hi hIu
  · exact hIu.irrelevant ..
  · exact hIu

end Sys2Proof.Proofs

/-! ## O57 to O59: who writes transfer_state, the flags and the host registers. -/

namespace Sys2Proof.Machine

variable {s t : State} {i : Instr} {w : Word}

/-! ### The records after an instruction -/

theorem Changes.chan_write (h : Changes s i t) (c : Idx) : ChanWrite s c i (t.chan c) := by
  induction h with
  | refl | enter | arg0 | arg1 | stgPtr | stgPut | stgGet | bufSel | bufPtr => exact .keep
  | mark _ _ _ _ _ ih | port _ _ _ ih | i2c _ _ _ ih | result _ _ _ ih | wait _ _ ih | bufNext _ _ _ _ ih => exact ih
  | chan _ _ hy ih =>
    rw [State.chan_setChan]
    split
    next e => exact e ▸ hy
    next => exact ih

theorem Changes.port_write (h : Changes s i t) (p : Idx) : PortWrite s p i (t.port p) := by
  induction h with
  | refl | enter | arg0 | arg1 | stgPtr | stgPut | stgGet | bufSel | bufPtr => exact .keep
  | mark _ _ _ _ _ ih | chan _ _ _ ih | i2c _ _ _ ih | result _ _ _ ih | wait _ _ ih | bufNext _ _ _ _ ih => exact ih
  | port _ _ hy ih =>
    rw [State.port_setPort]
    split
    next e => exact e ▸ hy
    next => exact ih

theorem Changes.i2cp_write (h : Changes s i t) (q : Idx) : I2cWrite s q i (t.i2cp q) := by
  induction h with
  | refl | enter | arg0 | arg1 | stgPtr | stgPut | stgGet | bufSel | bufPtr => exact .keep
  | mark _ _ _ _ _ ih | chan _ _ _ ih | port _ _ _ ih | result _ _ _ ih | wait _ _ ih | bufNext _ _ _ _ ih => exact ih
  | i2c _ _ hy ih =>
    rw [State.i2cp_setI2c]
    split
    next e => exact e ▸ hy
    next => exact ih

/-! ### transfer_state (R48) -/

theorem takeRequest_xfer (x : Channel) : (takeRequest x).xfer = x.xfer := by
  unfold takeRequest
  split <;> rfl

theorem endBlock_xfer (x : Channel) : (endBlock x).xfer = x.xfer := by
  unfold endBlock
  split <;> rfl

/-- A write of transfer_state starts a transfer, ends one, or clears Done. -/
theorem ChanWrite.xfer {c : Idx} {y : Channel} (h : ChanWrite s c i y) :
    y.xfer = (s.chan c).xfer ∨
      y.xfer = .inProgress ∧ (i = .chEnable c ∨ ∃ p, i = .uartSendDma p ∧ (s.portCfg p).txDmaCh = some c) ∨
      y.xfer = .done ∧ (i = .chDisable c ∨ i = .stChcp c) ∨
      y.xfer = .idle ∧ i = .chPoll c ∧ (s.chan c).xfer = .done := by
  cases h with
  | keep | acquire | force | setcnt | store => exact .inl rfl
  | transfer => exact .inl ((endBlock_xfer _).trans (takeRequest_xfer _))
  | request => exact .inl (by split <;> rfl)
  | enable => exact .inr (.inl ⟨rfl, .inl rfl⟩)
  | send hp => exact .inr (.inl ⟨rfl, .inr ⟨_, rfl, hp⟩⟩)
  | disable => exact .inr (.inr (.inl ⟨rfl, .inl rfl⟩))
  | complete => exact .inr (.inr (.inl ⟨rfl, .inr rfl⟩))
  | poll =>
    dsimp only
    split
    next hd => exact .inr (.inr (.inr ⟨rfl, rfl, hd⟩))
    next => exact .inl rfl

/-! ### Flags (R63) -/

/-- A flag that changes from `old` to `new` has `up` if it is raised and `down` if it is cleared. -/
def FlagChange (old new : Bool) (up down : Prop) : Prop := new ≠ old → if new then up else down

theorem FlagChange.same {b : Bool} {up down : Prop} : FlagChange b b up down := fun h => absurd rfl h

theorem FlagChange.raised {b : Bool} {up down : Prop} (h : up) : FlagChange b true up down := fun _ => h

theorem FlagChange.cleared {b : Bool} {up down : Prop} (h : down) : FlagChange b false up down := fun _ => h

/-- The writers of IF. -/
theorem ChanWrite.pend {c : Idx} {y : Channel} (h : ChanWrite s c i y) :
    FlagChange (s.chan c).pend y.pend (i = .stXfer c) (i = .stChcp c ∨ i = .chAcquire c) := by
  cases h with
  | keep | enable | disable | force | poll | setcnt | store | send => exact .same
  | acquire => exact .cleared (.inr rfl)
  | complete => exact .cleared (.inl rfl)
  | request => split <;> exact .same
  | transfer =>
    unfold endBlock
    split
    · exact .raised rfl
    · unfold takeRequest
      split <;> exact .same

theorem storeRx_flags (len : Nat) (b : Byte) (u : UartPort) : (storeRx len b u).rxDone = u.rxDone ∧
    (storeRx len b u).txDone = u.txDone ∧ (storeRx len b u).oerr = u.oerr ∧ (storeRx len b u).ferr = u.ferr := by
  unfold storeRx
  split <;> exact ⟨rfl, rfl, rfl, rfl⟩

/-- The writers of rx_done, tx_done, OERR and FERR. -/
theorem PortWrite.flags {p : Idx} {y : UartPort} (h : PortWrite s p i y) :
    FlagChange (s.port p).rxDone y.rxDone (i = .stRxsv p) (i = .uartRxReady p) ∧
    FlagChange (s.port p).txDone y.txDone (i = .stTxsv p) (i = .uartStart p ∨ i = .uartTxReady p) ∧
    FlagChange (s.port p).oerr y.oerr (∃ b, i = .evRxb p b) (i = .stRxer p) ∧
    FlagChange (s.port p).ferr y.ferr (∃ b, i = .evRxfe p b) (i = .stRxer p) := by
  cases h with
  | keep | arrive | clearRx | fill | sendByte | load | shift | deliver => exact ⟨.same, .same, .same, .same⟩
  | overrun => exact ⟨.same, .same, .raised ⟨_, rfl⟩, .same⟩
  | frameError => exact ⟨.same, .same, .same, .raised ⟨_, rfl⟩⟩
  | recover => exact ⟨.same, .same, .cleared rfl, .cleared rfl⟩
  | rxReady => exact ⟨.cleared rfl, .same, .same, .same⟩
  | txReady => exact ⟨.same, .cleared (.inr rfl), .same, .same⟩
  | start => exact ⟨.same, .cleared (.inl rfl), .same, .same⟩
  | sendEnd => exact ⟨.same, .raised rfl, .same, .same⟩
  | receive =>
    obtain ⟨hrx, htx, ho, hf⟩ := storeRx_flags (s.portCfg p).rxLen ((s.port p).rxq.headD 0)
      { s.port p with rxq := (s.port p).rxq.tail }
    unfold endFrame
    split <;> simp only [hrx, htx, ho, hf]
    · exact ⟨.raised trivial, .same, .same, .same⟩
    · exact ⟨.same, .same, .same, .same⟩

theorem Arms.instr {q : Idx} {op : Nat} (h : Arms s q i op) :
    i = .i2cWrite q ∨ i = .i2cRead q ∨ i = .i2cProbe q ∨ i = .stHcont := by
  cases h with
  | write => exact .inl rfl
  | read => exact .inr (.inl rfl)
  | probe => exact .inr (.inr (.inl rfl))
  | resume => exact .inr (.inr (.inr rfl))

/-- A phase step clears MIF, lowers busy or leaves it, and leaves ACKSTAT. -/
theorem PhaseWrite.flags {x y : I2cPort} (h : PhaseWrite x y) :
    (y.busy = x.busy ∨ y.busy = false) ∧ y.mif = false ∧ y.ackstat = x.ackstat := by
  cases h with
  | writeEnd | readEnd => exact ⟨.inr rfl, rfl, rfl⟩
  | sendByte | endBytes | readAddress | receive | store | storeLast => exact ⟨.inl rfl, rfl, rfl⟩

theorem complete_flags (x : I2cPort) (d : Byte) :
    (complete x d).busy = x.busy ∧ ((complete x d).ackstat ≠ x.ackstat → x.bop = .send) := by
  unfold complete
  split
  next h => exact ⟨rfl, fun _ => h⟩
  all_goals exact ⟨rfl, fun hne => absurd rfl hne⟩

/-- The writers of busy, MIF and ACKSTAT. -/
theorem I2cWrite.flags {q : Idx} {y : I2cPort} (h : I2cWrite s q i y) :
    FlagChange (s.i2cp q).busy y.busy (i = .i2cWrite q ∨ i = .i2cRead q ∨ i = .i2cProbe q ∨ i = .stHcont)
      (i = .stI2sv q) ∧
    FlagChange (s.i2cp q).mif y.mif (∃ d, i = .evI2cd q d)
      (i = .stI2sv q ∨ i = .i2cWrite q ∨ i = .i2cRead q ∨ i = .i2cProbe q ∨ i = .stHcont) ∧
    (y.ackstat ≠ (s.i2cp q).ackstat → (∃ d, i = .evI2cd q d) ∧ (s.i2cp q).bop = .send) := by
  cases h with
  | keep => exact ⟨.same, .same, fun hne => absurd rfl hne⟩
  | write ha | read ha | probe ha =>
    exact ⟨.raised ha.instr, .cleared (.inr ha.instr), fun hne => absurd rfl hne⟩
  | @complete d _ =>
    obtain ⟨hb, hack⟩ := complete_flags (s.i2cp q) d
    exact ⟨hb ▸ .same, .raised ⟨d, rfl⟩, fun hne => ⟨⟨d, rfl⟩, hack hne⟩⟩
  | phase _ hy =>
    obtain ⟨hb, hm, hack⟩ := hy.flags
    refine ⟨?_, hm ▸ .cleared (.inl rfl), fun hne => absurd hack hne⟩
    obtain hb | hb := hb <;> rw [hb]
    · exact .same
    · exact .cleared rfl

/-! ### Host registers -/

theorem Changes.registers (h : Changes s i t) :
    (t.arg0 = s.arg0 ∨ i = .wrArg0 t.arg0) ∧ (t.arg1 = s.arg1 ∨ i = .wrArg1 t.arg1) ∧
    (t.stg = s.stg ∨ ∃ d, i = .wrStgData d) ∧ (t.cmd = s.cmd ∨ i = .wrCmd t.cmd ∨ encode i = .cmd t.cmd) ∧
    (t.result = s.result ∨ WritesResult i) := by
  induction h with
  | refl | stgPtr | stgGet | bufSel | bufPtr => exact ⟨.inl rfl, .inl rfl, .inl rfl, .inl rfl, .inl rfl⟩
  | enter hw => exact ⟨.inl rfl, .inl rfl, .inl rfl, .inr hw, .inl rfl⟩
  | arg0 hi => exact ⟨.inr hi, .inl rfl, .inl rfl, .inl rfl, .inl rfl⟩
  | arg1 hi => exact ⟨.inl rfl, .inr hi, .inl rfl, .inl rfl, .inl rfl⟩
  | stgPut hi => exact ⟨.inl rfl, .inl rfl, .inr ⟨_, hi⟩, .inl rfl, .inl rfl⟩
  | result _ hi _ ih =>
    obtain ⟨h0, h1, hs, hc, -⟩ := ih
    exact ⟨h0, h1, hs, hc, .inr hi⟩
  | mark _ _ _ _ _ ih | chan _ _ _ ih | port _ _ _ ih | i2c _ _ _ ih | wait _ _ ih | bufNext _ _ _ _ ih => exact ih

/-- What acts is no host access of the BUS form, unless the instruction itself is it. -/
theorem eq_of_actsAs_bus {j : Instr} (h : actsAs i = j) (hj : ∀ w, encode j ≠ .cmd w) : i = j := by
  obtain he | ⟨w, -, he⟩ := actsAs_eq_or i
  · exact he.symm.trans h
  · exact absurd (h ▸ he) (hj w)

end Sys2Proof.Machine

namespace Sys2Proof.Proofs

open Sys2Proof.Machine

/-- Settles O57: the one write that the channel's record may have had. -/
theorem transferStateWriters : Obligations.TransferStateWriters := by
  intro s t i c h hne
  obtain heq | ⟨hx, hi⟩ | ⟨hx, hi⟩ | ⟨hx, hi⟩ := ((exec_changes h).chan_write c).xfer
  · exact absurd heq hne
  all_goals
    rw [hx]
    exact hi

/-- Settles O58: the one write that each record of index `k` may have had. -/
theorem flagWriters : Obligations.FlagWriters := by
  intro s t i k h
  have hc := exec_changes h
  obtain ⟨hrx, htx, hoerr, hferr⟩ := (hc.port_write k).flags
  obtain ⟨hbusy, hmif, hack⟩ := (hc.i2cp_write k).flags
  exact ⟨hrx, htx, hoerr, hferr, (hc.chan_write k).pend, hbusy, hmif, hack⟩

/-- Settles O59: a register that changed was written by the instruction, or by the command it acts as. -/
theorem registerWriters : Obligations.RegisterWriters := by
  intro s t i h
  obtain ⟨h0, h1, hs, hc, hr⟩ := (exec_changes h).registers
  refine ⟨fun hne => eq_of_actsAs_bus (h0.resolve_left hne) nofun,
    fun hne => eq_of_actsAs_bus (h1.resolve_left hne) nofun, fun hne => ?_, fun hne => ?_, hr.resolve_left⟩
  · obtain ⟨d, hd⟩ := hs.resolve_left hne
    exact ⟨d, eq_of_actsAs_bus hd nofun⟩
  · obtain hi | hi := hc.resolve_left hne
    · exact .inl (eq_of_actsAs_bus hi nofun)
    · obtain he | ⟨w, rfl, he⟩ := actsAs_eq_or i
      · exact .inr (he ▸ hi)
      · exact .inl (congrArg Instr.wrCmd (Entry.cmd.inj (he.symm.trans hi)))

end Sys2Proof.Proofs

/-! ## O3, O4 and O5: the word of each instruction, the instruction of each legal word, and the words that name none. -/

namespace Sys2Proof

variable {w : Word} {i : Instr}

/-- The number that a concatenation denotes. -/
theorem toNat_append_eq {m n : Nat} (a : BitVec m) (b : BitVec n) : (a ++ b).toNat = 2 ^ n * a.toNat + b.toNat := by
  rw [BitVec.toNat_append, Nat.shiftLeft_eq, Nat.mul_comm, Nat.two_pow_add_eq_or_of_lt b.isLt]

theorem decode_of_encode {e : Entry} (h : encode i = e) : decode e = .ok i := h ▸ Proofs.roundTripEveryInstruction i

/-! ### Rows of the opcode tables -/

theorem cmdWord_toNat (u o : BitVec 4) (k : Idx) :
    (cmdWord u o k).toNat = 0x100 * (0x10 * u.toNat + o.toNat) + 0x10 * k.val := by
  simp only [cmdWord, toNat_append_eq, BitVec.toNat_ofFin, BitVec.toNat_ofNat]
  omega

theorem evtWord_toNat (kind : BitVec 4) (k : Idx) (d : Byte) :
    (evtWord kind k d).toNat = 0x1000 * kind.toNat + 0x100 * k.val + d.toNat := by
  simp only [evtWord, toNat_append_eq, BitVec.toNat_ofFin]
  omega

/-- A row of the command tables, which give UNIT and OP as one byte (R89 to R92). -/
theorem decode_cmd_row {u o : BitVec 4} {k : Idx} {n : Nat} (hn : n = 0x10 * u.toNat + o.toNat)
    (h : encode i = .cmd (cmdWord u o k)) : decode (.cmd (BitVec.ofNat 16 (0x100 * n + 0x10 * k.val))) = .ok i := by
  rw [hn, ← cmdWord_toNat, BitVec.ofNat_toNat, BitVec.setWidth_eq]
  exact decode_of_encode h

theorem decode_evt_row {kind : BitVec 4} {k : Idx} {d : Byte} {n : Nat} (hn : n = kind.toNat)
    (h : encode i = .evt (evtWord kind k d)) :
    decode (.evt (BitVec.ofNat 16 (0x1000 * n + 0x100 * k.val + d.toNat))) = .ok i := by
  rw [hn, ← evtWord_toNat, BitVec.ofNat_toNat, BitVec.setWidth_eq]
  exact decode_of_encode h

theorem decode_step_row {kind : BitVec 4} {k : Idx} {n : Nat} (hn : n = kind.toNat)
    (h : encode i = .step (evtWord kind k 0)) :
    decode (.step (BitVec.ofNat 16 (0x1000 * n + 0x100 * k.val))) = .ok i := by
  have hw : (evtWord kind k 0).toNat = 0x1000 * kind.toNat + 0x100 * k.val := evtWord_toNat kind k 0
  rw [hn, ← hw, BitVec.ofNat_toNat, BitVec.setWidth_eq]
  exact decode_of_encode h

/-! ### Legal EVT and STEP words -/

/-- An event or step word is the one that its KIND, IDX and data make (R94, R95). -/
theorem evtWord_of_kind {kind : BitVec 4} (h : (field w 12 4).toNat = kind.toNat) :
    evtWord kind (idxAt w 8) (field w 0 8) = w := by
  rw [← BitVec.eq_of_toNat_eq h, evtWord_fields]

theorem encode_of_decodeEvt (h : decodeEvt w = .ok i) : encode i = .evt w := by
  unfold decodeEvt at h
  split at h
  case h_7 => cases h
  all_goals
    rename_i hk
    cases h
    exact congrArg Entry.evt (evtWord_of_kind hk)

theorem encode_of_decodeStep (h : decodeStep w = .ok i) : encode i = .step w := by
  unfold decodeStep at h
  split at h
  case isTrue => cases h
  case isFalse hlow =>
    have hlow : field w 0 8 = 0 := not_not.1 hlow
    have word_of_kind {kind : BitVec 4} (hk : (field w 12 4).toNat = kind.toNat) : evtWord kind (idxAt w 8) 0 = w :=
      hlow ▸ evtWord_of_kind hk
    split at h
    case h_7 hk =>
      split at h
      next hidx =>
        cases h
        have hi : idxAt w 8 = 0 := congrArg BitVec.toFin hidx
        exact congrArg Entry.step (hi ▸ word_of_kind (kind := 7) hk)
      next => cases h
    case h_8 => cases h
    all_goals
      rename_i hk
      cases h
      exact congrArg Entry.step (word_of_kind hk)

/-! ### Access words -/

/-- The access to index `a`, a write of the data or a read, is the entry of an instruction. -/
def Named (a : BitVec 8) (od : Option Word) : Prop := ∃ i, encode i = busEntry a od

theorem named_of_pair {a : BitVec 8} {rd : Instr} {wr : Word → Instr} (hr : encode rd = busEntry a none)
    (hw : ∀ d, encode (wr d) = busEntry a (some d)) : ∀ od, Named a od
  | none => ⟨rd, hr⟩
  | some d => ⟨wr d, hw d⟩

/-- Indices 0x00 to 0x0F (R24). -/
theorem named_register (k : Idx) : ∀ od, Named (viewIndex 0 k) od := by
  fin_cases k
  · exact named_of_pair (rd := .rdCmd) (wr := .wrCmd) rfl fun _ => rfl
  · exact named_of_pair (rd := .rdArg0) (wr := .wrArg0) rfl fun _ => rfl
  · exact named_of_pair (rd := .rdArg1) (wr := .wrArg1) rfl fun _ => rfl
  · exact named_of_pair (rd := .rdResult) (wr := .wrResult) rfl fun _ => rfl
  · exact named_of_pair (rd := .rdStgPtr) (wr := .wrStgPtr) rfl fun _ => rfl
  · exact named_of_pair (rd := .rdStgData) (wr := .wrStgData) rfl fun _ => rfl
  · exact named_of_pair (rd := .rdBufSel) (wr := .wrBufSel) rfl fun _ => rfl
  · exact named_of_pair (rd := .rdBufPtr) (wr := .wrBufPtr) rfl fun _ => rfl
  · exact named_of_pair (rd := .rdBufData) (wr := .wrBufData) rfl fun _ => rfl
  · exact fun od => ⟨.rsv09 od, rfl⟩
  · exact fun od => ⟨.rsv0A 0 od, rfl⟩
  · exact fun od => ⟨.rsv0A 1 od, rfl⟩
  · exact fun od => ⟨.rsv0C 0 od, rfl⟩
  · exact fun od => ⟨.rsv0C 1 od, rfl⟩
  · exact fun od => ⟨.rsv0C 2 od, rfl⟩
  · exact fun od => ⟨.rsv0C 3 od, rfl⟩

/-- An index of the block 0xE0 to 0xFF, cut as the reserved accesses and as the views have it. -/
theorem append_eq_viewIndex {b : BitVec 1} {u : BitVec 4} (hu : 0b111#3 ++ b = u) (k : Idx) :
    0b111#3 ++ (b ++ BitVec.ofFin (w := 4) k) = viewIndex u k := by
  apply BitVec.eq_of_toNat_eq
  simp only [← hu, viewIndex, toNat_append_eq]
  omega

/-- Every block of 16 indices (R24). -/
theorem named_viewIndex (u k : Idx) : ∀ od, Named (viewIndex (.ofFin u) k) od := by
  fin_cases u
  · exact named_register k
  · exact named_of_pair (rd := .rdChstat k) (wr := .wrChstat k) rfl fun _ => rfl
  · exact named_of_pair (rd := .rdChcnt k) (wr := .wrChcnt k) rfl fun _ => rfl
  · exact named_of_pair (rd := .rdChrem k) (wr := .wrChrem k) rfl fun _ => rfl
  · exact named_of_pair (rd := .rdUstat k) (wr := .wrUstat k) rfl fun _ => rfl
  · exact named_of_pair (rd := .rdUrxcnt k) (wr := .wrUrxcnt k) rfl fun _ => rfl
  · exact named_of_pair (rd := .rdUtxcnt k) (wr := .wrUtxcnt k) rfl fun _ => rfl
  · exact named_of_pair (rd := .rdUtxlen k) (wr := .wrUtxlen k) rfl fun _ => rfl
  · exact named_of_pair (rd := .rdIstat k) (wr := .wrIstat k) rfl fun _ => rfl
  · exact named_of_pair (rd := .rdItxcnt k) (wr := .wrItxcnt k) rfl fun _ => rfl
  · exact named_of_pair (rd := .rdIrxcnt k) (wr := .wrIrxcnt k) rfl fun _ => rfl
  · exact named_of_pair (rd := .rdIwlen k) (wr := .wrIwlen k) rfl fun _ => rfl
  · exact named_of_pair (rd := .rdIrlen k) (wr := .wrIrlen k) rfl fun _ => rfl
  · exact fun od => ⟨.rsvD0 (.ofFin k) od, rfl⟩
  · exact fun od => ⟨.rsvE0 (0#1 ++ BitVec.ofFin (w := 4) k) od, congrArg (busEntry · od) (append_eq_viewIndex rfl k)⟩
  · exact fun od => ⟨.rsvE0 (1#1 ++ BitVec.ofFin (w := 4) k) od, congrArg (busEntry · od) (append_eq_viewIndex rfl k)⟩

theorem viewIndex_fields (a : BitVec 8) : viewIndex (field a 4 4) (idxAt a 0) = a := by
  have h : viewIndex (field a 4 4) (idxAt a 0) = field a 4 4 ++ field a 0 4 := rfl
  apply BitVec.eq_of_toNat_eq
  rw [h, toNat_append_eq, field_toNat, field_toNat]
  omega

theorem every_access_named (a : BitVec 8) (od : Option Word) : Named a od := viewIndex_fields a ▸ named_viewIndex _ _ od

/-- What an access word decodes to is the instruction that the word is the entry of. -/
theorem encode_decodeBus {a : BitVec 8} {od : Option Word} {acc : BitVec 9} {d : Word}
    (h : busEntry a od = .bus acc d) : encode (decodeBus acc d) = .bus acc d := by
  obtain ⟨i, hi⟩ := every_access_named a od
  have hi := hi.trans h
  rw [Except.ok.inj (decode_of_encode hi), hi]

/-- A read carries no data (R86). -/
theorem decodeBus_read (a : BitVec 8) (d : Word) : decodeBus (0#1 ++ a) d = decodeBus (0#1 ++ a) 0 := by
  have h : (0#1 ++ a).getLsbD 8 = false := by rw [BitVec.getLsbD_append]; rfl
  unfold decodeBus
  rw [h]
  rfl

/-! ### Words that name nothing -/

theorem field_eq_zero_iff {n : Nat} {v : BitVec n} {lo len : Nat} :
    field v lo len = 0 ↔ v.toNat / 2 ^ lo % 2 ^ len = 0 := by
  rw [← field_toNat]
  exact BitVec.toNat_inj.symm

/-- The top field of a word (R87, R94, R95). -/
theorem field_top_toNat (w : Word) : (field w 12 4).toNat = w.toNat / 4096 := by
  have hw := w.isLt
  rw [field_toNat]
  omega

theorem decodeCmd_error_iff : (∃ r, decodeCmd w = .error r) ↔
    w.toNat % 16 ≠ 0 ∨ w.toNat / 4096 = 0 ∧ w ≠ 0 ∨ 4 ≤ w.toNat / 4096 ∨
      (w.toNat / 4096 = 1 ∨ w.toNat / 4096 = 2) ∧ 6 ≤ w.toNat / 256 % 16 ∨
      w.toNat / 4096 = 3 ∧ 3 ≤ w.toNat / 256 % 16 := by
  have h0 : w ≠ 0 ↔ w.toNat ≠ 0 := BitVec.toNat_ne
  have ho : (field w 8 4).toNat = w.toNat / 256 % 16 := field_toNat w 8 4
  simp only [h0, decodeCmd, ne_eq, field_eq_zero_iff, field_top_toNat, ho]
  split
  case isTrue => exact iff_of_true ⟨_, rfl⟩ (by omega)
  case isFalse =>
    split
    case h_1 =>
      split
      · exact iff_of_false nofun (by omega)
      · exact iff_of_true ⟨_, rfl⟩ (by omega)
    case h_17 => exact iff_of_true ⟨_, rfl⟩ (by grind)
    all_goals exact iff_of_false nofun (by omega)

theorem decodeEvt_error_iff : (∃ r, decodeEvt w = .error r) ↔ w.toNat / 4096 = 0 ∨ 7 ≤ w.toNat / 4096 := by
  simp only [decodeEvt, field_top_toNat]
  split
  case h_7 => exact iff_of_true ⟨_, rfl⟩ (by grind)
  all_goals exact iff_of_false nofun (by omega)

theorem decodeStep_error_iff : (∃ r, decodeStep w = .error r) ↔ w.toNat % 256 ≠ 0 ∨ w.toNat / 4096 = 0 ∨
    8 ≤ w.toNat / 4096 ∨ w.toNat / 4096 = 7 ∧ w.toNat / 256 % 16 ≠ 0 := by
  simp only [decodeStep, ne_eq, field_eq_zero_iff, field_top_toNat]
  split
  case isTrue => exact iff_of_true ⟨_, rfl⟩ (by omega)
  case isFalse =>
    split
    case h_7 =>
      split
      · exact iff_of_false nofun (by omega)
      · exact iff_of_true ⟨_, rfl⟩ (by omega)
    case h_8 => exact iff_of_true ⟨_, rfl⟩ (by grind)
    all_goals exact iff_of_false nofun (by omega)

end Sys2Proof

namespace Sys2Proof.Proofs

/-- Settles O3: the word of each row is the one its instruction encodes to, which decodes to it. -/
theorem opcodeTables : Obligations.OpcodeTables := by
  refine ⟨rfl, rfl, fun i => ⟨fun op mk h => ?_, fun kind mk h d => ?_, fun kind mk h => ?_⟩⟩ <;>
    simp only [List.mem_cons, Prod.mk.injEq, List.not_mem_nil, or_false] at h
  · rcases h with ⟨rfl, rfl⟩ | ⟨rfl, rfl⟩ | ⟨rfl, rfl⟩ | ⟨rfl, rfl⟩ | ⟨rfl, rfl⟩ | ⟨rfl, rfl⟩ | ⟨rfl, rfl⟩ | ⟨rfl, rfl⟩ |
      ⟨rfl, rfl⟩ | ⟨rfl, rfl⟩ | ⟨rfl, rfl⟩ | ⟨rfl, rfl⟩ | ⟨rfl, rfl⟩ | ⟨rfl, rfl⟩ | ⟨rfl, rfl⟩
    all_goals exact decode_cmd_row rfl rfl
  · rcases h with ⟨rfl, rfl⟩ | ⟨rfl, rfl⟩ | ⟨rfl, rfl⟩ | ⟨rfl, rfl⟩ | ⟨rfl, rfl⟩ | ⟨rfl, rfl⟩
    all_goals exact decode_evt_row rfl rfl
  · rcases h with ⟨rfl, rfl⟩ | ⟨rfl, rfl⟩ | ⟨rfl, rfl⟩ | ⟨rfl, rfl⟩ | ⟨rfl, rfl⟩ | ⟨rfl, rfl⟩
    all_goals exact decode_step_row rfl rfl

/-- Settles O4: a CMD, EVT or STEP word is rebuilt from its fields, and every access is the entry of an instruction. -/
theorem everyLegalWordIsEncoded : Obligations.EveryLegalWordIsEncoded := by
  refine ⟨fun _ _ => Machine.encode_of_decodeCmd, fun _ _ => encode_of_decodeEvt, fun _ _ => encode_of_decodeStep,
    fun a d => encode_decodeBus (a := a) (od := some d) rfl, fun a d => ?_⟩
  rw [decodeBus_read]
  exact encode_decodeBus (a := a) (od := none) rfl

/-- Settles O5: the branches of each decoder, by the numbers of the word's fields. -/
theorem wordsThatNameNothing : Obligations.WordsThatNameNothing :=
  ⟨fun _ => decodeCmd_error_iff, fun _ => decodeEvt_error_iff, fun _ => decodeStep_error_iff⟩

end Sys2Proof.Proofs

/-! ## O7 and O11: what is refused as a bad trace. -/

namespace Sys2Proof.Machine

variable {s : State} {i : Instr}

/-! ### Accesses of a held host (R99) -/

section Held

variable {w : Word} {k : State → Result} (hl : Live s) (hw : s.hostWait ≠ .none)
include hl hw

theorem hostRead_off {v : State → Word} : RefusedAs .badTrace s (hostRead s v) := hostAccess_off hl hw

theorem hostRefused_off {r : Refusal} : RefusedAs .badTrace s (hostRefused r s) := hostAccess_off hl hw

theorem command_off : RefusedAs .badTrace s (command w s k) := hostAccess_off hl hw

theorem chanCommand_off {op : BitVec 4} {c : Idx} : RefusedAs .badTrace s (chanCommand op c s k) := command_off hl hw

theorem uartCommand_off {op : BitVec 4} {p : Idx} : RefusedAs .badTrace s (uartCommand op p s k) := command_off hl hw

theorem uartQuery_off {op : BitVec 4} {p : Idx} : RefusedAs .badTrace s (uartQuery op p s k) := command_off hl hw

theorem reservedWord_off : RefusedAs .badTrace s (reservedWord w s) := command_off hl hw

/-- Every host access but WR CMD, which takes the meaning of a command (R110). -/
theorem exec_held_of_ne_wrCmd (hi : isHostAccess i = true) (hne : ∀ w, i ≠ .wrCmd w) :
    RefusedAs .badTrace s (exec i s) := by
  cases i with dsimp only [exec]
  | wrCmd w => exact absurd rfl (hne w)
  | evRxb | evRxfe | evTxld | evTxsh | evChrq | evI2cd => cases hi
  | stRxsv | stRxer | stTxsv | stXfer | stChcp | stI2sv | stHcont => cases hi
  | rdCmd | rdArg0 | rdArg1 | rdResult | rdStgPtr | rdBufSel | rdBufPtr => exact hostRead_off hl hw
  | rdChstat | rdChcnt | rdChrem | rdUstat | rdUrxcnt | rdUtxcnt | rdUtxlen => exact hostRead_off hl hw
  | rdIstat | rdItxcnt | rdIrxcnt | rdIwlen | rdIrlen => exact hostRead_off hl hw
  | wrResult | wrChstat | wrChcnt | wrChrem | wrUstat | wrUrxcnt | wrUtxcnt | wrUtxlen => exact hostRefused_off hl hw
  | wrIstat | wrItxcnt | wrIrxcnt | wrIwlen | wrIrlen => exact hostRefused_off hl hw
  | rsv09 | rsv0A | rsv0C | rsvD0 | rsvE0 => exact hostRefused_off hl hw
  | rdStgData | rdBufData | wrArg0 | wrArg1 | wrStgPtr | wrStgData | wrBufSel | wrBufPtr | wrBufData =>
    exact hostAccess_off hl hw
  | chAcquire | chEnable | chDisable | chForce | chSetcnt => exact chanCommand_off hl hw
  | uartFill | uartStart | uartClearRx => exact uartCommand_off hl hw
  | uartRxReady | uartTxReady | uartSendDma => exact uartQuery_off hl hw
  | nop | chPoll | i2cWrite | i2cRead | i2cProbe => exact command_off hl hw

theorem exec_held (hi : isHostAccess i = true) : RefusedAs .badTrace s (exec i s) := by
  cases i with
  | wrCmd w =>
    obtain h | ⟨j, hj, hne, he⟩ := decodeCmd_cases w
    · exact (exec_wrCmd_of_error h).trans (reservedWord_off hl hw)
    · have hj : isHostAccess j = true := by simp only [isHostAccess, encode_of_decodeCmd hj]
      exact he ▸ exec_held_of_ne_wrCmd hl hw hj hne
  | _ => exact exec_held_of_ne_wrCmd hl hw hi nofun

end Held

/-! ### Events and steps of absent instances (R94, R95) -/

theorem exec_absent (hl : Live s) (hi : i.wellFormed s.cfg = false) : RefusedAs .badTrace s (exec i s) := by
  cases i with dsimp only [exec]
  | evRxb | evRxfe | evChrq => exact transition_off hl hi
  | evTxld | evTxsh | evI2cd | stRxsv | stRxer | stTxsv | stXfer | stChcp | stI2sv =>
    simp only [Instr.wellFormed] at hi
    refine transition_off hl ?_
    simp only [rxsvEnabled, rxerEnabled, txsvEnabled, xferEnabled, chcpEnabled, i2svEnabled, hi, Bool.false_and]
  | _ => cases hi

end Sys2Proof.Machine

namespace Sys2Proof.Proofs

open Sys2Proof.Machine

/-- Settles O7: the step runs the entry, whose outcome is known for each form. -/
theorem wordOfNoTransitionRefused : Obligations.WordOfNoTransitionRefused := by
  intro s w rest r hl
  refine ⟨fun hp hd => ?_, fun hp hd => ?_, fun hp hd hw => ?_⟩ <;> rw [step_of_cons hp]
  · exact (runEntry_of_error (e := .evt w) hd nofun).trans (live_eq hl)
  · exact (runEntry_of_error (e := .step w) hd nofun).trans (live_eq hl)
  · exact (runEntry_reservedCmd hd).trans (command_on ⟨hl, hw⟩)

/-- Settles O11: neither a held host's access nor a transition of an absent instance is enabled. -/
theorem disabledTransitionsAreBadTrace : Obligations.DisabledTransitionsAreBadTrace := by
  rintro s i hl (⟨hi, hw⟩ | hi)
  · exact exec_held hl hw hi
  · exact exec_absent hl hi

end Sys2Proof.Proofs

/-! ## O14, O15, O25 and O26: plain registers, and a write to CMD. -/

namespace Sys2Proof.Machine

variable {s : State} {w : Word} {k : State → Result}

/-! ### A write to CMD (R110) -/

/-- What CMD holds before a command does not matter: the command enters its own word. -/
theorem command_enter (h : HostReady s) (v : Word) : command w { s with cmd := v } k = command w s k := by
  have hv : HostReady { s with cmd := v } := h
  rw [command_on hv, command_on h]

theorem chanCommand_enter (h : HostReady s) (v : Word) {op : BitVec 4} {c : Idx} :
    chanCommand op c { s with cmd := v } k = chanCommand op c s k := command_enter h v

theorem uartCommand_enter (h : HostReady s) (v : Word) {op : BitVec 4} {p : Idx} :
    uartCommand op p { s with cmd := v } k = uartCommand op p s k := command_enter h v

theorem uartQuery_enter (h : HostReady s) (v : Word) {op : BitVec 4} {p : Idx} :
    uartQuery op p { s with cmd := v } k = uartQuery op p s k := command_enter h v

theorem exec_wrCmd_enter (h : HostReady s) : exec (.wrCmd w) { s with cmd := w } = exec (.wrCmd w) s := by
  dsimp only [exec, execWrCmd]
  split
  case h_2 | h_3 | h_4 | h_5 | h_7 => exact chanCommand_enter h w
  case h_8 | h_9 | h_13 => exact uartCommand_enter h w
  case h_10 | h_11 | h_12 => exact uartQuery_enter h w
  all_goals exact command_enter h w

/-- A write of a reserved word (R112). -/
theorem exec_wrCmd_reserved (h : HostReady s) {r : Reject} (hd : decodeCmd w = .error r) :
    RefusedAs .reservedCommand { s with cmd := w } (exec (.wrCmd w) s) :=
  (exec_wrCmd_of_error hd).trans (command_on h)

/-- A write of a legal word (R110). -/
theorem exec_wrCmd_of_ok {i : Instr} (hd : decodeCmd w = .ok i) : exec (.wrCmd w) = exec i := by
  obtain he | ⟨j, hj, -, he⟩ := decodeCmd_cases w
  · cases he.symm.trans hd
  · cases hj.symm.trans hd
    exact he

end Sys2Proof.Machine

namespace Sys2Proof.Proofs

open Sys2Proof.Machine

/-- Settles O26: the write acts as from a state whose CMD is the word already, and what a command may leave in CMD is
its own word only (O59). -/
theorem writeCmdExecutes : Obligations.WriteCmdExecutes := by
  refine fun w s => ⟨rfl, fun i hd => congrFun (exec_wrCmd_of_ok hd) s, fun r hd h => exec_wrCmd_reserved h hd,
    fun h => ?_⟩
  obtain ⟨t, ht⟩ := (gated_exec (.wrCmd w)).advances h.1
  refine ⟨t, ht, ?_⟩
  obtain ⟨-, -, -, hcmd, -⟩ := registerWriters _ t (.wrCmd w) ((exec_wrCmd_enter h).trans ht)
  by_contra hne
  obtain hi | hi := hcmd hne
  · exact hne (Instr.wrCmd.inj hi).symm
  · cases hi

/-- Settles O25: both are commands of a host that is free. -/
theorem commandWordsWithoutEffect : Obligations.CommandWordsWithoutEffect :=
  ⟨rfl, fun _ h => ⟨command_on h, fun _ _ hd => exec_wrCmd_reserved h hd⟩⟩

/-- Settles O14: each is a read by a host that is free. -/
theorem plainRegisterReads : Obligations.PlainRegisterReads :=
  ⟨rfl, rfl, rfl, rfl, rfl, rfl, rfl, fun _ h => ⟨hostRead_on h, hostRead_on h, hostRead_on h, hostRead_on h,
    hostRead_on h, hostRead_on h, hostRead_on h⟩⟩

/-- Settles O15: each is an access by a host that is free. -/
theorem argumentWrites : Obligations.ArgumentWrites := by
  refine fun d => ⟨rfl, rfl, fun s h => ?_⟩
  dsimp only [exec]
  exact ⟨hostAccess_on h, hostAccess_on h⟩

end Sys2Proof.Proofs

/-! ## O16 to O21: the windows on STG and on the engine buffers. -/

namespace Sys2Proof.Machine

variable {s : State} {d : Word} {b : Buf}

/-! ### A load (R104, R107) -/

section Load

variable {ptr : Word} {bump : Word → State → State}

theorem windowRead_end (h : ptr.toNat = s.cap b) : RefusedAs .readPastEnd s (windowRead s b ptr bump) := if_pos h

theorem windowRead_written (h : ptr.toNat ≠ s.cap b) {v : Byte} (hv : Mem.read (s.mem b) ptr.toNat = some v) :
    windowRead s b ptr bump = .next (bump (ptr + 1) { s with rdata := zext16 v }) :=
  (if_neg h).trans (observe_some hv)

theorem windowRead_unwritten (h : ptr.toNat ≠ s.cap b) (hv : Mem.read (s.mem b) ptr.toNat = none) :
    FaultsAs (.unwrittenRead b ptr.toNat) s (windowRead s b ptr bump) :=
  (if_neg h).trans (observe_none hv)

end Load

theorem zext16_eq_append (v : Byte) : zext16 v = 0#8 ++ v := by
  simp [zext16, BitVec.setWidth_eq_append]

/-! ### A store (R103, R108) -/

/-- A store puts one byte in one cell, and every other cell keeps its own. -/
theorem cells_of_put {s t : State} {a : Nat} {v : Byte} (hb : t.mem b = Mem.put (s.mem b) a v)
    (hne : ∀ b', b' ≠ b → t.mem b' = s.mem b') :
    Mem.read (t.mem b) a = some v ∧ CellsExcept (fun b' a' => b' = b ∧ a' = a) s t := by
  refine ⟨by rw [hb, Mem.read_put, if_pos rfl], fun b' a' h => ?_⟩
  by_cases he : b' = b
  · subst he
    rw [hb, Mem.read_put, if_neg fun ha => h ⟨rfl, ha.symm⟩]
  · rw [hne b' he]

/-! ### BUF_SEL (R31, R105, R206) -/

theorem field_one_eq_zero_iff {n : Nat} {v : BitVec n} {lo : Nat} : field v lo 1 = 0 ↔ v.getLsbD lo = false := by
  rw [field, BitVec.eq_of_getLsbD_eq_iff]
  simp

theorem not_selLegal_iff : (!selLegal d) = true ↔
    d.extractLsb' 8 8 ≠ 0 ∨ d.getLsbD 3 = true ∨ 4 < (d.extractLsb' 0 3).toNat := by
  simp only [selLegal, Bool.not_eq_true', Bool.and_eq_false_iff, decide_eq_false_iff_not, field_one_eq_zero_iff, or_assoc,
    Bool.not_eq_false, not_le]
  rfl

theorem selCount_eq (cfg : Config) (kind : Nat) : selCount cfg kind =
    if kind = 0 ∨ kind = 1 then cfg.nUart else if kind = 2 ∨ kind = 3 then cfg.nI2c else cfg.nCh := by
  unfold selCount
  grind

/-- The BUF_SEL value with the fields KIND and IDX; the other bits are free (R31). -/
def selWord (hi : Byte) (r : BitVec 1) (i : Idx) (kind : BitVec 3) : Word :=
  hi ++ BitVec.ofFin (w := 4) i ++ r ++ kind

theorem selKind_selWord (hi : Byte) (r : BitVec 1) (i : Idx) (kind : BitVec 3) :
    selKind (selWord hi r i kind) = kind.toNat :=
  congrArg BitVec.toNat (field_append_low (hi ++ BitVec.ofFin (w := 4) i ++ r) kind)

theorem selIdx_selWord (hi : Byte) (r : BitVec 1) (i : Idx) (kind : BitVec 3) : selIdx (selWord hi r i kind) = i := by
  have h := field_append_high (hi ++ BitVec.ofFin (w := 4) i ++ r) kind 1 4
  have h' := field_append_high (hi ++ BitVec.ofFin (w := 4) i) r 0 4
  exact congrArg BitVec.toFin (h.trans (h'.trans (field_append_low hi _)))

theorem sel_selWord_eq_none (hi : Byte) (r : BitVec 1) (i : Idx) {kind : BitVec 3} (h : 4 < kind.toNat) :
    sel (selWord hi r i kind) = none := by
  unfold sel
  rw [selKind_selWord]
  split
  case h_6 => rfl
  all_goals omega

/-! ### An access through the selection (R106, R107) -/

theorem windowAccess_on {g : State → Buf → Result} (h : HostReady s) (hb : sel s.bufSel = some b) :
    hostAccess s (fun s => withSel s (g s)) = g s b := (hostAccess_on h).trans (withSel_some hb)

theorem windowAccess_none {g : State → Buf → Result} (h : HostReady s) (hb : sel s.bufSel = none) :
    RefusedAs .reservedBits s (hostAccess s fun s => withSel s (g s)) := by
  simp only [hostAccess_on h, withSel, hb, refuse]

end Sys2Proof.Machine

namespace Sys2Proof.Proofs

open Sys2Proof.Machine

/-- Settles O16: the capacity itself passes the check. -/
theorem pointerWrites : Obligations.PointerWrites := by
  refine fun d => ⟨rfl, rfl, fun s h => ?_⟩
  dsimp only [exec]
  refine ⟨fun hd => (hostAccess_on h).trans (if_neg (Nat.not_lt.2 hd)), fun hd => (hostAccess_on h).trans (if_pos hd),
    fun b hb => ?_⟩
  have hon {g : State → Buf → Result} := windowAccess_on (g := g) h hb
  exact ⟨fun hd => hon.trans (if_neg (Nat.not_lt.2 hd)), fun hd => hon.trans (if_pos hd)⟩

/-- Settles O17: a store below the capacity puts one cell, and a load is the window's. -/
theorem stagingWindow : Obligations.StagingWindow := by
  refine ⟨rfl, fun d => rfl, fun s h => ?_⟩
  dsimp only [exec]
  refine ⟨fun d hp => ⟨_, (hostAccess_on h).trans (if_pos hp), rfl, cells_of_put rfl fun b hb => ?_⟩,
    fun d hp => (hostAccess_on h).trans (if_neg (Nat.not_lt.2 hp)),
    fun hp => (hostAccess_on h).trans (windowRead_end hp),
    fun hp v hv => zext16_eq_append v ▸ (hostAccess_on h).trans (windowRead_written hp hv),
    fun hp hv => (hostAccess_on h).trans (windowRead_unwritten hp hv)⟩
  cases b with
  | stg => exact absurd rfl hb
  | _ => rfl

/-- Settles O18: the model's checks of a BUF_SEL value, in the rule's words. -/
theorem bufferSelect : Obligations.BufferSelect := by
  refine fun d => ⟨rfl, fun s h => ?_⟩
  dsimp only [exec]
  rw [← selCount_eq]
  refine ⟨fun hr => (hostAccess_on h).trans (if_pos (not_selLegal_iff.2 hr)), fun hr hi => ?_, fun hr hi => ?_⟩ <;>
    refine (hostAccess_on h).trans ((if_neg (mt not_selLegal_iff.1 hr)).trans ?_)
  · exact if_pos hi
  · exact if_neg (Nat.not_le.2 hi)

/-- Settles O19: the fields of the value select the buffer, and a KIND above 4 selects none. -/
theorem selectionNamesBuffer : Obligations.SelectionNamesBuffer := by
  intro s hi r i word
  have hword : word = selWord hi r i := rfl
  clear_value word
  subst hword
  refine ⟨⟨?_, rfl, rfl⟩, ⟨?_, rfl, rfl⟩, ⟨?_, rfl, rfl⟩, ⟨?_, rfl, rfl⟩, ⟨?_, rfl, rfl⟩, fun kind hk hb h => ?_⟩
  case refine_6 =>
    have hnone : sel s.bufSel = none := hb ▸ sel_selWord_eq_none hi r i hk
    dsimp only [exec]
    exact ⟨windowAccess_none h hnone, fun d => windowAccess_none h hnone⟩
  all_goals simp [sel, selKind_selWord, selIdx_selWord]

/-- Settles O20: a load through the window that BUF_SEL names. -/
theorem bufferLoad : Obligations.BufferLoad := by
  refine ⟨rfl, fun s b h hb => ?_⟩
  dsimp only [exec]
  have hon {g : State → Buf → Result} := windowAccess_on (g := g) h hb
  exact ⟨fun hp => hon.trans (windowRead_end hp),
    fun hp v hv => zext16_eq_append v ▸ hon.trans (windowRead_written hp hv),
    fun hp hv => hon.trans (windowRead_unwritten hp hv)⟩

/-- Settles O21: a store below the capacity puts one cell of the channel's record. -/
theorem bufferStore : Obligations.BufferStore := by
  refine fun d => ⟨rfl, fun s h => ?_⟩
  dsimp only [exec]
  refine ⟨fun hk => (hostAccess_on h).trans (if_pos hk), fun hk hp => ?_, fun hk hp => ?_⟩
  · refine ⟨_, (hostAccess_on h).trans ((if_neg (not_not.2 hk)).trans (if_pos hp)), OnlyChan.setChan _ _ _, ?_,
      cells_of_put ?_ fun b hb => ?_⟩
    · simp
    · rw [State.mem_setBufPtr, mem_setChan, if_pos rfl]
      rfl
    · rw [State.mem_setBufPtr, mem_setChan, if_neg hb]
  · exact (hostAccess_on h).trans ((if_neg (not_not.2 hk)).trans (if_neg (Nat.not_lt.2 hp)))

end Sys2Proof.Proofs

/-! ## O22 and O24: the status views, and the accesses that the register map refuses. -/

namespace Sys2Proof.Machine

variable {s : State} {i : Idx}

/-! ### Status views (R109) -/

/-- The access word of a view: `n` is the index of the view of instance 0 (R24, R86). -/
theorem busEntry_viewIndex {u : BitVec 4} {n : Nat} (hn : n = 0x10 * u.toNat) :
    busEntry (viewIndex u i) none = .bus (BitVec.ofNat 9 (n + i.val)) 0 := by
  have hw : (0#1 ++ viewIndex u i).toNat = n + i.val := by
    simp only [viewIndex, toNat_append_eq, BitVec.toNat_ofFin, BitVec.toNat_ofNat]
    omega
  rw [busEntry, ← hw, BitVec.ofNat_toNat, BitVec.setWidth_eq]

theorem trmt_eq (u : UartPort) : trmt u = decide (u.txq.length = 0 ∧ u.tsr = none) := by
  rw [Bool.eq_iff_iff, trmt_iff, decide_eq_true_eq, List.length_eq_zero_iff]

theorem rxda_eq (u : UartPort) : rxda u = decide (0 < u.rxq.length) := by
  rw [Bool.eq_iff_iff, rxda_iff, decide_eq_true_eq, List.length_pos_iff]

/-! ### Refused accesses (R113) -/

/-- A free host that makes the access `i` is refused for `r`. -/
def Refuses (r : Refusal) (i : Instr) : Prop := ∀ s, HostReady s → RefusedAs r s (exec i s)

/-- The access to index `a`, a write of the data or a read, is the entry of an instruction that is refused for `r`. -/
def NamesRefusal (r : Refusal) (a : BitVec 8) (od : Option Word) : Prop := ∃ i, encode i = busEntry a od ∧ Refuses r i

theorem NamesRefusal.read {r : Refusal} {a : BitVec 8} (h : NamesRefusal r a none) (d : Word) :
    Refuses r (decodeBus (0#1 ++ a) d) := by
  obtain ⟨i, hi, hr⟩ := h
  rw [decodeBus_read, Except.ok.inj (decode_of_encode hi)]
  exact hr

theorem NamesRefusal.write {r : Refusal} {a : BitVec 8} {d : Word} (h : NamesRefusal r a (some d)) :
    Refuses r (decodeBus (1#1 ++ a) d) := by
  obtain ⟨i, hi, hr⟩ := h
  rw [Except.ok.inj (decode_of_encode hi)]
  exact hr

theorem append_field_eq_self {m n : Nat} {hi : BitVec m} {a : BitVec (m + n)} (h : a.toNat / 2 ^ n = hi.toNat) :
    hi ++ field a 0 n = a := by
  apply BitVec.eq_of_toNat_eq
  rw [toNat_append_eq, field_toNat, Nat.pow_zero, Nat.div_one, ← h, Nat.div_add_mod]

/-- 0x09 to 0x0F and 0xD0 to 0xFF, by the five ranges of the opcode table. -/
theorem namesRefusal_reserved {a : BitVec 8} (ha : 0x09 ≤ a.toNat ∧ a.toNat ≤ 0x0F ∨ 0xD0 ≤ a.toNat)
    (od : Option Word) : NamesRefusal .unmappedRegister a od := by
  have hcut : a.toNat = 9 ∨ a.toNat / 2 ^ 1 = 5 ∨ a.toNat / 2 ^ 2 = 3 ∨ a.toNat / 2 ^ 4 = 13 ∨ a.toNat / 2 ^ 5 = 7 := by
    omega
  obtain h | h | h | h | h := hcut
  · have ha : 0x09#8 = a := BitVec.eq_of_toNat_eq h.symm
    exact ⟨.rsv09 od, congrArg (busEntry · od) ha, fun _ => hostRefused_on⟩
  · exact ⟨.rsv0A (field a 0 1) od, congrArg (busEntry · od) (append_field_eq_self h), fun _ => hostRefused_on⟩
  · exact ⟨.rsv0C (field a 0 2) od, congrArg (busEntry · od) (append_field_eq_self h), fun _ => hostRefused_on⟩
  · exact ⟨.rsvD0 (field a 0 4) od, congrArg (busEntry · od) (append_field_eq_self h), fun _ => hostRefused_on⟩
  · exact ⟨.rsvE0 (field a 0 5) od, congrArg (busEntry · od) (append_field_eq_self h), fun _ => hostRefused_on⟩

/-- A write to a status view. -/
theorem namesRefusal_view (u k : Idx) (d : Word) (hu : 1 ≤ u.val ∧ u.val ≤ 12) :
    NamesRefusal .readOnlyWrite (viewIndex (.ofFin u) k) (some d) := by
  obtain ⟨u, hlt⟩ := u
  obtain ⟨h1, h12⟩ := hu
  dsimp only at h1 h12
  interval_cases u
  · exact ⟨.wrChstat k d, rfl, fun _ => hostRefused_on⟩
  · exact ⟨.wrChcnt k d, rfl, fun _ => hostRefused_on⟩
  · exact ⟨.wrChrem k d, rfl, fun _ => hostRefused_on⟩
  · exact ⟨.wrUstat k d, rfl, fun _ => hostRefused_on⟩
  · exact ⟨.wrUrxcnt k d, rfl, fun _ => hostRefused_on⟩
  · exact ⟨.wrUtxcnt k d, rfl, fun _ => hostRefused_on⟩
  · exact ⟨.wrUtxlen k d, rfl, fun _ => hostRefused_on⟩
  · exact ⟨.wrIstat k d, rfl, fun _ => hostRefused_on⟩
  · exact ⟨.wrItxcnt k d, rfl, fun _ => hostRefused_on⟩
  · exact ⟨.wrIrxcnt k d, rfl, fun _ => hostRefused_on⟩
  · exact ⟨.wrIwlen k d, rfl, fun _ => hostRefused_on⟩
  · exact ⟨.wrIrlen k d, rfl, fun _ => hostRefused_on⟩

theorem namesRefusal_readOnly {a : BitVec 8} (ha : a = 0x03 ∨ 0x10 ≤ a.toNat ∧ a.toNat ≤ 0xCF) (d : Word) :
    NamesRefusal .readOnlyWrite a (some d) := by
  obtain rfl | ha := ha
  · exact ⟨.wrResult d, rfl, fun _ => hostRefused_on⟩
  · have hu : ((field a 4 4).toFin).val = a.toNat / 2 ^ 4 % 2 ^ 4 := field_toNat a 4 4
    exact viewIndex_fields a ▸ namesRefusal_view (field a 4 4).toFin _ d (by omega)

end Sys2Proof.Machine

namespace Sys2Proof.Proofs

open Sys2Proof.Machine

/-- Settles O22: each view's index and its read; USTAT states its two derived flags (R37, R54) by lengths. -/
theorem statusViewReads : Obligations.StatusViewReads := by
  refine ⟨fun i => ?_, fun s i h => ?_⟩
  · exact ⟨busEntry_viewIndex rfl, busEntry_viewIndex rfl, busEntry_viewIndex rfl, busEntry_viewIndex rfl,
      busEntry_viewIndex rfl, busEntry_viewIndex rfl, busEntry_viewIndex rfl, busEntry_viewIndex rfl,
      busEntry_viewIndex rfl, busEntry_viewIndex rfl, busEntry_viewIndex rfl, busEntry_viewIndex rfl⟩
  · simp only [← trmt_eq, ← rxda_eq]
    exact ⟨hostRead_on h, hostRead_on h, hostRead_on h, hostRead_on h, hostRead_on h, hostRead_on h, hostRead_on h,
      hostRead_on h, hostRead_on h, hostRead_on h, hostRead_on h, hostRead_on h⟩

/-- Settles O24: by instruction each is the map's refusal; by index, the decoder answers one of them. -/
theorem refusedAccesses : Obligations.RefusedAccesses := by
  refine fun s h => ⟨fun i d j hj => ?_, fun b od j hj => ?_, fun w a d ha => ?_, fun a d ha => ?_⟩
  · simp only [List.mem_cons, List.not_mem_nil, or_false] at hj
    rcases hj with rfl | rfl | rfl | rfl | rfl | rfl | rfl | rfl | rfl | rfl | rfl | rfl | rfl
    all_goals exact hostRefused_on h
  · simp only [List.mem_cons, List.not_mem_nil, or_false] at hj
    rcases hj with rfl | rfl | rfl | rfl | rfl
    all_goals exact hostRefused_on h
  · cases w with
    | false => exact (namesRefusal_reserved ha none).read d s h
    | true => exact (namesRefusal_reserved ha (some d)).write s h
  · exact (namesRefusal_readOnly ha d).write s h

end Sys2Proof.Proofs

/-! ## O27 to O33: the commands of a channel, its transfer and completion steps, and the request pulses. -/

namespace Sys2Proof.Machine

variable {s t : State} {c p : Idx} {k : State → Result} {op : BitVec 4} {v : Byte}

/-! ### The gate of a channel command (R110, R114) -/

theorem chanCommand_present (h : HostReady s) (hc : c.val < s.cfg.nCh) :
    chanCommand op c s k = k { s with cmd := cmdWord 1 op c } := (command_on h).trans (if_pos hc)

theorem chanCommand_absent (h : HostReady s) (hc : s.cfg.nCh ≤ c.val) :
    chanCommand op c s k = .next { s with cmd := cmdWord 1 op c } := (command_on h).trans (if_neg (Nat.not_lt.2 hc))

/-! ### A write of one channel's record -/

@[simp] theorem State.setChan_chan_self (s : State) (c : Idx) : s.setChan c (s.chan c) = s := by
  simp only [State.setChan, State.chan, Fin.getElem_fin, Vector.set_getElem_self]

/-- A new record of channel `c` with the same buffer: what the statements ask of the state that holds it. -/
theorem onlyChan_sameCells_setChan (h : SameCells s t) {x : Channel} (hb : x.buf = (t.chan c).buf) :
    OnlyChan c t (t.setChan c x) ∧ SameCells s (t.setChan c x) ∧ (t.setChan c x).chan c = x :=
  ⟨.setChan t c x, h.setChan hb, by simp⟩

theorem SameCells.refl (s : State) : SameCells s s := fun _ _ => rfl

theorem sameCells_cmd (s : State) (w : Word) : SameCells s { s with cmd := w } := fun _ _ => rfl

theorem answers_setChan (h : SameCells s t) {o : Result} {x : Channel} (ho : o = .next (t.setChan c x))
    (hb : x.buf = (t.chan c).buf) : Answers o fun u => OnlyChan c t u ∧ SameCells s u ∧ u.chan c = x :=
  ⟨_, ho, onlyChan_sameCells_setChan h hb⟩

/-! ### Requests (R118, R123, R207) -/

theorem eligible_eq (x : Channel) :
    eligible x = decide (x.state = .enabled ∧ x.xfer = .inProgress ∧ 0 < x.rem.toNat) := by
  simp only [eligible, Bool.decide_and, Bool.and_assoc]

theorem eligible_iff {x : Channel} :
    eligible x = true ↔ x.state = .enabled ∧ x.xfer = .inProgress ∧ 0 < x.rem.toNat := by
  rw [eligible_eq, decide_eq_true_eq]

/-- A request pulse latches RPEND of an eligible channel (R123). -/
theorem requestPulse_eq (c : Idx) (s : State) : requestPulse c s =
    s.setChan c { s.chan c with rpend := (s.chan c).rpend || eligible (s.chan c) } := by
  unfold requestPulse
  cases eligible (s.chan c) with
  | true => rw [Bool.or_true]; rfl
  | false => rw [Bool.or_false]; rfl

/-- CH.FORCE of a capable channel latches FPEND if it is eligible (R118). -/
theorem execChForce_capable (h : HostReady s) (hc : c.val < s.cfg.nCh) (hf : (s.chanCfg c).forceCapable = true) :
    execChForce c s = .next (State.setChan { s with cmd := cmdWord 1 3 c } c
      { s.chan c with fpend := (s.chan c).fpend || eligible (s.chan c) }) := by
  refine (chanCommand_present h hc).trans ((if_neg (by simpa using hf)).trans ?_)
  cases he : eligible (s.chan c) with
  | true => exact (if_pos he).trans (by rw [Bool.or_true]; rfl)
  | false =>
    refine (if_neg (Bool.eq_false_iff.1 he)).trans ?_
    rw [Bool.or_false]
    exact congrArg Host.Outcome.next (State.setChan_chan_self _ c).symm

/-! ### CH.POLL (R119) -/

/-- The machine after a poll of channel `c`. -/
def polled (c : Idx) (s : State) : State :=
  State.setChan { s with cmd := cmdWord 1 4 c, result := (s.chan c).xfer.enc } c
    { s.chan c with xfer := if (s.chan c).xfer = .done then .idle else (s.chan c).xfer }

theorem execChPoll_present (h : HostReady s) (hc : c.val < s.cfg.nCh) : execChPoll c s = .next (polled c s) :=
  (command_on h).trans (if_pos hc)

/-! ### A transfer (R121) -/

theorem xferEnabled_iff (hc : c.val < s.cfg.nCh) : xferEnabled c s = true ↔
    (s.chan c).state = .enabled ∧ (s.chan c).xfer = .inProgress ∧ 0 < (s.chan c).rem.toNat ∧
      ((s.chan c).fpend = true ∨ (s.chan c).rpend = true) ∧ sinkReady s c = true := by
  simp only [xferEnabled, hc, decide_true, Bool.true_and, Bool.and_eq_true, Bool.or_eq_true, eligible_iff, and_assoc]

/-- The channel record after one transfer. -/
def transferred (x : Channel) : Channel := { x with
  xidx := x.xidx + 1, rem := x.rem - 1, pend := x.pend || decide (x.rem = 1), fpend := false,
  rpend := x.rpend && x.fpend && decide (x.rem ≠ 1) }

theorem endBlock_takeRequest_eq (x : Channel) :
    endBlock (takeRequest { x with xidx := x.xidx + 1, rem := x.rem - 1 }) = transferred x := by
  have hend : x.rem - 1#16 = 0#16 ↔ x.rem = 1#16 := sub_eq_zero
  by_cases hr : x.rem = 1#16 <;> cases hf : x.fpend <;> simp [endBlock, takeRequest, transferred, hend, hr, hf]

theorem deliver_uart (h : (s.chanCfg c).sink = .uartTx p) :
    deliver c v s = s.setPort p { s.port p with txq := (s.port p).txq ++ [v] } := by
  simp only [deliver, h]

theorem deliver_external (h : (s.chanCfg c).sink = .external) :
    deliver c v s = { s with extOut := s.extOut ++ [(c, v)] } := by
  simp only [deliver, h]

theorem execStXfer_off (hl : Live s) (he : ¬ xferEnabled c s = true) : RefusedAs .badTrace s (execStXfer c s) :=
  transition_off hl (Bool.eq_false_iff.2 he)

theorem execStXfer_unwritten (hl : Live s) (he : xferEnabled c s = true)
    (hv : Mem.read (s.mem (.chBuf c)) (s.chan c).xidx.toNat = none) :
    FaultsAs (.unwrittenRead (.chBuf c) (s.chan c).xidx.toNat) s (execStXfer c s) :=
  (transition_on hl he).trans (observe_none hv)

theorem execStXfer_written (hl : Live s) (he : xferEnabled c s = true)
    (hv : Mem.read (s.mem (.chBuf c)) (s.chan c).xidx.toNat = some v) :
    execStXfer c s = .next (deliver c v (s.setChan c (transferred (s.chan c)))) :=
  (transition_on hl he).trans ((observe_some hv).trans (by rw [endBlock_takeRequest_eq]))

/-! ### EV.TXLD (R143) -/

/-- The machine after the head `b` of TXQ has moved into the shift register of port `p`. -/
def loaded (p : Idx) (b : Byte) (rest : List Byte) (s : State) : State :=
  s.setPort p { s.port p with tsr := some b, txq := rest }

theorem execEvTxld_off (hl : Live s) (h : (s.port p).tsr ≠ none ∨ (s.port p).txq = []) (d : Byte) :
    RefusedAs .badTrace s (execEvTxld p d s) := by
  refine transition_off hl ?_
  obtain h | h := h
  · simp [Option.isNone_eq_false_iff.2 (Option.isSome_iff_ne_none.2 h)]
  · simp [h]

theorem execEvTxld_on (hl : Live s) (hp : p.val < s.cfg.nUart) {b : Byte} {rest : List Byte}
    (ht : (s.port p).tsr = none) (hq : (s.port p).txq = b :: rest) (d : Byte) :
    execEvTxld p d s = .next (match (s.portCfg p).txDmaCh with
      | some c => requestPulse c (loaded p b rest s)
      | none => loaded p b rest s) := by
  refine (transition_on hl (by simp [hp, ht, hq])).trans ?_
  simp only [hq, List.head?_cons, List.tail_cons, loaded]
  cases (s.portCfg p).txDmaCh <;> rfl

end Sys2Proof.Machine

namespace Sys2Proof.Proofs

open Sys2Proof.Machine

/-- Settles O27: each command writes the record of its channel, buffer kept. -/
theorem channelLifecycle : Obligations.ChannelLifecycle := by
  refine fun c => ⟨rfl, rfl, rfl, fun s h => ?_⟩
  dsimp only [exec]
  refine ⟨fun hc => ?_, fun hc => ?_⟩
  · exact ⟨chanCommand_absent h hc, chanCommand_absent h hc, chanCommand_absent h hc⟩
  · exact ⟨answers_setChan (sameCells_cmd s _) (chanCommand_present h hc) rfl,
      answers_setChan (sameCells_cmd s _) (chanCommand_present h hc) rfl,
      answers_setChan (sameCells_cmd s _) (chanCommand_present h hc) rfl⟩

/-- Settles O28: FPEND of a capable channel takes its eligibility. -/
theorem forceRequestsTransfer : Obligations.ForceRequestsTransfer := by
  refine fun c => ⟨rfl, fun s h => ?_⟩
  dsimp only [exec]
  refine ⟨chanCommand_absent h, fun hc hf => ?_, fun hc hf => ?_⟩
  · exact (chanCommand_present h hc).trans (if_pos (by simpa using hf))
  · rw [← eligible_eq]
    exact answers_setChan (sameCells_cmd s _) (execChForce_capable h hc hf) rfl

/-- Settles O29: a poll after a Done finds the Idle that the first one left. -/
theorem pollReportsDoneOnce : Obligations.PollReportsDoneOnce := by
  refine fun c => ⟨rfl, fun s h => ?_⟩
  dsimp only [exec]
  refine ⟨fun hc => (command_on h).trans (if_neg (Nat.not_lt.2 hc)), fun hc => ?_⟩
  have hpolled : OnlyChan c { s with cmd := cmdWord 1 4 c, result := (s.chan c).xfer.enc } (polled c s) ∧
      SameCells s (polled c s) ∧ (polled c s).chan c = _ := onlyChan_sameCells_setChan (fun _ _ => rfl) rfl
  obtain ⟨honly, hcells, hchan⟩ := hpolled
  refine ⟨_, execChPoll_present h hc, ?_, hcells, hchan, fun hdone => ⟨_, execChPoll_present h hc, ?_⟩⟩
  · cases hx : (s.chan c).xfer <;> rw [hx] at honly <;> exact honly
  · change ((polled c s).chan c).xfer.enc = 0
    rw [hchan, if_pos hdone]
    rfl

/-- Settles O30: CNT is written below the capacity only. -/
theorem setCountForNextBlock : Obligations.SetCountForNextBlock := by
  refine fun c => ⟨rfl, fun s h => ?_⟩
  dsimp only [exec]
  refine ⟨chanCommand_absent h, fun hc hn => ?_, fun hc hn => ?_⟩
  · exact (chanCommand_present h hc).trans (if_pos hn)
  · exact answers_setChan (sameCells_cmd s _) ((chanCommand_present h hc).trans (if_neg (Nat.not_le.2 hn))) rfl

/-- Settles O31: the three outcomes of the step; the moved byte goes to the port or to EXT_OUT. -/
theorem transferStep : Obligations.TransferStep := by
  refine fun c => ⟨rfl, fun s hl hc => ?_⟩
  intro x ready enabled
  have hready : sinkReady s c = true ↔ ready := by
    simp only [sinkReady, ready]
    cases (s.chanCfg c).sink <;> simp
  have hen : xferEnabled c s = true ↔ enabled := by rw [xferEnabled_iff hc, hready]
  rw [← hen]
  dsimp only [exec]
  refine ⟨execStXfer_off hl, execStXfer_unwritten hl, fun he v hv => ⟨_, execStXfer_written hl he hv, ?_⟩⟩
  obtain ⟨⟨-, hothers⟩, hcells, hchan⟩ := onlyChan_sameCells_setChan (c := c) (.refl s)
    (x := transferred (s.chan c)) rfl
  cases hs : (s.chanCfg c).sink with
  | external =>
    rw [deliver_external (s := s.setChan c _) hs]
    exact ⟨hcells, hchan, hothers, rfl⟩
  | uartTx p =>
    rw [deliver_uart (s := s.setChan c _) hs]
    obtain ⟨-, hports⟩ := OnlyPort.setPort (s.setChan c (transferred (s.chan c))) p
      { s.port p with txq := (s.port p).txq ++ [v] }
    exact ⟨hcells.setPort rfl rfl, hchan, hothers, rfl, hports, by simp⟩

/-- Settles O32: the step's enabling condition, and its one write. -/
theorem completionStep : Obligations.CompletionStep := by
  refine fun c => ⟨rfl, fun s hl hc => ?_⟩
  have hen : chcpEnabled c s = true ↔ (s.chan c).pend = true ∧ (s.chan c).ie = true := by
    simp only [chcpEnabled, hc, decide_true, Bool.true_and, Bool.and_eq_true]
  rw [← hen]
  dsimp only [exec]
  exact ⟨fun he => answers_setChan (.refl s) (transition_on hl he) rfl,
    fun he => transition_off hl (Bool.eq_false_iff.2 he)⟩

/-- Settles O33: a pulse is one write of RPEND, by itself or after the load of the shift register. -/
theorem requestPulses : Obligations.RequestPulses := by
  refine fun i d => ⟨rfl, rfl, fun s hl => ?_⟩
  simp only [← eligible_eq]
  dsimp only [exec]
  have hchrq (hi : i.val < s.cfg.nCh) : execEvChrq i d s = _ := transition_on hl (decide_eq_true hi)
  refine ⟨fun hi hs => ?_, fun hi hs => ?_, fun hi => transition_off hl (decide_eq_false (Nat.not_lt.2 hi)),
    fun hi => ⟨fun h => execEvTxld_off hl h d, fun b rest ht hq => ⟨_, execEvTxld_on hl hi ht hq d, ?_⟩⟩⟩
  · simp only [hs, requestPulse_eq] at hchrq
    exact answers_setChan (.refl s) (hchrq hi) rfl
  · rw [hchrq hi]
    split
    next he => exact absurd he hs
    next => rfl
  · have hcells : SameCells s (loaded i b rest s) := (SameCells.refl s).setPort rfl rfl
    have hport : (loaded i b rest s).port i = { s.port i with tsr := some b, txq := rest } := by simp [loaded]
    have honly : OnlyPort i s (loaded i b rest s) := .setPort ..
    cases (s.portCfg i).txDmaCh with
    | none => exact ⟨hcells, hport, honly⟩
    | some c =>
      obtain ⟨-, hports⟩ := honly
      obtain ⟨⟨-, hothers⟩, hcells, hchan⟩ := onlyChan_sameCells_setChan hcells (c := c)
        (x := { s.chan c with rpend := (s.chan c).rpend || eligible (s.chan c) }) rfl
      dsimp only
      rw [requestPulse_eq]
      exact ⟨hcells, hport, rfl, hports, hothers, hchan⟩

end Sys2Proof.Proofs

/-! ## O60: what a command or step of one channel leaves to the others. -/

namespace Sys2Proof.Machine

variable {s t : State} {c : Idx} {k : State → Result}

/-- `t` differs from `s` in the record of channel `c`, in TXQ of its sink, and outside the instances only (R125). -/
def Isolated (c : Idx) (s t : State) : Prop :=
  (∀ d, d ≠ c → t.chan d = s.chan d) ∧ SameCells s t ∧ t.i2c = s.i2c ∧ t.hostWait = s.hostWait ∧
    ∀ p, t.port p = { s.port p with txq := (t.port p).txq } ∧
      ((s.chanCfg c).sink ≠ .uartTx p → t.port p = s.port p)

theorem Isolated.refl (c : Idx) (s : State) : Isolated c s s :=
  ⟨fun _ _ => rfl, .refl s, rfl, rfl, fun _ => ⟨rfl, fun _ => rfl⟩⟩

theorem Isolated.setResult (h : Isolated c s t) (w : Word) : Isolated c s (t.setResult w) := h

theorem Isolated.mark (h : Isolated c s t) (f : Option Fault) (r : Option Refusal) (e : List (Idx × Byte)) :
    Isolated c s { t with fault := f, refused := r, extOut := e } := h

theorem Isolated.setChan (h : Isolated c s t) {x : Channel} (hb : x.buf = (t.chan c).buf := by rfl) :
    Isolated c s (t.setChan c x) := by
  obtain ⟨hothers, hcells, hrest⟩ := h
  refine ⟨fun d hd => ?_, hcells.setChan hb, hrest⟩
  rw [State.chan_setChan, if_neg hd.symm, hothers d hd]

theorem Isolated.deliver (h : Isolated c s t) (hcfg : t.cfg = s.cfg) (v : Byte) : Isolated c s (deliver c v t) := by
  cases hs : (t.chanCfg c).sink with
  | external => exact deliver_external hs ▸ h.mark ..
  | uartTx p =>
    obtain ⟨hothers, hcells, hi2c, hwait, hports⟩ := h
    rw [deliver_uart hs]
    refine ⟨hothers, hcells.setPort rfl rfl, hi2c, hwait, fun p' => ?_⟩
    rw [State.port_setPort]
    split
    next e =>
      subst e
      have hsink : (s.chanCfg c).sink = .uartTx p := by rw [State.chanCfg, ← hcfg]; exact hs
      exact ⟨congrArg (fun u : UartPort => { u with txq := (t.port p).txq ++ [v] }) (hports p).1,
        fun hne => absurd hsink hne⟩
    next => exact hports p'

/-! ### Outcomes -/

/-- The next state that `o` may answer is isolated. -/
def Isolates (c : Idx) (s : State) (o : Result) : Prop := ∀ t, o = .next t → Isolated c s t

theorem isolates_next (h : Isolated c s t) : Isolates c s (.next t) := fun _ ht => Host.Outcome.next.inj ht ▸ h

theorem isolates_refuse {r : Refusal} (h : Isolated c s t) : Isolates c s (refuse r t) := isolates_next (h.mark ..)

theorem isolates_ite {q : Prop} [Decidable q] {a b : Result} (ha : Isolates c s a) (hb : Isolates c s b) :
    Isolates c s (if q then a else b) := by
  split
  · exact ha
  · exact hb

theorem isolates_transition {en : State → Bool} (hk : Isolates c s (k s)) : Isolates c s (transition en s k) := by
  intro t ht
  obtain ⟨-, ⟨-, hn⟩ | ⟨-, rfl⟩⟩ := transition_next ht
  · exact hk t hn
  · exact (Isolated.refl c s).mark ..

theorem isolated_cmd (c : Idx) (s : State) (w : Word) : Isolated c s { s with cmd := w } :=
  Isolated.refl c s

theorem isolates_command {w : Word} (hk : Isolates c s (k { s with cmd := w })) : Isolates c s (command w s k) := by
  intro t ht
  obtain ⟨-, ⟨-, hn⟩ | ⟨-, rfl⟩⟩ := command_next ht
  · exact hk t hn
  · exact (Isolated.refl c s).mark ..

theorem isolates_chanCommand {op : BitVec 4} (hk : Isolates c s (k { s with cmd := cmdWord 1 op c })) :
    Isolates c s (chanCommand op c s k) :=
  isolates_command (isolates_ite hk (isolates_next (isolated_cmd ..)))

theorem isolates_execChPoll (c : Idx) (s : State) : Isolates c s (execChPoll c s) :=
  isolates_command (isolates_ite
    (isolates_next (.setResult (.setChan (isolated_cmd ..)) _)) (isolates_next (.setResult (isolated_cmd ..) 0)))

theorem isolates_execStXfer (c : Idx) (s : State) : Isolates c s (execStXfer c s) := isolates_transition fun t ht => by
  obtain ⟨v, -, h⟩ | ⟨-, rfl⟩ := observe_next ht
  · rw [endBlock_takeRequest_eq] at h
    exact isolates_next (.deliver (.setChan (.refl c s)) rfl v) t h
  · exact (Isolated.refl c s).mark ..

/-- WR CMD executes the instruction it acts as (R110). -/
theorem exec_actsAs (i : Instr) : exec (actsAs i) = exec i := by
  cases i with
  | wrCmd w =>
    cases hd : decodeCmd w with
    | error r => simp only [actsAs, hd]; rfl
    | ok j => simp only [actsAs, hd, exec_wrCmd_of_ok hd]; rfl
  | _ => rfl

end Sys2Proof.Machine

namespace Sys2Proof.Proofs

open Sys2Proof.Machine

/-- Settles O60: by cases on the instruction that acts. -/
theorem channelIsolation : Obligations.ChannelIsolation := by
  intro s t i c h hi
  rw [← exec_actsAs] at h
  generalize actsAs i = j at h hi
  suffices hj : Isolates c s (exec j s) from hj t h
  simp only [List.mem_cons, List.not_mem_nil, or_false] at hi
  rcases hi with rfl | rfl | rfl | rfl | rfl | rfl | rfl | rfl <;> dsimp only [exec]
  case inl | inr.inl | inr.inr.inl =>
    exact isolates_chanCommand (isolates_next (.setChan (isolated_cmd ..)))
  · exact isolates_chanCommand (isolates_ite (isolates_refuse (isolated_cmd ..))
      (isolates_ite (isolates_next (.setChan (isolated_cmd ..))) (isolates_next (isolated_cmd ..))))
  · exact isolates_execChPoll c s
  · exact isolates_chanCommand (isolates_ite (isolates_refuse (isolated_cmd ..))
      (isolates_next (.setChan (isolated_cmd ..))))
  · exact isolates_execStXfer c s
  · exact isolates_transition (isolates_next (.setChan (.refl c s)))

end Sys2Proof.Proofs

/-! ## O34 to O42: the receiver, both transmit policies and the wire side of a serial port. -/

namespace Sys2Proof.Machine

variable {s t : State} {p c : Idx} {k : State → Result} {op : BitVec 4} {v : Byte} {u : UartPort} {n len : Nat}

/-! ### The gates of a serial port's commands (R110, R127) -/

theorem uartCommand_present (h : HostReady s) (hp : p.val < s.cfg.nUart) :
    uartCommand op p s k = k { s with cmd := cmdWord 2 op p } := (command_on h).trans (if_pos hp)

theorem uartCommand_absent (h : HostReady s) (hp : s.cfg.nUart ≤ p.val) :
    uartCommand op p s k = .next { s with cmd := cmdWord 2 op p } := (command_on h).trans (if_neg (Nat.not_lt.2 hp))

theorem uartQuery_present (h : HostReady s) (hp : p.val < s.cfg.nUart) :
    uartQuery op p s k = k { s with cmd := cmdWord 2 op p } := (command_on h).trans (if_pos hp)

theorem uartQuery_absent (h : HostReady s) (hp : s.cfg.nUart ≤ p.val) :
    uartQuery op p s k = .next { s with cmd := cmdWord 2 op p, result := 0 } :=
  (command_on h).trans (if_neg (Nat.not_lt.2 hp))

/-! ### A write of one port's record -/

theorem sameCells_cmd_result (s : State) (w r : Word) : SameCells s { s with cmd := w, result := r } := fun _ _ => rfl

theorem port_setPort_self (s : State) (p : Idx) (x : UartPort) : (s.setPort p x).port p = x := by simp

/-- A new record of port `p` with the same buffers. -/
theorem answers_setPort (h : SameCells s t) {o : Result} {x : UartPort} (ho : o = .next (t.setPort p x))
    (hr : x.rxBuf = (t.port p).rxBuf) (ht : x.txBuf = (t.port p).txBuf) :
    Answers o fun u => OnlyPort p t u ∧ SameCells s u ∧ u.port p = x :=
  ⟨_, ho, .setPort t p x, h.setPort hr ht, port_setPort_self t p x⟩

theorem setPort_mem_uartRx (s : State) (p : Idx) (x : UartPort) : (s.setPort p x).mem (.uartRx p) = x.rxBuf := by
  simp [State.mem]

theorem setPort_mem_uartTx (s : State) (p : Idx) (x : UartPort) : (s.setPort p x).mem (.uartTx p) = x.txBuf := by
  simp [State.mem]

/-- A new record of port `p` changes no buffer but those of the port that it rewrites. -/
theorem setPort_mem_of_kept {x : UartPort} {b : Buf} (hr : b = .uartRx p → x.rxBuf = (s.port p).rxBuf)
    (ht : b = .uartTx p → x.txBuf = (s.port p).txBuf) : (s.setPort p x).mem b = s.mem b := by
  rw [mem_setPort]
  split
  next e => exact (hr e).trans (e ▸ rfl)
  next =>
    split
    next e => exact (ht e).trans (e ▸ rfl)
    next => rfl

/-! ### Buffers rewritten from cell 0 (R72, R137) -/

/-- A rewrite of cells 0 to n - 1 of one buffer leaves every other cell. -/
theorem cellsExcept_of_prefix {b : Buf} (hb : ∀ a, ¬ a < n → Mem.read (t.mem b) a = Mem.read (s.mem b) a)
    (hne : ∀ b', b' ≠ b → t.mem b' = s.mem b') : CellsExcept (fun b' a => b' = b ∧ a < n) s t := fun b' a h => by
  by_cases he : b' = b
  · subst he
    exact hb a fun ha => h ⟨rfl, ha⟩
  · rw [hne b' he]

theorem copiedFromStg_of_mem {b : Buf} (hb : t.mem b = s.fromStg n (s.mem b))
    (hne : ∀ b', b' ≠ b → t.mem b' = s.mem b') : CopiedFromStg b n s t := by
  refine ⟨fun a ha => ?_, cellsExcept_of_prefix (fun a ha => ?_) hne⟩
  · rw [hb, read_fromStg, if_pos ha]
  · rw [hb, read_fromStg, if_neg ha]

theorem cells_of_fill {b : Buf} (hb : t.mem b = Mem.fill v n (s.mem b)) (hne : ∀ b', b' ≠ b → t.mem b' = s.mem b') :
    (∀ a < n, Mem.read (t.mem b) a = some v) ∧ CellsExcept (fun b' a => b' = b ∧ a < n) s t := by
  refine ⟨fun a ha => ?_, cellsExcept_of_prefix (fun a ha => ?_) hne⟩
  · rw [hb, Mem.read_fill, if_pos ha]
  · rw [hb, Mem.read_fill, if_neg ha]

/-! ### ST.RXSV (R131, R132) -/

theorem storeRx_inside (h : u.rxCounter.toNat < len) : storeRx len v u =
    { u with rxBuf := Mem.put u.rxBuf u.rxCounter.toNat v, rxCounter := u.rxCounter + 1 } := if_pos h

theorem storeRx_past (h : len ≤ u.rxCounter.toNat) : storeRx len v u = u := if_neg (Nat.not_lt.2 h)

theorem endFrame_at (h : u.rxCounter.toNat = len) :
    endFrame len u = { u with rxq := [], rxDone := true, rxCounter := 0 } := if_pos h

theorem endFrame_off (h : u.rxCounter.toNat ≠ len) : endFrame len u = u := if_neg h

/-- The port record `u` after the byte `v` is taken from RXQ, which leaves `rest`. -/
def received (len : Nat) (v : Byte) (rest : List Byte) (u : UartPort) : UartPort :=
  endFrame len (storeRx len v { u with rxq := rest })

theorem received_txBuf (len : Nat) (v : Byte) (rest : List Byte) (u : UartPort) :
    (received len v rest u).txBuf = u.txBuf := by rw [received, endFrame_txBuf, storeRx_txBuf]

theorem received_rxBuf_inside (h : u.rxCounter.toNat < len) (rest : List Byte) :
    (received len v rest u).rxBuf = Mem.put u.rxBuf u.rxCounter.toNat v := by
  rw [received, endFrame_rxBuf, storeRx_inside (by exact h)]

theorem received_rxBuf_past (h : len ≤ u.rxCounter.toNat) (rest : List Byte) :
    (received len v rest u).rxBuf = u.rxBuf := by
  rw [received, endFrame_rxBuf, storeRx_past (by exact h)]

theorem received_before_last (h : u.rxCounter.toNat + 1 < len) (hlen : len ≤ 65535) (rest : List Byte) :
    received len v rest u =
      { u with rxq := rest, rxCounter := u.rxCounter + 1, rxBuf := (received len v rest u).rxBuf } := by
  have hin : u.rxCounter.toNat < len := by omega
  have hsucc : (u.rxCounter + 1).toNat = u.rxCounter.toNat + 1 := toNat_succ hin hlen
  rw [received, storeRx_inside (by exact hin), endFrame_off (by dsimp only; omega)]

theorem received_frame_end (h : u.rxCounter.toNat + 1 = len ∨ u.rxCounter.toNat = len) (hlen : len ≤ 65535)
    (rest : List Byte) : received len v rest u =
      { u with rxq := [], rxDone := true, rxCounter := 0, rxBuf := (received len v rest u).rxBuf } := by
  obtain h | h := h
  · have hin : u.rxCounter.toNat < len := by omega
    have hsucc : (u.rxCounter + 1).toNat = u.rxCounter.toNat + 1 := toNat_succ hin hlen
    rw [received, storeRx_inside (by exact hin), endFrame_at (by dsimp only; omega)]
  · rw [received, storeRx_past (by exact h.ge), endFrame_at (by exact h)]

theorem received_past (h : len < u.rxCounter.toNat) (rest : List Byte) :
    received len v rest u = { u with rxq := rest } := by
  rw [received, storeRx_past (by exact h.le), endFrame_off (by exact h.ne')]

theorem execStRxsv_off (hl : Live s) (hq : (s.port p).rxq = []) : RefusedAs .badTrace s (execStRxsv p s) :=
  transition_off hl (by simp [rxsvEnabled, rxda, hq])

theorem execStRxsv_on (hl : Live s) (hp : p.val < s.cfg.nUart) {rest : List Byte} (hq : (s.port p).rxq = v :: rest) :
    execStRxsv p s = .next (s.setPort p (received (s.portCfg p).rxLen v rest (s.port p))) := by
  refine (transition_on hl (by simp [rxsvEnabled, rxda, hp, hq])).trans ?_
  simp only [hq, List.headD_cons, List.tail_cons, received]

/-! ### UART.RX_READY and UART.TX_READY (R135, R136) -/

/-- The test-and-clear of one flag of port `p`: RESULT takes `flag`, and `clear` empties it. -/
def testAndClear (op : BitVec 4) (p : Idx) (flag : UartPort → Bool) (clear : UartPort → UartPort) (s : State) : Result :=
  uartQuery op p s fun s => .next ((s.setPort p (clear (s.port p))).setResult (flag16 (flag (s.port p))))

theorem execUartRxReady_eq (p : Idx) :
    execUartRxReady p = testAndClear 3 p UartPort.rxDone fun u => { u with rxDone := false } := rfl

theorem execUartTxReady_eq (p : Idx) :
    execUartTxReady p = testAndClear 4 p UartPort.txDone fun u => { u with txDone := false } := rfl

section TestAndClear

variable {flag : UartPort → Bool} {clear : UartPort → UartPort}

theorem testAndClear_present (h : HostReady s) (hp : p.val < s.cfg.nUart) : testAndClear op p flag clear s =
    .next (State.setPort { s with cmd := cmdWord 2 op p, result := flag16 (flag (s.port p)) } p (clear (s.port p))) :=
  uartQuery_present h hp

theorem answers_testAndClear (h : HostReady s) (hp : p.val < s.cfg.nUart)
    (hr : (clear (s.port p)).rxBuf = (s.port p).rxBuf) (ht : (clear (s.port p)).txBuf = (s.port p).txBuf)
    (hf : flag (clear (s.port p)) = false) :
    Answers (testAndClear op p flag clear s) fun t =>
      OnlyPort p { s with cmd := cmdWord 2 op p, result := flag16 (flag (s.port p)) } t ∧ SameCells s t ∧
      t.port p = clear (s.port p) ∧ Answers (testAndClear op p flag clear t) fun u => u.result = 0 := by
  obtain ⟨t, ho, honly, hcells, hport⟩ :=
    answers_setPort (sameCells_cmd_result s _ _) (testAndClear_present (op := op) (flag := flag) h hp) hr ht
  have hready : HostReady t := honly.1 ▸ h
  have hpresent : p.val < t.cfg.nUart := honly.1 ▸ hp
  refine ⟨t, ho, honly, hcells, hport, _, testAndClear_present hready hpresent, ?_⟩
  change flag16 (flag (t.port p)) = 0
  rw [hport, hf]
  rfl

end TestAndClear

/-! ### ST.TXSV (R141, R142) -/

theorem txMore_iff (h : u.txCounter.toNat ≤ u.txLength.toNat) : txMore u = true ↔ u.txCounter ≠ u.txLength := by
  rw [txMore, decide_eq_true_eq, ← BitVec.toNat_ne_iff_ne]
  omega

/-- The completion branch of a half-duplex port waits for TRMT (R142). -/
theorem txsvEnabled_iff (hp : p.val < s.cfg.nUart) (h : (s.port p).txCounter.toNat ≤ (s.port p).txLength.toNat) :
    txsvEnabled p s = true ↔ (s.port p).txIe = true ∧ (s.port p).txq.length < (s.portCfg p).txDepth ∧
      ((s.port p).txCounter = (s.port p).txLength ∧ (s.portCfg p).halfDuplex = true →
        (s.port p).txq = [] ∧ (s.port p).tsr = none) := by
  have hmore : (txMore (s.port p) || !(s.portCfg p).halfDuplex || trmt (s.port p)) = true ↔
      ((s.port p).txCounter = (s.port p).txLength ∧ (s.portCfg p).halfDuplex = true →
        (s.port p).txq = [] ∧ (s.port p).tsr = none) := by
    rw [Bool.or_eq_true, Bool.or_eq_true, txMore_iff h, trmt_iff, Bool.not_eq_true', ← Bool.not_eq_true]
    tauto
  simp only [txsvEnabled, hp, decide_true, Bool.true_and, Bool.and_eq_true, decide_eq_true_eq, hmore, and_assoc]

theorem execStTxsv_off (hl : Live s) (he : ¬ txsvEnabled p s = true) : RefusedAs .badTrace s (execStTxsv p s) :=
  transition_off hl (Bool.eq_false_iff.2 he)

theorem execStTxsv_unwritten (hl : Live s) (he : txsvEnabled p s = true) (hm : txMore (s.port p) = true)
    (hv : Mem.read (s.mem (.uartTx p)) (s.port p).txCounter.toNat = none) :
    FaultsAs (.unwrittenRead (.uartTx p) (s.port p).txCounter.toNat) s (execStTxsv p s) :=
  (transition_on hl he).trans ((if_pos hm).trans (observe_none hv))

theorem execStTxsv_written (hl : Live s) (he : txsvEnabled p s = true) (hm : txMore (s.port p) = true)
    (hv : Mem.read (s.mem (.uartTx p)) (s.port p).txCounter.toNat = some v) : execStTxsv p s = .next (s.setPort p
      { s.port p with txq := (s.port p).txq ++ [v], txCounter := (s.port p).txCounter + 1 }) :=
  (transition_on hl he).trans ((if_pos hm).trans (observe_some hv))

theorem execStTxsv_complete (hl : Live s) (he : txsvEnabled p s = true) (hm : ¬ txMore (s.port p) = true) :
    execStTxsv p s = .next (s.setPort p (endSend (s.portCfg p).halfDuplex (s.port p))) :=
  (transition_on hl he).trans (if_neg hm)

/-! ### The wire side (R144) -/

theorem wireOk_eq (halfDuplex : Bool) (u : UartPort) :
    wireOk halfDuplex u = decide (halfDuplex = false ∨ u.dir = .tx) := by
  cases halfDuplex <;> simp [wireOk]

/-! ### UART.SEND_DMA (R146) -/

/-- The channel or the transmitter is still at work (R146). -/
theorem sendBusy_iff {x : Channel} :
    x.xfer = .inProgress ∨ trmt u = false ↔ x.xfer = .inProgress ∨ u.txq ≠ [] ∨ u.tsr ≠ none := by
  rw [← Bool.not_eq_true, trmt_iff, not_and_or]

/-- A block of `n` bytes has the count n - 1 and n bytes left (R146, R116). -/
theorem sendBlock_lengths (h0 : 0 < n) (hn : n < 2 ^ 16) (x : Channel) :
    (sendBlock s n x).cnt.toNat + 1 = n ∧ (sendBlock s n x).rem.toNat = n := by
  have hcnt : (count16 (n - 1)).toNat = n - 1 := count16_toNat (by omega)
  have hsucc : (count16 (n - 1) + 1).toNat = (count16 (n - 1)).toNat + 1 := toNat_succ (n := n) (by omega) (by omega)
  have hn1 : (count16 (n - 1)).toNat + 1 = n := by omega
  exact ⟨hn1, hsucc.trans hn1⟩

/-- The length of a DMA send of a port that exists is not 0 (R11, R146). -/
theorem saturate_bufCap_pos (hc : configValid s.cfg = true) (hp : p.val < s.cfg.nUart)
    (hch : (s.portCfg p).txDmaCh = some c) (h0 : s.arg0 ≠ 0) : 0 < saturate s.arg0 (s.chanCfg c).bufCap := by
  obtain ⟨⟨hcap, -⟩, -⟩ := cfg_chan hc (txDmaCh_present hc hp hch)
  exact Nat.lt_min.2 ⟨toNat_pos.2 h0, hcap⟩

section SendDma

variable (h : HostReady s) (hp : p.val < s.cfg.nUart)

include h hp

theorem execUartSendDma_unbound (hch : (s.portCfg p).txDmaCh = none) :
    RefusedAs .noDmaChannel { s with cmd := cmdWord 2 2 p } (execUartSendDma p s) := by
  refine (uartQuery_present h hp).trans ?_
  dsimp only [State.portCfg] at hch ⊢
  rw [hch]
  rfl

theorem execUartSendDma_bound (hch : (s.portCfg p).txDmaCh = some c) : execUartSendDma p s =
    if s.arg0 = 0 then refuse .zeroLength { s with cmd := cmdWord 2 2 p }
    else if (s.chan c).xfer = .inProgress ∨ trmt (s.port p) = false then
      .next { s with cmd := cmdWord 2 2 p, result := 0 }
    else .next (State.setChan { s with cmd := cmdWord 2 2 p, result := 1 } c
      (sendBlock s (saturate s.arg0 (s.chanCfg c).bufCap) (s.chan c))) := by
  refine (uartQuery_present h hp).trans ?_
  dsimp only [State.portCfg] at hch ⊢
  rw [hch]
  rfl

end SendDma

end Sys2Proof.Machine

namespace Sys2Proof.Proofs

open Sys2Proof.Machine

/-- Settles O35: the cursor is before the last cell of the frame, at it or at its end, or past it. -/
theorem receiveStep : Obligations.ReceiveStep := by
  refine fun p => ⟨rfl, fun s hl hp => ?_⟩
  dsimp only [exec]
  refine ⟨execStRxsv_off hl, fun b rest hq => ⟨_, execStRxsv_on hl hp hq, .setPort .., ?_⟩⟩
  obtain ⟨⟨-, hcap⟩, -, hlen, -⟩ := cfg_uart hl.1 hp
  have hlen' : (s.portCfg p).rxLen ≤ 65535 := hlen.trans hcap
  rw [port_setPort_self]
  refine ⟨fun hn => cells_of_put ?_ fun b' hb =>
      setPort_mem_of_kept (fun e => absurd e hb) fun _ => received_txBuf ..,
    fun hn => (SameCells.refl s).setPort (received_rxBuf_past hn rest) (received_txBuf ..),
    fun hn => received_before_last hn hlen' rest, fun hn => received_frame_end hn hlen' rest,
    fun hn => received_past hn rest⟩
  rw [setPort_mem_uartRx]
  exact received_rxBuf_inside hn rest

/-- Settles O40: the four outcomes of the step; a cursor inside the length has bytes left unless it equals it. -/
theorem transmitStep : Obligations.TransmitStep := by
  refine fun p => ⟨rfl, fun s hl hp hle => ?_⟩
  intro u halfDuplex enabled
  have hen : txsvEnabled p s = true ↔ enabled := txsvEnabled_iff hp hle
  have hmore : txMore u = true ↔ u.txCounter ≠ u.txLength := txMore_iff hle
  rw [← hen, ← hmore, ← not_ne_iff (a := u.txCounter), ← hmore]
  dsimp only [exec]
  exact ⟨execStTxsv_off hl, execStTxsv_unwritten hl,
    fun he hm v hv => answers_setPort (.refl s) (execStTxsv_written hl he hm hv) rfl rfl,
    fun he hm => answers_setPort (.refl s) (execStTxsv_complete hl he hm) rfl rfl⟩

/-- Settles O42: the checks of the command in their order, and the block that it starts. -/
theorem sendByDma : Obligations.SendByDma := by
  refine fun p => ⟨rfl, fun s h => ?_⟩
  dsimp only [exec]
  refine ⟨uartQuery_absent h, fun hp => ⟨execUartSendDma_unbound h hp, fun c hch => ?_⟩⟩
  rw [← sendBusy_iff, execUartSendDma_bound h hp hch]
  refine ⟨fun h0 => if_pos h0, fun h0 hb => (if_neg h0).trans (if_pos hb),
    fun h0 hb => ⟨_, (if_neg h0).trans (if_neg hb), .setChan .., ?_⟩⟩
  obtain ⟨hcnt, hrem⟩ :=
    sendBlock_lengths (s := s) (saturate_bufCap_pos h.1.1 hp hch h0) (saturate_lt ..) (s.chan c)
  rw [State.chan_setChan, if_pos rfl]
  refine ⟨copiedFromStg_of_mem ?_ fun b hb => ?_, hcnt, hrem, rfl⟩
  · rw [mem_setChan, if_pos rfl]
    rfl
  · rw [mem_setChan, if_neg hb]
    rfl

/-- Settles O34: each outcome is one write of the port's record, or none. -/
theorem receiverEvents : Obligations.ReceiverEvents := by
  refine fun p b => ⟨rfl, rfl, fun s hl hp => ?_⟩
  dsimp only [exec]
  have hrxb : execEvRxb p b s = _ := transition_on hl (decide_eq_true hp)
  refine ⟨fun ho => hrxb.trans (if_pos ho), fun ho hq => ?_, fun ho hq => ?_, ?_⟩
  · exact answers_setPort (.refl s) (hrxb.trans ((if_neg (Bool.eq_false_iff.1 ho)).trans (if_pos hq))) rfl rfl
  · exact answers_setPort (.refl s) (hrxb.trans ((if_neg (Bool.eq_false_iff.1 ho)).trans (if_neg hq))) rfl rfl
  · exact answers_setPort (.refl s) (transition_on hl (decide_eq_true hp)) rfl rfl

/-- Settles O36: the step's enabling condition, and its one write. -/
theorem receiveErrorStep : Obligations.ReceiveErrorStep := by
  refine fun p => ⟨rfl, fun s hl hp => ?_⟩
  dsimp only [exec]
  refine ⟨fun hf => answers_setPort (.refl s) (transition_on hl ?_) rfl rfl, fun ho hf => transition_off hl ?_⟩
  · simpa [rxerEnabled, hp] using hf
  · simp [rxerEnabled, ho, hf]

/-- Settles O37: both commands test and clear one flag. -/
theorem readyFlagsReportOnce : Obligations.ReadyFlagsReportOnce := by
  refine fun p => ⟨rfl, rfl, fun s h => ?_⟩
  dsimp only [exec]
  refine ⟨fun hp => ⟨uartQuery_absent h hp, uartQuery_absent h hp⟩, fun hp => ⟨?_, ?_⟩⟩
  · rw [execUartRxReady_eq]
    exact answers_testAndClear h hp rfl rfl rfl
  · rw [execUartTxReady_eq]
    exact answers_testAndClear h hp rfl rfl rfl

/-- Settles O38: a fill of the receive buffer. -/
theorem clearReceiveBuffer : Obligations.ClearReceiveBuffer := by
  refine fun p => ⟨rfl, fun s h => ?_⟩
  dsimp only [exec]
  refine ⟨uartCommand_absent h, fun hp => ⟨_, uartCommand_present h hp, .setPort .., ?_, ?_⟩⟩
  · rw [port_setPort_self]
    rfl
  · refine cells_of_fill ?_ fun b hb => setPort_mem_of_kept (fun e => absurd e hb) fun _ => rfl
    rw [setPort_mem_uartRx]
    rfl

/-- Settles O39: while no send is armed, UART.FILL copies the staged bytes and UART.START writes the record only. -/
theorem fillAndStart : Obligations.FillAndStart := by
  refine fun p => ⟨rfl, rfl, fun s h => ?_⟩
  dsimp only [exec]
  refine ⟨fun hp => ⟨uartCommand_absent h hp, uartCommand_absent h hp⟩, fun hp hi => ⟨?_, ?_⟩, fun hp hi => ⟨?_, ?_⟩⟩
  · exact (uartCommand_present h hp).trans (if_pos hi)
  · exact (uartCommand_present h hp).trans (if_pos hi)
  · refine ⟨_, (uartCommand_present h hp).trans (if_neg (Bool.eq_false_iff.1 hi)), .setPort .., ?_⟩
    rw [port_setPort_self]
    refine ⟨rfl, count16_saturate .., copiedFromStg_of_mem ?_ fun b hb =>
      setPort_mem_of_kept (fun _ => rfl) fun e => absurd e hb⟩
    rw [setPort_mem_uartTx]
    rfl
  · exact answers_setPort (sameCells_cmd s _)
      ((uartCommand_present h hp).trans (if_neg (Bool.eq_false_iff.1 hi))) rfl rfl

/-- Settles O41: the byte leaves the shift register with the line's state. -/
theorem shiftRegisterFinishes : Obligations.ShiftRegisterFinishes := by
  refine fun p d => ⟨rfl, fun s hl hp => ?_⟩
  dsimp only [exec]
  refine ⟨fun ht => transition_off hl (by simp [ht]), fun b ht => ?_⟩
  rw [← wireOk_eq]
  refine answers_setPort (.refl s) ((transition_on hl (by simp [hp, ht])).trans ?_) rfl rfl
  simp only [ht, Option.getD_some]

end Sys2Proof.Proofs

/-! ## O43 to O51: the commands of an I2C port, the host's continuation, the phase steps and the bus. -/

namespace Sys2Proof.Machine

variable {s : State} {q : Idx} {x : I2cPort} {w : Word} {n : Nat}

/-! ### A write of one port's record -/

theorem i2cp_setI2c_self (s : State) (q : Idx) (x : I2cPort) : (s.setI2c q x).i2cp q = x := by simp

theorem setI2c_mem_i2cTx (s : State) (q : Idx) (x : I2cPort) : (s.setI2c q x).mem (.i2cTx q) = x.txData := by
  simp [State.mem]

theorem setI2c_mem_i2cRx (s : State) (q : Idx) (x : I2cPort) : (s.setI2c q x).mem (.i2cRx q) = x.rxData := by
  simp [State.mem]

/-- A new record of port `q` changes no buffer but those of the port that it rewrites. -/
theorem setI2c_mem_of_kept {b : Buf} (hr : b = .i2cRx q → x.rxData = (s.i2cp q).rxData)
    (ht : b = .i2cTx q → x.txData = (s.i2cp q).txData) : (s.setI2c q x).mem b = s.mem b := by
  rw [mem_setI2c]
  split
  next e => exact (hr e).trans (e ▸ rfl)
  next =>
    split
    next e => exact (ht e).trans (e ▸ rfl)
    next => rfl

/-- A new record of port `q` with the same buffers. -/
theorem answers_setI2c {o : Result} (ho : o = .next (s.setI2c q x)) (hr : x.rxData = (s.i2cp q).rxData)
    (ht : x.txData = (s.i2cp q).txData) : Answers o fun u => OnlyI2c q s u ∧ SameCells s u ∧ u.i2cp q = x :=
  ⟨_, ho, .setI2c s q x, (SameCells.refl s).setI2c hr ht, i2cp_setI2c_self s q x⟩

/-! ### Arming (R151 to R154) -/

/-- The staged bytes reach tx_data, and no other buffer changes. -/
theorem copiedFromStg_setI2c (htx : x.txData = s.fromStg n (s.i2cp q).txData) (hrx : x.rxData = (s.i2cp q).rxData) :
    CopiedFromStg (.i2cTx q) n s (s.setI2c q x) :=
  copiedFromStg_of_mem ((setI2c_mem_i2cTx s q x).trans htx) fun _ hb =>
    setI2c_mem_of_kept (fun _ => hrx) fun e => absurd e hb

theorem writeArmed_writeArm (q : Idx) (s : State) : WriteArmed q s (writeArm q s) := by
  refine ⟨.setI2c .., ?_, ?_, ?_, ?_, copiedFromStg_setI2c rfl rfl⟩ <;>
    rw [writeArm, i2cp_setI2c_self]
  · rfl
  · rfl
  · exact count16_saturate ..
  · rfl

theorem readArmed_readArm (q : Idx) (s : State) : ReadArmed q s (readArm q s) := by
  refine ⟨.setI2c { s with hostWait := _ } .., ?_, ?_, ?_, ?_,
    copiedFromStg_setI2c (s := { s with hostWait := _ }) rfl rfl⟩ <;>
    rw [readArm, State.i2cp_setWait, i2cp_setI2c_self]
  · rfl
  · rfl
  · exact count16_saturate ..
  · exact count16_saturate ..

theorem probeArmed_probeArm (q : Idx) (s : State) : ProbeArmed q s (probeArm q s) := by
  have hcells := cells_of_put (s := s) (t := probeArm q s) (b := .i2cTx q) (setI2c_mem_i2cTx s q _) fun b hb =>
    setI2c_mem_of_kept (s := s) (fun _ => rfl) fun e => absurd e hb
  refine ⟨.setI2c { s with hostWait := _ } .., ?_, ?_, ?_, ?_, hcells⟩ <;>
    rw [probeArm, State.i2cp_setWait, i2cp_setI2c_self] <;> rfl

theorem armOrHold_busy {g : State → State} (hb : (s.i2cp q).busy = true) :
    armOrHold q s g = .next { s with hostWait := .preArm s.cmd } := if_pos hb

theorem armOrHold_free {g : State → State} (hb : (s.i2cp q).busy = false) : armOrHold q s g = .next (g s) :=
  if_neg (Bool.eq_false_iff.1 hb)

/-! ### The commands, past their checks -/

theorem execI2cWrite_present (h : HostReady s) (hq : q.val < s.cfg.nI2c) (h0 : s.arg0 ≠ 0) :
    execI2cWrite q s = armOrHold q { s with cmd := cmdWord 3 0 q } (writeArm q) :=
  (command_on h).trans ((if_neg (Nat.not_le.2 hq)).trans (if_neg h0))

theorem execI2cRead_present (h : HostReady s) (hq : q.val < s.cfg.nI2c) (h0 : s.arg0 ≠ 0) (h1 : s.arg1 ≠ 0) :
    execI2cRead q s = armOrHold q { s with cmd := cmdWord 3 1 q } (readArm q) :=
  (command_on h).trans ((if_neg (Nat.not_le.2 hq)).trans (if_neg (not_or.2 ⟨h0, h1⟩)))

theorem execI2cProbe_present (h : HostReady s) (hq : q.val < s.cfg.nI2c) :
    execI2cProbe q s = armOrHold q { s with cmd := cmdWord 3 2 q } (probeArm q) :=
  (command_on h).trans (if_neg (Nat.not_le.2 hq))

/-! ### ST.HCONT (R156) -/

theorem hcontEnabled_preArm (hw : s.hostWait = .preArm w) :
    hcontEnabled s = (!(s.i2cp (cmdIdx w)).busy && decide (cmdOp w ≤ 2)) := by simp only [hcontEnabled, hw]

theorem hcontEnabled_postArm {kind : WaitKind} (hw : s.hostWait = .postArm q kind) :
    hcontEnabled s = !(s.i2cp q).busy := by simp only [hcontEnabled, hw]

/-- What the held command with OP `op` does to its port (R156). -/
def heldArm : Nat → Idx → State → State
  | 0 => writeArm
  | 1 => readArm
  | _ => probeArm

theorem execStHcont_preArm (hl : Live s) (hw : s.hostWait = .preArm w) (hb : (s.i2cp (cmdIdx w)).busy = false)
    (ho : cmdOp w ≤ 2) : execStHcont s = .next (heldArm (cmdOp w) (cmdIdx w) { s with hostWait := .none }) := by
  refine (transition_on hl (by simp [hcontEnabled_preArm hw, hb, ho])).trans ?_
  simp only [hw]
  obtain ho | ho | ho : cmdOp w = 0 ∨ cmdOp w = 1 ∨ cmdOp w = 2 := by omega
  all_goals
    rw [ho]
    rfl

theorem execStHcont_read (hl : Live s) (hw : s.hostWait = .postArm q .read) (hb : (s.i2cp q).busy = false) :
    execStHcont s = .next { s with hostWait := .none, result := (s.i2cp q).readLength } := by
  refine (transition_on hl (by simp [hcontEnabled_postArm hw, hb])).trans ?_
  simp only [hw]
  rfl

theorem execStHcont_probe (hl : Live s) (hw : s.hostWait = .postArm q .probe) (hb : (s.i2cp q).busy = false) :
    execStHcont s = .next { s with hostWait := .none, result := if (s.i2cp q).ackstat then 0 else 1 } := by
  refine (transition_on hl (by simp [hcontEnabled_postArm hw, hb])).trans ?_
  simp only [hw]
  cases (s.i2cp q).ackstat <;> rfl

end Sys2Proof.Machine

namespace Sys2Proof.Proofs

open Sys2Proof.Machine

/-- Settles O43: past its checks the command arms the port or holds the host. -/
theorem writeArmsOrHolds : Obligations.WriteArmsOrHolds := by
  refine fun q => ⟨rfl, fun s h => ?_⟩
  dsimp only [exec]
  refine ⟨fun hq => (command_on h).trans (if_pos hq),
    fun hq h0 => (command_on h).trans ((if_neg (Nat.not_le.2 hq)).trans (if_pos h0)),
    fun hq h0 hb => (execI2cWrite_present h hq h0).trans (armOrHold_busy hb),
    fun hq h0 hb => ⟨_, (execI2cWrite_present h hq h0).trans (armOrHold_free hb), writeArmed_writeArm ..⟩⟩

/-- Settles O44: past its checks the command arms the port or holds the host, which ST.HCONT releases. -/
theorem readArmsOrHolds : Obligations.ReadArmsOrHolds := by
  refine fun q => ⟨rfl, fun s h => ?_⟩
  dsimp only [exec]
  refine ⟨fun hq => (command_on h).trans (if_pos hq),
    fun hq h0 => (command_on h).trans ((if_neg (Nat.not_le.2 hq)).trans (if_pos h0)),
    fun hq h0 h1 hb => (execI2cRead_present h hq h0 h1).trans (armOrHold_busy hb),
    fun hq h0 h1 hb => ⟨_, (execI2cRead_present h hq h0 h1).trans (armOrHold_free hb), readArmed_readArm ..⟩,
    fun t => execStHcont_read⟩

/-- Settles O45: past its check the command arms the port or holds the host. -/
theorem probeArmsOrHolds : Obligations.ProbeArmsOrHolds := by
  refine fun q => ⟨rfl, fun s h => ?_⟩
  dsimp only [exec]
  refine ⟨fun hq => (command_on h).trans (if_pos hq),
    fun hq hb => (execI2cProbe_present h hq).trans (armOrHold_busy hb),
    fun hq hb => ⟨_, (execI2cProbe_present h hq).trans (armOrHold_free hb), probeArmed_probeArm ..⟩⟩

/-- Settles O46: by the wait, and for a held command by its OP. -/
theorem hostContinuation : Obligations.HostContinuation := by
  refine ⟨rfl, fun s hl => ?_⟩
  dsimp only [exec]
  refine ⟨fun hw => transition_off hl (by simp only [hcontEnabled, hw]), fun w hw => ?_,
    fun q kind hw => ⟨fun hb => transition_off hl (by rw [hcontEnabled_postArm hw, hb]; rfl), fun hb => ?_⟩⟩
  · refine ⟨fun h => transition_off hl ?_, fun hb ho => ⟨_, execStHcont_preArm hl hw hb (by omega), ?_⟩,
      fun hb ho => ⟨_, execStHcont_preArm hl hw hb (by omega), ?_⟩,
      fun hb ho => ⟨_, execStHcont_preArm hl hw hb (by omega), ?_⟩⟩
    · rw [hcontEnabled_preArm hw, Bool.and_eq_false_iff]
      exact h.imp (fun hb => by rw [hb]; rfl) fun ho => decide_eq_false (Nat.not_le.2 ho)
    all_goals rw [ho]
    · exact writeArmed_writeArm ..
    · exact readArmed_readArm ..
    · exact probeArmed_probeArm ..
  · cases kind with
    | read => exact execStHcont_read hl hw hb
    | probe => exact execStHcont_probe hl hw hb

end Sys2Proof.Proofs

namespace Sys2Proof.Machine

variable {s t : State} {q : Idx} {x : I2cPort} {v d : Byte}

/-- A store writes one cell with a value that may be unwritten, and every other cell keeps its own. -/
theorem cells_of_write {b : Buf} {a : Nat} {ov : Option Byte} (hb : t.mem b = Mem.write (s.mem b) a ov)
    (hne : ∀ b', b' ≠ b → t.mem b' = s.mem b') :
    Mem.read (t.mem b) a = ov ∧ CellsExcept (fun b' a' => b' = b ∧ a' = a) s t := by
  refine ⟨by rw [hb, Mem.read_write, if_pos rfl], fun b' a' h => ?_⟩
  by_cases he : b' = b
  · subst he
    rw [hb, Mem.read_write, if_neg fun ha => h ⟨rfl, ha.symm⟩]
  · rw [hne b' he]

/-! ### The phase steps (R157 to R167) -/

theorem i2svEnabled_iff (hq : q.val < s.cfg.nI2c) :
    i2svEnabled q s = true ↔ (s.i2cp q).mif = true ∧ (s.i2cp q).ie = true := by
  simp [i2svEnabled, hq]

/-- The operation that ends the write bytes (R159, R161). -/
def endOp : Mode → BusOp
  | .write => .stop
  | .read => .restart

/-- The step has a write byte to send (R158, R159, R161). -/
abbrev Sends (x : I2cPort) : Prop := x.phase = 0 ∨ x.phase = 1 ∧ x.txCounter.toNat < x.writeLength.toNat

/-- Port `x` after it sends the byte `v` of its cursor. -/
def sent (x : I2cPort) (v : Byte) : I2cPort :=
  issue { x with mif := false, txCounter := x.txCounter + 1, phase := 1 } .send (some v)

/-- Port `x` after it stores the received byte: more bytes are requested, or the read ends (R164). -/
def stored (x : I2cPort) : I2cPort :=
  issue { x with
    mif := false, rxData := Mem.write x.rxData x.rxCounter.toNat x.rcv, rxCounter := x.rxCounter + 1,
    phase := if x.rxCounter + 1 < x.readLength then 4 else 5 }
    (if x.rxCounter + 1 < x.readLength then .ackrcv else .nackstop) none

section PhaseSteps

variable (hl : Live s) (he : i2svEnabled q s = true) (hx : s.i2cp q = x)

include hl he hx

theorem execStI2sv_phase0 (hp : x.phase = 0) : execStI2sv q s = sendNext q s { x with mif := false } 1 := by
  refine (transition_on hl he).trans ?_
  simp only [hx, hp]
  rfl

theorem execStI2sv_phase1 (hp : x.phase = 1) :
    execStI2sv q s = phaseBytes q s { x with mif := false } (endOp x.mode) := by
  refine (transition_on hl he).trans ?_
  cases hm : x.mode <;> simp only [hx, hp, hm] <;> rfl

theorem execStI2sv_of_sends (hs : Sends x) : execStI2sv q s = sendNext q s { x with mif := false } 1 :=
  hs.elim (execStI2sv_phase0 hl he hx) fun ⟨hp, hlt⟩ => (execStI2sv_phase1 hl he hx hp).trans (if_pos hlt)

theorem execStI2sv_send (hs : Sends x) (hv : Mem.read (s.mem (.i2cTx q)) x.txCounter.toNat = some v) :
    execStI2sv q s = .next (s.setI2c q (sent x v)) := (execStI2sv_of_sends hl he hx hs).trans (observe_some hv)

theorem execStI2sv_endBytes (hp : x.phase = 1) (hle : x.writeLength.toNat ≤ x.txCounter.toNat) : execStI2sv q s =
    .next (s.setI2c q (issue { x with mif := false, phase := 2 } (endOp x.mode) none)) :=
  (execStI2sv_phase1 hl he hx hp).trans (if_neg (Nat.not_lt.2 hle))

theorem execStI2sv_writeEnd (hm : x.mode = .write) (hp : x.phase = 2) :
    execStI2sv q s = .next (s.setI2c q { x with mif := false, busy := false, ie := false }) := by
  refine (transition_on hl he).trans ?_
  simp only [hx, hp, hm]
  rfl

theorem execStI2sv_readAddress (hm : x.mode = .read) (hp : x.phase = 2) :
    execStI2sv q s = phaseReadAddress q s { x with mif := false } := by
  refine (transition_on hl he).trans ?_
  simp only [hx, hp, hm]
  rfl

theorem execStI2sv_receive (hm : x.mode = .read) (hp : x.phase = 3) :
    execStI2sv q s = .next (s.setI2c q (issue { x with mif := false, phase := 4 } .rcen none)) := by
  refine (transition_on hl he).trans ?_
  simp only [hx, hp, hm]
  rfl

theorem execStI2sv_store (hm : x.mode = .read) (hp : x.phase = 4) :
    execStI2sv q s = .next (s.setI2c q (stored x)) := by
  have hstep : execStI2sv q s = phaseStore q s { x with mif := false } := by
    refine (transition_on hl he).trans ?_
    simp only [hx, hp, hm]
    rfl
  refine hstep.trans ?_
  unfold stored
  by_cases hmore : x.rxCounter + 1 < x.readLength
  · rw [if_pos hmore, if_pos hmore, ← hp]
    exact if_pos hmore
  · rw [if_neg hmore, if_neg hmore]
    exact if_neg hmore

theorem execStI2sv_readEnd (hm : x.mode = .read) (hp : x.phase = 5) : execStI2sv q s =
    .next (s.setI2c q { x with mif := false, busy := false, ie := false, txCounter := 0, rxCounter := 0 }) := by
  refine (transition_on hl he).trans ?_
  simp only [hx, hp, hm]
  rfl

/-- A phase that the table does not give (R167). -/
theorem execStI2sv_unreachable (h : x.mode = .write ∧ 3 ≤ x.phase.toNat ∨ 6 ≤ x.phase.toNat) :
    FaultsAs (.unreachablePhase q) s (execStI2sv q s) := by
  refine (transition_on hl he).trans ?_
  dsimp only
  split
  case h_9 => rfl
  -- The phase and the mode of any other branch contradict `h`.
  all_goals simp_all

end PhaseSteps

/-! ### The bus (R166) -/

/-- Port `x` after its pending operation completes with data `d`. -/
def completed (x : I2cPort) (d : Byte) : I2cPort := { x with
  bop := .none, mif := true,
  ackstat := if x.bop = .send then d.getLsbD 0 else x.ackstat,
  rcv := if x.bop = .rcen ∨ x.bop = .ackrcv then some d else x.rcv }

theorem complete_eq_completed (x : I2cPort) (d : Byte) :
    { complete x d with bop := .none, mif := true } = completed x d := by
  unfold complete completed
  cases hb : x.bop <;> rfl

theorem execEvI2cd_pending (hl : Live s) (hq : q.val < s.cfg.nI2c) (hb : (s.i2cp q).bop ≠ .none) :
    execEvI2cd q d s = .next (s.setI2c q (completed (s.i2cp q) d)) := by
  refine (transition_on hl (by simp [hq, hb])).trans ?_
  rw [complete_eq_completed]

end Sys2Proof.Machine

namespace Sys2Proof.Proofs

open Sys2Proof.Machine

/-- Settles O47: the step sends, which observes a cell, or ends the write bytes. -/
theorem phaseBytes : Obligations.PhaseBytes := by
  refine fun q => ⟨rfl, fun s hl hq hm hi => ?_⟩
  have he := (i2svEnabled_iff hq).2 ⟨hm, hi⟩
  dsimp only [exec]
  exact ⟨fun hs hv => (execStI2sv_of_sends hl he rfl hs).trans (observe_none hv),
    fun hs v hv => answers_setI2c (execStI2sv_send hl he rfl hs hv) rfl rfl,
    fun hp hle => answers_setI2c (execStI2sv_endBytes hl he rfl hp hle) rfl rfl⟩

/-- Settles O48: the step observes cell 0. -/
theorem phaseReadAddress : Obligations.PhaseReadAddress := by
  intro q s hl hq hm hi hr hp
  have hstep := execStI2sv_readAddress hl ((i2svEnabled_iff hq).2 ⟨hm, hi⟩) rfl hr hp
  dsimp only [exec]
  exact ⟨fun hv => hstep.trans (observe_none hv), fun v hv => answers_setI2c (hstep.trans (observe_some hv)) rfl rfl⟩

/-- Settles O49: phase 4 stores, and goes on or ends by the advanced cursor. -/
theorem phaseReceive : Obligations.PhaseReceive := by
  intro q s hl hq hm hi hr
  have he := (i2svEnabled_iff hq).2 ⟨hm, hi⟩
  dsimp only [exec]
  refine ⟨fun hp => answers_setI2c (execStI2sv_receive hl he rfl hr hp) rfl rfl, fun hp => ?_⟩
  obtain ⟨hcell, hframe⟩ := cells_of_write (s := s) (setI2c_mem_i2cRx s q (stored (s.i2cp q))) fun b hb =>
    setI2c_mem_of_kept (fun e => absurd e hb) fun _ => rfl
  refine ⟨_, execStI2sv_store hl he rfl hr hp, .setI2c .., hcell, hframe, ?_⟩
  rw [i2cp_setI2c_self]
  rfl

/-- Settles O50: by the enabling condition, then by the phase. -/
theorem phaseStepEnds : Obligations.PhaseStepEnds := by
  intro q s hl hq x enabled
  have hen : i2svEnabled q s = true ↔ enabled := i2svEnabled_iff hq
  rw [← hen]
  dsimp only [exec]
  exact ⟨fun he => transition_off hl (Bool.eq_false_iff.2 he),
    fun he hm hp => answers_setI2c (execStI2sv_writeEnd hl he rfl hm hp) rfl rfl,
    fun he hm hp => answers_setI2c (execStI2sv_readEnd hl he rfl hm hp) rfl rfl,
    fun he => execStI2sv_unreachable hl he rfl⟩

/-- Settles O51: the event is enabled while an operation is pending, and completes it. -/
theorem busCompletion : Obligations.BusCompletion := by
  refine fun q d => ⟨rfl, fun s hl hq => ?_⟩
  dsimp only [exec]
  exact ⟨fun hb => transition_off hl (by simp [hb]),
    fun hb => answers_setI2c (execEvI2cd_pending hl hq hb) rfl rfl⟩

end Sys2Proof.Proofs

/-! ## O55: no transition reaches a phase outside the table. -/

namespace Sys2Proof.Machine

variable {s t : State} {i : Instr} {k : State → Result} {en : State → Bool} {w : Word}

/-! ### Outcomes -/

/-- The next state that `o` may answer records no fault of the phase table (R167). -/
def NoPhaseFault (o : Result) : Prop := ∀ t, o = .next t → ∀ q, t.fault ≠ some (.unreachablePhase q)

@[simp] theorem noPhaseFault_next : NoPhaseFault (.next t) ↔ ∀ q, t.fault ≠ some (.unreachablePhase q) :=
  ⟨fun h => h t rfl, fun h _ ht => Host.Outcome.next.inj ht ▸ h⟩

@[simp] theorem noPhaseFault_refuse {r : Refusal} :
    NoPhaseFault (refuse r s) ↔ ∀ q, s.fault ≠ some (.unreachablePhase q) := noPhaseFault_next

@[simp] theorem noPhaseFault_ite {c : Prop} [Decidable c] {a b : Result} :
    NoPhaseFault (if c then a else b) ↔ (c → NoPhaseFault a) ∧ (¬c → NoPhaseFault b) := by
  split <;> simp [*]

/-- An observed cell may fault as unwritten only. -/
@[simp] theorem noPhaseFault_observe {b : Buf} {a : Nat} {g : Byte → Result} :
    NoPhaseFault (observe s b a g) ↔ ∀ v, Mem.read (s.mem b) a = some v → NoPhaseFault (g v) := by
  cases hv : Mem.read (s.mem b) a with
  | some v => simp [observe_some hv]
  | none => simp [observe_none hv]

@[simp] theorem noPhaseFault_withSel {g : Buf → Result} : NoPhaseFault (withSel s g) ↔
    (∀ b, sel s.bufSel = some b → NoPhaseFault (g b)) ∧
      (sel s.bufSel = none → ∀ q, s.fault ≠ some (.unreachablePhase q)) := by
  cases hb : sel s.bufSel with
  | some b => simp [withSel_some hb]
  | none => simp [withSel, hb]

@[simp] theorem fault_deliver (c : Idx) (v : Byte) (s : State) : (deliver c v s).fault = s.fault := by
  unfold deliver
  split <;> rfl

/-! ### The gates: only a machine without a fault runs -/

theorem noPhaseFault_transition (hk : s.fault = none → en s = true → NoPhaseFault (k s)) :
    NoPhaseFault (transition en s k) := by
  intro t ht
  obtain ⟨⟨-, hf, -⟩, ⟨he, hn⟩ | ⟨-, rfl⟩⟩ := transition_next ht
  · exact hk hf he t hn
  · exact fun q => by simp [hf]

theorem noPhaseFault_hostAccess (hk : s.fault = none → NoPhaseFault (k s)) : NoPhaseFault (hostAccess s k) :=
  noPhaseFault_transition fun hf _ => hk hf

theorem noPhaseFault_hostRead (v : State → Word) : NoPhaseFault (hostRead s v) :=
  noPhaseFault_hostAccess fun hf => by simp [hf]

theorem noPhaseFault_hostRefused (r : Refusal) : NoPhaseFault (hostRefused r s) :=
  noPhaseFault_hostAccess fun hf => by simp [hf]

theorem noPhaseFault_command (hk : s.fault = none → NoPhaseFault (k { s with cmd := w })) :
    NoPhaseFault (command w s k) := noPhaseFault_hostAccess hk

theorem noPhaseFault_chanCommand {op : BitVec 4} {c : Idx}
    (hk : s.fault = none → NoPhaseFault (k { s with cmd := cmdWord 1 op c })) : NoPhaseFault (chanCommand op c s k) :=
  noPhaseFault_command fun hf => noPhaseFault_ite.2 ⟨fun _ => hk hf, fun _ => by simp [hf]⟩

theorem noPhaseFault_uartCommand {op : BitVec 4} {p : Idx}
    (hk : s.fault = none → NoPhaseFault (k { s with cmd := cmdWord 2 op p })) : NoPhaseFault (uartCommand op p s k) :=
  noPhaseFault_command fun hf => noPhaseFault_ite.2 ⟨fun _ => hk hf, fun _ => by simp [hf]⟩

theorem noPhaseFault_uartQuery {op : BitVec 4} {p : Idx}
    (hk : s.fault = none → NoPhaseFault (k { s with cmd := cmdWord 2 op p })) : NoPhaseFault (uartQuery op p s k) :=
  noPhaseFault_command fun hf => noPhaseFault_ite.2 ⟨fun _ => hk hf, fun _ => by simp [hf]⟩

/-! ### The instructions -/

/-- The invariant keeps a port with a completion inside the phase table of its mode (R56, R157). -/
theorem noPhaseFault_execStI2sv (hI : Inv s) (q : Idx) : NoPhaseFault (execStI2sv q s) :=
  noPhaseFault_transition fun hf he => by
    obtain ⟨⟨hq, -⟩, -⟩ : (q.val < s.cfg.nI2c ∧ (s.i2cp q).mif = true) ∧ (s.i2cp q).ie = true := by
      simpa [i2svEnabled] using he
    have hphase := (hI.i2c q hq).phase_le
    have hwrite := (hI.i2c q hq).write_phase_le
    dsimp only
    split
    case h_9 =>
      -- Phase 0 to 2 stands in the table in both modes, and phase 3 to 5 in Read.
      cases hm : (s.i2cp q).mode <;> grind
    all_goals simp [phaseAddress, phaseBytes, sendNext, phaseWriteEnd, phaseReadAddress, phaseReceive, phaseStore,
      phaseReadEnd, hf]

theorem noPhaseFault_execStHcont : NoPhaseFault (execStHcont s) := noPhaseFault_transition fun hf _ => by
  split
  case h_2 => split <;> simp [hf, writeArm, readArm, probeArm]
  all_goals simp [hf]

theorem noPhaseFault_exec_of_ne_wrCmd (hI : Inv s) (h : ∀ w, i ≠ .wrCmd w) : NoPhaseFault (exec i s) := by
  cases i with dsimp only [exec]
  | wrCmd w => exact absurd rfl (h w)
  | rdCmd | rdArg0 | rdArg1 | rdResult | rdStgPtr | rdBufSel | rdBufPtr => exact noPhaseFault_hostRead _
  | rdChstat | rdChcnt | rdChrem | rdUstat | rdUrxcnt | rdUtxcnt | rdUtxlen => exact noPhaseFault_hostRead _
  | rdIstat | rdItxcnt | rdIrxcnt | rdIwlen | rdIrlen => exact noPhaseFault_hostRead _
  | wrResult | wrChstat | wrChcnt | wrChrem | wrUstat | wrUrxcnt | wrUtxcnt | wrUtxlen =>
    exact noPhaseFault_hostRefused _
  | wrIstat | wrItxcnt | wrIrxcnt | wrIwlen | wrIrlen => exact noPhaseFault_hostRefused _
  | rsv09 | rsv0A | rsv0C | rsvD0 | rsvE0 => exact noPhaseFault_hostRefused _
  | rdStgData | rdBufData => exact noPhaseFault_hostAccess fun hf => by simp [windowRead, hf]
  | wrArg0 | wrArg1 | wrStgPtr | wrStgData | wrBufSel | wrBufPtr | wrBufData =>
    exact noPhaseFault_hostAccess fun hf => by simp [hf]
  | nop | chPoll => exact noPhaseFault_command fun hf => by simp [hf]
  | i2cWrite | i2cRead | i2cProbe =>
    exact noPhaseFault_command fun hf => by simp [hf, armOrHold, writeArm, readArm, probeArm]
  | chAcquire | chEnable | chDisable | chForce | chSetcnt => exact noPhaseFault_chanCommand fun hf => by simp [hf]
  | uartFill | uartStart | uartClearRx => exact noPhaseFault_uartCommand fun hf => by simp [hf]
  | uartRxReady | uartTxReady => exact noPhaseFault_uartQuery fun hf => by simp [hf]
  | uartSendDma =>
    exact noPhaseFault_uartQuery fun hf => by
      split <;> simp [hf]
  | evRxb | evRxfe | evTxsh | evI2cd | stRxsv | stRxer | stTxsv | stXfer | stChcp =>
    exact noPhaseFault_transition fun hf _ => by simp [hf]
  | evTxld | evChrq =>
    exact noPhaseFault_transition fun hf _ => by
      split <;> simp [hf, requestPulse]
  | stI2sv q => exact noPhaseFault_execStI2sv hI q
  | stHcont => exact noPhaseFault_execStHcont

end Sys2Proof.Machine

namespace Sys2Proof.Proofs

open Sys2Proof.Machine

/-- Settles O55: the command that WR CMD takes, and every other instruction. -/
theorem phaseTableSuffices : Obligations.PhaseTableSuffices := by
  intro s t i q hI h
  cases i with
  | wrCmd w =>
    obtain hd | ⟨j, -, hne, hj⟩ := decodeCmd_cases w
    · exact noPhaseFault_command (fun hf => by simp [hf]) t (exec_wrCmd_of_error hd ▸ h) q
    · exact noPhaseFault_exec_of_ne_wrCmd hI hne t (hj ▸ h) q
  | _ => exact noPhaseFault_exec_of_ne_wrCmd hI (by nofun) t h q

end Sys2Proof.Proofs

/-! ## O56: the beats of one transaction, from its arm to the free port. -/

namespace Sys2Proof.Machine

variable {s : State} {q : Idx} {x y z : I2cPort} {v d : Byte} {ph : BitVec 3} {tx : Nat} {rxs ds es : List Byte}
  {ps : List (BitVec 3)}

@[simp] theorem State.setI2c_setI2c (s : State) (q : Idx) (x y : I2cPort) : (s.setI2c q x).setI2c q y = s.setI2c q y := by
  simp only [State.setI2c, Vector.set_set]

@[simp] theorem State.setI2c_i2cp_self (s : State) (q : Idx) : s.setI2c q (s.i2cp q) = s := by
  simp only [State.setI2c, State.i2cp, Fin.getElem_fin, Vector.set_getElem_self]

/-! ### Where a transaction stands -/

/-- The buffers of `y` are those of port `x`, but for the bytes `rxs` received in the first cells of rx_data. -/
structure Holds (x y : I2cPort) (rxs : List Byte) : Prop where
  txData : y.txData = x.txData
  rxData : ∀ a, Mem.read y.rxData a = rxs[a]?.or (Mem.read x.rxData a)

/-- Port `x`, armed, stands as `y` before a beat: phase `ph`, `tx` bytes sent, `rxs` received, and a bus operation
pending, which is a receive operation in phase 4. -/
structure InFlight (x y : I2cPort) (ph : BitVec 3) (tx : Nat) (rxs : List Byte) : Prop extends Holds x y rxs where
  mode : y.mode = x.mode
  writeLength : y.writeLength = x.writeLength
  readLength : y.readLength = x.readLength
  ie : y.ie = true
  pending : y.bop ≠ .none
  phase : y.phase = ph
  txCounter : y.txCounter.toNat = tx
  rxCounter : y.rxCounter.toNat = rxs.length
  receiving : ph = 4 → y.bop = .rcen ∨ y.bop = .ackrcv

/-- Port `x`'s transaction has ended as `z`, with the bytes `rxs` received (R160, R165). -/
structure Finished (x z : I2cPort) (rxs : List Byte) : Prop extends Holds x z rxs where
  busy : z.busy = false

/-- A beat of a port in flight issues the next operation, with the counters, the phase and rx_data moved on. -/
theorem InFlight.issueNext (h : InFlight x y ph tx rxs) {m : Mem} {c n : Word} {p : BitVec 3} {op : BusOp}
    {ov : Option Byte} {rxs' : List Byte} {tx' : Nat} (hop : op ≠ .none) (hc : c.toNat = tx') (hn : n.toNat = rxs'.length)
    (hm : ∀ a, Mem.read m a = rxs'[a]?.or (Mem.read x.rxData a)) (hr : p = 4 → op = .rcen ∨ op = .ackrcv) :
    InFlight x (issue { completed y d with mif := false, rxData := m, txCounter := c, rxCounter := n, phase := p } op ov)
      p tx' rxs' :=
  ⟨⟨h.txData, hm⟩, h.mode, h.writeLength, h.readLength, h.ie, hop, rfl, hc, hn, hr⟩

/-- The completion of a receive operation records the byte. -/
theorem InFlight.rcv (h : InFlight x y 4 tx rxs) (d : Byte) : (completed y d).rcv = some d := if_pos (h.receiving rfl)

/-- The received byte joins those stored before it. -/
theorem InFlight.read_store (h : InFlight x y 4 tx rxs) (d : Byte) (a : Nat) :
    Mem.read (stored (completed y d)).rxData a = (rxs ++ [d])[a]?.or (Mem.read x.rxData a) := by
  have hdata : (stored (completed y d)).rxData = Mem.write y.rxData rxs.length (some d) := by
    rw [← h.rcv d, ← h.rxCounter]
    rfl
  rw [hdata, Mem.read_write, h.rxData, List.getElem?_append]
  obtain ha | ha | ha := Nat.lt_trichotomy a rxs.length
  · simp [ha, ha.ne']
  · simp [ha]
  · simp [ha.ne, Nat.not_lt.2 ha.le, show ¬ a - rxs.length < 1 by omega]

/-! ### One beat -/

/-- The beat `d` takes port `y` to a port that meets `P`. -/
abbrev Beats (s : State) (q : Idx) (d : Byte) (y : I2cPort) (P : I2cPort → Prop) : Prop :=
  ∃ z, i2cBeat q d (s.setI2c q y) = .next (s.setI2c q z) ∧ P z

section Beats

variable (hl : Live s) (hq : q.val < s.cfg.nI2c)

include hl hq

/-- A beat of a port in flight is the phase step of the port whose operation is complete. -/
theorem InFlight.beat (h : InFlight x y ph tx rxs)
    (hstep : ∀ u, Live u → i2svEnabled q u = true → u.i2cp q = completed y d → execStI2sv q u = .next (u.setI2c q z)) :
    i2cBeat q d (s.setI2c q y) = .next (s.setI2c q z) := by
  have hev : exec (.evI2cd q d) (s.setI2c q y) = .next (s.setI2c q (completed y d)) := by
    refine (execEvI2cd_pending (s := s.setI2c q y) hl hq ?_).trans ?_ <;> rw [i2cp_setI2c_self]
    · exact h.pending
    · rw [State.setI2c_setI2c]
  have hen : i2svEnabled q (s.setI2c q (completed y d)) = true := by
    refine (i2svEnabled_iff (s := s.setI2c q _) hq).2 ?_
    rw [i2cp_setI2c_self]
    exact ⟨rfl, h.ie⟩
  simp only [i2cBeat, hev]
  refine (hstep (s.setI2c q (completed y d)) hl hen (i2cp_setI2c_self ..)).trans ?_
  rw [State.setI2c_setI2c]

theorem InFlight.send (h : InFlight x y ph tx []) (hph : ph = 0 ∨ ph = 1) (hlt : tx < x.writeLength.toNat)
    (hv : Mem.read x.txData tx ≠ none) : Beats s q d y (InFlight x · 1 (tx + 1) []) := by
  have hlt' : y.txCounter.toNat < y.writeLength.toNat := by rwa [h.txCounter, h.writeLength]
  have hsucc : (y.txCounter + 1).toNat = tx + 1 :=
    (toNat_succ hlt' (Nat.le_of_lt_succ y.writeLength.isLt)).trans (by rw [h.txCounter])
  have hs : Sends (completed y d) := hph.imp h.phase.trans fun hp => ⟨h.phase.trans hp, hlt'⟩
  obtain ⟨v, hv⟩ := Option.ne_none_iff_exists'.1 hv
  refine ⟨_, h.beat hl hq fun u hu he hx => execStI2sv_send (v := v) hu he hx hs ?_,
    h.issueNext nofun hsucc h.rxCounter h.rxData nofun⟩
  rw [State.mem, hx]
  simpa only [completed, h.txData, h.txCounter] using hv

theorem InFlight.endBytes (h : InFlight x y 1 x.writeLength.toNat []) :
    Beats s q d y (InFlight x · 2 x.writeLength.toNat []) := by
  refine ⟨_, h.beat hl hq fun u hu he hx => execStI2sv_endBytes hu he hx h.phase ?_,
    h.issueNext ?_ h.txCounter h.rxCounter h.rxData nofun⟩
  · exact (congrArg BitVec.toNat h.writeLength).trans_le h.txCounter.ge
  · change endOp y.mode ≠ .none
    cases y.mode <;> nofun

theorem InFlight.readAddress (h : InFlight x y 2 tx []) (hm : x.mode = .read) (hv : Mem.read x.txData 0 ≠ none) :
    Beats s q d y (InFlight x · 3 tx []) := by
  obtain ⟨v, hv⟩ := Option.ne_none_iff_exists'.1 hv
  refine ⟨_, h.beat hl hq fun u hu he hx =>
      (execStI2sv_readAddress hu he hx (h.mode.trans hm) h.phase).trans (observe_some (v := v) ?_),
    h.issueNext nofun h.txCounter h.rxCounter h.rxData nofun⟩
  rw [State.mem, hx]
  exact h.txData ▸ hv

theorem InFlight.receive (h : InFlight x y 3 tx []) (hm : x.mode = .read) : Beats s q d y (InFlight x · 4 tx []) :=
  ⟨_, h.beat hl hq fun _ hu he hx => execStI2sv_receive hu he hx (h.mode.trans hm) h.phase,
    h.issueNext nofun h.txCounter h.rxCounter h.rxData fun _ => .inl rfl⟩

/-- The byte is stored; phase 4 goes on while more bytes are requested. -/
theorem InFlight.store (h : InFlight x y 4 tx rxs) (hm : x.mode = .read) (hlt : rxs.length < x.readLength.toNat) :
    Beats s q d y (InFlight x · (if rxs.length + 1 < x.readLength.toNat then 4 else 5) tx (rxs ++ [d])) := by
  have hlt' : y.rxCounter.toNat < y.readLength.toNat := by rwa [h.rxCounter, h.readLength]
  have hsucc : (y.rxCounter + 1).toNat = rxs.length + 1 :=
    (toNat_succ hlt' (Nat.le_of_lt_succ y.readLength.isLt)).trans (by rw [h.rxCounter])
  have hmore : y.rxCounter + 1 < y.readLength ↔ rxs.length + 1 < x.readLength.toNat := by
    rw [BitVec.lt_def, hsucc, h.readLength]
  refine ⟨_, h.beat hl hq fun _ hu he hx => execStI2sv_store hu he hx (h.mode.trans hm) h.phase, ?_⟩
  simp only [← hmore]
  refine h.issueNext ?_ h.txCounter (hsucc.trans (by simp)) (h.read_store d) ?_
  · split <;> nofun
  · split <;> simp

theorem InFlight.writeEnd (h : InFlight x y 2 tx rxs) (hm : x.mode = .write) : Beats s q d y (Finished x · rxs) :=
  ⟨_, h.beat hl hq fun _ hu he hx => execStI2sv_writeEnd hu he hx (h.mode.trans hm) h.phase,
    ⟨h.txData, h.rxData⟩, rfl⟩

theorem InFlight.readEnd (h : InFlight x y 5 tx rxs) (hm : x.mode = .read) : Beats s q d y (Finished x · rxs) :=
  ⟨_, h.beat hl hq fun _ hu he hx => execStI2sv_readEnd hu he hx (h.mode.trans hm) h.phase,
    ⟨h.txData, h.rxData⟩, rfl⟩

end Beats

/-! ### Runs of beats -/

/-- The beats `ds` take port `y` through the phases `ps` to a port that meets `P`. -/
def Runs (s : State) (q : Idx) (ds : List Byte) (y : I2cPort) (ps : List (BitVec 3)) (P : I2cPort → Prop) : Prop :=
  ∃ z, i2cBeats q ds (s.setI2c q y) = (ps, .next (s.setI2c q z)) ∧ P z

variable {P Q : I2cPort → Prop}

theorem Runs.nil (h : P y) : Runs s q [] y [] P := ⟨y, rfl, h⟩

theorem Runs.cons (h : Beats s q d y Q) (hph : y.phase = ph) (hrun : ∀ z, Q z → Runs s q ds z ps P) :
    Runs s q (d :: ds) y (ph :: ps) P := by
  obtain ⟨z, hbeat, hz⟩ := h
  obtain ⟨t, hbeats, ht⟩ := hrun z hz
  refine ⟨t, ?_, ht⟩
  simp only [i2cBeats, hbeat, hbeats, i2cp_setI2c_self, hph]

section Schedule

variable (hl : Live s) (hq : q.val < s.cfg.nI2c)

include hl hq

/-- Phase 1 runs once per write byte left, and once to end them (R159, R161). -/
theorem InFlight.runs_bytes (h : InFlight x y 1 tx []) (hw : ∀ a < x.writeLength.toNat, Mem.read x.txData a ≠ none)
    (hds : tx + ds.length = x.writeLength.toNat + 1) (hle : tx ≤ x.writeLength.toNat)
    (hrun : ∀ z, InFlight x z 2 x.writeLength.toNat [] → Runs s q es z ps P) :
    Runs s q (ds ++ es) y (List.replicate ds.length 1 ++ ps) P := by
  induction ds generalizing y tx with
  | nil => simp only [List.length_nil] at hds; omega
  | cons d ds ih =>
    simp only [List.length_cons] at hds
    obtain hlt | rfl := Nat.lt_or_eq_of_le hle
    · exact .cons (h.send hl hq (.inr rfl) hlt (hw tx hlt)) h.phase fun z hz => ih hz (by omega) hlt
    · obtain rfl : ds = [] := List.eq_nil_of_length_eq_zero (by omega)
      exact .cons (h.endBytes hl hq) h.phase hrun

/-- Phase 4 runs once per byte to read (R164). -/
theorem InFlight.runs_store (h : InFlight x y 4 tx rxs) (hm : x.mode = .read)
    (hds : rxs.length + ds.length = x.readLength.toNat) (hlt : rxs.length < x.readLength.toNat)
    (hrun : ∀ z, InFlight x z 5 tx (rxs ++ ds) → Runs s q es z ps P) :
    Runs s q (ds ++ es) y (List.replicate ds.length 4 ++ ps) P := by
  induction ds generalizing y rxs with
  | nil => simp only [List.length_nil] at hds; omega
  | cons d ds ih =>
    simp only [List.length_cons] at hds
    refine .cons (h.store hl hq hm hlt) h.phase fun z hz => ?_
    split at hz
    next hmore => exact ih hz (by simp; omega) (by simpa using hmore) (by simpa using hrun)
    next hlast =>
      obtain rfl : ds = [] := List.eq_nil_of_length_eq_zero (by omega)
      exact hrun z hz

/-- The phases of a write (R169). -/
theorem InFlight.runs_write (h : InFlight x y 0 0 []) (hm : x.mode = .write) (h0 : 0 < x.writeLength.toNat)
    (hw : ∀ a < x.writeLength.toNat, Mem.read x.txData a ≠ none) (hds : ds.length = x.writeLength.toNat) (d e : Byte) :
    Runs s q (d :: (ds ++ [e])) y (0 :: (List.replicate x.writeLength.toNat 1 ++ [2])) (Finished x · []) :=
  .cons (h.send hl hq (.inl rfl) h0 (hw 0 h0)) h.phase fun _ hz =>
    hds ▸ hz.runs_bytes hl hq hw (by omega) h0 fun _ hz => .cons (hz.writeEnd hl hq hm) hz.phase fun _ hz => .nil hz

/-- The phases of a read (R169). -/
theorem InFlight.runs_read (h : InFlight x y 0 0 []) (hm : x.mode = .read) (h0 : 0 < x.writeLength.toNat)
    (hr : 0 < x.readLength.toNat) (hw : ∀ a < x.writeLength.toNat, Mem.read x.txData a ≠ none)
    (hds : ds.length = x.writeLength.toNat) (hrxs : rxs.length = x.readLength.toNat) (d a b e : Byte) :
    Runs s q (d :: (ds ++ (a :: b :: (rxs ++ [e])))) y
      (0 :: (List.replicate x.writeLength.toNat 1 ++ (2 :: 3 :: (List.replicate x.readLength.toNat 4 ++ [5]))))
      (Finished x · rxs) := by
  rw [← hds, ← hrxs]
  refine .cons (h.send hl hq (.inl rfl) h0 (hw 0 h0)) h.phase fun _ hz => ?_
  refine hz.runs_bytes hl hq hw (by omega) h0 fun _ hz => ?_
  refine .cons (hz.readAddress hl hq hm (hw 0 h0)) hz.phase fun _ hz => ?_
  refine .cons (hz.receive hl hq hm) hz.phase fun _ hz => ?_
  refine hz.runs_store hl hq hm (by simpa using hrxs) hr fun _ hz => ?_
  exact .cons (hz.readEnd hl hq hm) hz.phase fun _ hz => .nil hz

end Schedule

/-! ### The start and the end -/

/-- A port just armed is in flight. -/
theorem inFlight_armed (hb : x.bop = .start) (hi : x.ie = true) (hp : x.phase = 0) (htx : x.txCounter = 0)
    (hrx : x.rxCounter = 0) : InFlight x x 0 0 [] :=
  ⟨⟨rfl, fun _ => rfl⟩, rfl, rfl, rfl, hi, hb ▸ nofun, hp, congrArg BitVec.toNat htx, congrArg BitVec.toNat hrx, nofun⟩

/-- Only the cells of the received bytes differ. -/
theorem Holds.cellsExcept (h : Holds (s.i2cp q) z rxs) :
    CellsExcept (fun b a => b = .i2cRx q ∧ a < rxs.length) s (s.setI2c q z) := by
  refine cellsExcept_of_prefix (fun a ha => ?_) fun b hb => setI2c_mem_of_kept (fun e => absurd e hb) fun _ => h.txData
  rw [setI2c_mem_i2cRx, h.rxData, List.getElem?_eq_none (Nat.le_of_not_lt ha)]
  rfl

theorem Holds.read_rx (h : Holds (s.i2cp q) z rxs) {k : Nat} (hk : k < rxs.length) :
    Mem.read ((s.setI2c q z).mem (.i2cRx q)) k = rxs[k]? := by
  rw [setI2c_mem_i2cRx, h.rxData, List.getElem?_eq_getElem hk]
  rfl

/-! ### The data bytes by the beat they belong to -/

theorem exists_append_of_length_eq_add {m n : Nat} (h : ds.length = m + n) :
    ∃ l r : List Byte, ds = l ++ r ∧ l.length = m ∧ r.length = n :=
  ⟨ds.take m, ds.drop m, (List.take_append_drop m ds).symm, by simp [h], by simp [h]⟩

/-- The beats of a write of length `w`. -/
theorem exists_write_beats {w : Nat} (h : ds.length = w + 2) :
    ∃ (d e : Byte) (bs : List Byte), ds = d :: (bs ++ [e]) ∧ bs.length = w := by
  obtain ⟨d, ds, rfl⟩ := List.exists_cons_of_length_eq_add_one h
  obtain ⟨bs, es, rfl, hbs, hes⟩ := exists_append_of_length_eq_add (Nat.succ.inj h)
  obtain ⟨e, rfl⟩ := List.length_eq_one_iff.1 hes
  exact ⟨d, e, bs, rfl, hbs⟩

/-- The beats of a read with lengths `w` and `r`: the received bytes `rxs` come before the last one. -/
theorem exists_read_beats {w r : Nat} (h : ds.length = w + r + 4) :
    ∃ (d a b e : Byte) (bs rxs : List Byte),
      ds = d :: (bs ++ (a :: b :: (rxs ++ [e]))) ∧ bs.length = w ∧ rxs.length = r := by
  obtain ⟨d, ds, rfl⟩ := List.exists_cons_of_length_eq_add_one h
  have hds : ds.length = w + (r + 3) := (Nat.succ.inj h).trans (Nat.add_assoc ..)
  obtain ⟨bs, ds, rfl, hbs, hds⟩ := exists_append_of_length_eq_add hds
  obtain ⟨a, ds, rfl⟩ := List.exists_cons_of_length_eq_add_one hds
  obtain ⟨b, ds, rfl⟩ := List.exists_cons_of_length_eq_add_one (Nat.succ.inj hds)
  obtain ⟨rxs, es, rfl, hrxs, hes⟩ := exists_append_of_length_eq_add (Nat.succ.inj (Nat.succ.inj hds))
  obtain ⟨e, rfl⟩ := List.length_eq_one_iff.1 hes
  exact ⟨d, a, b, e, bs, rxs, rfl, hbs, hrxs⟩

theorem getElem?_read_beats {k : Nat} (d a b e : Byte) (hk : k < rxs.length) :
    (d :: (ds ++ (a :: b :: (rxs ++ [e]))))[ds.length + 3 + k]? = rxs[k]? := by
  have hdrop : d :: (ds ++ (a :: b :: (rxs ++ [e]))) = (d :: ds ++ [a, b]) ++ (rxs ++ [e]) := by simp
  have hlen : (d :: ds ++ [a, b]).length = ds.length + 3 := by simp
  rw [hdrop, List.getElem?_append_right (by omega), hlen, Nat.add_sub_cancel_left, List.getElem?_append_left hk]

end Sys2Proof.Machine

namespace Sys2Proof.Proofs

open Sys2Proof.Machine

/-- Settles O56: the beats follow the phase table, the lengths count those of phases 1 and 4. -/
theorem phaseOrder : Obligations.PhaseOrder := by
  intro q s hl hI hq x w r hbusy hphase hbop htx hrx hw ds
  have hinv : I2cInv (s.i2cCfg q) x := hI.i2c q hq
  have h : InFlight x x 0 0 [] := inFlight_armed hbop (hinv.busy_ie.trans hbusy) hphase htx hrx
  have h0 : 0 < w := Nat.zero_lt_of_lt (hinv.address_left hbusy hphase)
  refine ⟨fun hm hds => ?_, fun hm hds => ?_⟩
  · obtain ⟨d, e, bs, rfl, hbs⟩ := exists_write_beats hds
    obtain ⟨z, hrun, hz⟩ := h.runs_write hl hq hm h0 hw hbs d e
    rw [State.setI2c_i2cp_self] at hrun
    rw [hrun]
    refine ⟨rfl, _, rfl, .setI2c .., fun b a => hz.cellsExcept b a (by simp), ?_⟩
    rw [i2cp_setI2c_self]
    exact hz.busy
  · obtain ⟨d, a, b, e, bs, rxs, rfl, hbs, hrxs⟩ := exists_read_beats hds
    have hr : 0 < r := Nat.zero_lt_of_lt (hinv.read_left hbusy hm (by simp [hphase]))
    obtain ⟨z, hrun, hz⟩ := h.runs_read hl hq hm h0 hr hw hbs hrxs d a b e
    rw [State.setI2c_i2cp_self] at hrun
    rw [hrun]
    refine ⟨by simp [w, r], _, rfl, .setI2c .., ?_, hrxs ▸ hz.cellsExcept, fun k hk => ?_⟩
    · rw [i2cp_setI2c_self]
      exact hz.busy
    · have hk : k < rxs.length := hrxs ▸ hk
      rw [hz.read_rx hk, ← hbs, getElem?_read_beats d a b e hk]

end Sys2Proof.Proofs

/-! ## O12 and O13: a running machine's transition leaves no mark, or one mark and nothing else but CMD changed. -/

namespace Sys2Proof.Machine

variable {s t u : State} {i : Instr} {k : State → Result} {en : State → Bool} {w : Word}

/-! ### Outcomes -/

/-- The states that a transition of the running machine `s` may end in (R173): one without a mark, or one that only
records a refusal, with CMD as a command leaves it (R175), or only a fault (R180). -/
inductive Ending (s : State) : State → Prop
  | unmarked {t : State} (hf : t.fault = none) (hr : t.refused = none) : Ending s t
  | refused (w : Word) (r : Refusal) : Ending s { s with cmd := w, refused := some r }
  | faulted (f : Fault) : Ending s { s with fault := some f }

/-- The next state that `o` may answer is one that a transition of `s` may end in. -/
def Ends (s : State) (o : Result) : Prop := ∀ t, o = .next t → Ending s t

/-- A meaning acts on `u`: the running machine `s`, with CMD as a command leaves it (R110). -/
structure Entered (s u : State) : Prop where
  fault : u.fault = none
  refused : u.refused = none
  cmd_only : u = { s with cmd := u.cmd }

theorem Entered.next (hu : Entered s u) (hf : t.fault = u.fault) (hr : t.refused = u.refused) : Ends s (.next t) :=
  fun _ ht => Host.Outcome.next.inj ht ▸ .unmarked (hf.trans hu.fault) (hr.trans hu.refused)

theorem Entered.refuse (hu : Entered s u) (r : Refusal) : Ends s (refuse r u) := fun _ ht => by
  rw [← refuse_eq_next.1 ht, hu.cmd_only]
  exact .refused ..

theorem ends_raise (f : Fault) : Ends s (raise f s) := fun _ ht => raise_eq_next.1 ht ▸ .faulted f

theorem ends_ite {c : Prop} [Decidable c] {a b : Result} (ha : Ends s a) (hb : Ends s b) :
    Ends s (if c then a else b) := by
  split
  · exact ha
  · exact hb

/-- An unwritten cell is a fault over the state before the transition. -/
theorem ends_observe {b : Buf} {a : Nat} {g : Byte → Result} (hg : ∀ v, Ends s (g v)) :
    Ends s (observe s b a g) := by
  unfold observe
  split
  · exact hg _
  · exact ends_raise _

theorem Entered.withSel (hu : Entered s u) {g : Buf → Result} (hg : ∀ b, Ends s (g b)) : Ends s (withSel u g) := by
  unfold Machine.withSel
  split
  · exact hg _
  · exact hu.refuse _

theorem Entered.windowRead (hs : Entered s s) {b : Buf} {ptr : Word} {bump : Word → State → State}
    (hg : ∀ v, Ends s (.next (bump (ptr + 1) { s with rdata := v }))) : Ends s (windowRead s b ptr bump) :=
  ends_ite (hs.refuse _) (ends_observe fun _ => hg _)

theorem Entered.armOrHold (hu : Entered s u) {q : Idx} {g : State → State} (hf : (g u).fault = u.fault)
    (hr : (g u).refused = u.refused) : Ends s (armOrHold q u g) :=
  ends_ite (hu.next rfl rfl) (hu.next hf hr)

@[simp] theorem refused_deliver (c : Idx) (v : Byte) (s : State) : (deliver c v s).refused = s.refused := by
  unfold deliver
  split <;> rfl

/-! ### The gates -/

theorem ends_transition (hk : Entered s s → Ends s (k s)) : Ends s (transition en s k) := by
  intro t ht
  obtain ⟨⟨-, hf, hr⟩, ⟨-, hn⟩ | ⟨-, rfl⟩⟩ := transition_next ht
  · exact hk ⟨hf, hr, rfl⟩ t hn
  · exact .refused s.cmd _

theorem ends_hostAccess (hk : Entered s s → Ends s (k s)) : Ends s (hostAccess s k) := ends_transition hk

theorem ends_hostRead (v : State → Word) : Ends s (hostRead s v) := ends_hostAccess fun hs => hs.next rfl rfl

theorem ends_hostRefused (r : Refusal) : Ends s (hostRefused r s) := ends_hostAccess fun hs => hs.refuse r

theorem ends_command (hk : ∀ u, Entered s u → Ends s (k u)) : Ends s (command w s k) :=
  ends_hostAccess fun hs => hk _ ⟨hs.fault, hs.refused, rfl⟩

theorem ends_chanCommand {op : BitVec 4} {c : Idx} (hk : ∀ u, Entered s u → Ends s (k u)) :
    Ends s (chanCommand op c s k) :=
  ends_command fun u hu => ends_ite (hk u hu) (hu.next rfl rfl)

theorem ends_uartCommand {op : BitVec 4} {p : Idx} (hk : ∀ u, Entered s u → Ends s (k u)) :
    Ends s (uartCommand op p s k) :=
  ends_command fun u hu => ends_ite (hk u hu) (hu.next rfl rfl)

theorem ends_uartQuery {op : BitVec 4} {p : Idx} (hk : ∀ u, Entered s u → Ends s (k u)) :
    Ends s (uartQuery op p s k) :=
  ends_command fun u hu => ends_ite (hk u hu) (hu.next rfl rfl)

/-! ### The instructions -/

theorem ends_execUartSendDma (p : Idx) : Ends s (execUartSendDma p s) := ends_uartQuery fun u hu => by
  split
  · exact hu.refuse _
  · exact ends_ite (hu.refuse _) (ends_ite (hu.next rfl rfl) (hu.next rfl rfl))

theorem ends_execI2cWrite (q : Idx) : Ends s (execI2cWrite q s) := ends_command fun _ hu =>
  ends_ite (hu.next rfl rfl) (ends_ite (hu.refuse _) (hu.armOrHold rfl rfl))

theorem ends_execI2cRead (q : Idx) : Ends s (execI2cRead q s) := ends_command fun _ hu =>
  ends_ite (hu.next rfl rfl) (ends_ite (hu.refuse _) (hu.armOrHold rfl rfl))

theorem ends_execI2cProbe (q : Idx) : Ends s (execI2cProbe q s) := ends_command fun _ hu =>
  ends_ite (hu.next rfl rfl) (hu.armOrHold rfl rfl)

theorem ends_execEvTxld (p : Idx) (x : Byte) : Ends s (execEvTxld p x s) := ends_transition fun hs => by
  dsimp only
  split <;> exact hs.next rfl rfl

theorem ends_execEvChrq (c : Idx) (x : Byte) : Ends s (execEvChrq c x s) := ends_transition fun hs => by
  split <;> exact hs.next rfl rfl

theorem Entered.sendNext (hs : Entered s s) {q : Idx} {x : I2cPort} {ph : BitVec 3} : Ends s (sendNext q s x ph) :=
  ends_observe fun _ => hs.next rfl rfl

theorem Entered.phaseBytes (hs : Entered s s) {q : Idx} {x : I2cPort} {last : BusOp} :
    Ends s (phaseBytes q s x last) := ends_ite hs.sendNext (hs.next rfl rfl)

theorem ends_execStI2sv (q : Idx) : Ends s (execStI2sv q s) := ends_transition fun hs => by
  dsimp only
  split
  case h_1 => exact hs.sendNext
  case h_2 | h_4 => exact hs.phaseBytes
  case h_3 | h_6 | h_8 => exact hs.next rfl rfl
  case h_5 => exact ends_observe fun _ => hs.next rfl rfl
  case h_7 => exact ends_ite (hs.next rfl rfl) (hs.next rfl rfl)
  case h_9 => exact ends_raise _

theorem ends_execStHcont : Ends s (execStHcont s) := ends_transition fun hs => by
  split
  case h_2 => split <;> exact hs.next rfl rfl
  all_goals exact hs.next rfl rfl

theorem ends_exec_of_ne_wrCmd (h : ∀ w, i ≠ .wrCmd w) : Ends s (exec i s) := by
  cases i with dsimp only [exec]
  | wrCmd w => exact absurd rfl (h w)
  | rdCmd | rdArg0 | rdArg1 | rdResult | rdStgPtr | rdBufSel | rdBufPtr => exact ends_hostRead _
  | rdChstat | rdChcnt | rdChrem | rdUstat | rdUrxcnt | rdUtxcnt | rdUtxlen => exact ends_hostRead _
  | rdIstat | rdItxcnt | rdIrxcnt | rdIwlen | rdIrlen => exact ends_hostRead _
  | wrResult | wrChstat | wrChcnt | wrChrem | wrUstat | wrUrxcnt | wrUtxcnt | wrUtxlen => exact ends_hostRefused _
  | wrIstat | wrItxcnt | wrIrxcnt | wrIwlen | wrIrlen => exact ends_hostRefused _
  | rsv09 | rsv0A | rsv0C | rsvD0 | rsvE0 => exact ends_hostRefused _
  | rdStgData => exact ends_hostAccess fun hs => hs.windowRead fun _ => hs.next rfl rfl
  | rdBufData => exact ends_hostAccess fun hs => hs.withSel fun _ => hs.windowRead fun _ => hs.next rfl rfl
  | wrBufPtr => exact ends_hostAccess fun hs => hs.withSel fun _ => ends_ite (hs.refuse _) (hs.next rfl rfl)
  | wrArg0 | wrArg1 => exact ends_hostAccess fun hs => hs.next rfl rfl
  | wrStgPtr => exact ends_hostAccess fun hs => ends_ite (hs.refuse _) (hs.next rfl rfl)
  | wrStgData => exact ends_hostAccess fun hs => ends_ite (hs.next rfl rfl) (hs.next rfl rfl)
  | wrBufSel => exact ends_hostAccess fun hs => ends_ite (hs.refuse _) (ends_ite (hs.refuse _) (hs.next rfl rfl))
  | wrBufData =>
    exact ends_hostAccess fun hs => ends_ite (hs.refuse _) (ends_ite (hs.next rfl rfl) (hs.next rfl rfl))
  | nop => exact ends_command fun _ hu => hu.next rfl rfl
  | chAcquire | chEnable | chDisable => exact ends_chanCommand fun _ hu => hu.next rfl rfl
  | chForce =>
    exact ends_chanCommand fun _ hu => ends_ite (hu.refuse _) (ends_ite (hu.next rfl rfl) (hu.next rfl rfl))
  | chSetcnt => exact ends_chanCommand fun _ hu => ends_ite (hu.refuse _) (hu.next rfl rfl)
  | chPoll => exact ends_command fun _ hu => ends_ite (hu.next rfl rfl) (hu.next rfl rfl)
  | uartFill | uartStart => exact ends_uartCommand fun _ hu => ends_ite (hu.refuse _) (hu.next rfl rfl)
  | uartClearRx => exact ends_uartCommand fun _ hu => hu.next rfl rfl
  | uartRxReady | uartTxReady => exact ends_uartQuery fun _ hu => hu.next rfl rfl
  | uartSendDma p => exact ends_execUartSendDma p
  | i2cWrite q => exact ends_execI2cWrite q
  | i2cRead q => exact ends_execI2cRead q
  | i2cProbe q => exact ends_execI2cProbe q
  | evRxb => exact ends_transition fun hs => ends_ite (hs.next rfl rfl) (ends_ite (hs.next rfl rfl) (hs.next rfl rfl))
  | evTxld p x => exact ends_execEvTxld p x
  | evChrq c x => exact ends_execEvChrq c x
  | evRxfe | evTxsh | evI2cd | stRxsv | stRxer | stChcp => exact ends_transition fun hs => hs.next rfl rfl
  | stTxsv =>
    exact ends_transition fun hs => ends_ite (ends_observe fun _ => hs.next rfl rfl) (hs.next rfl rfl)
  | stXfer =>
    exact ends_transition fun hs => ends_observe fun _ => hs.next (fault_deliver ..) (refused_deliver ..)
  | stI2sv q => exact ends_execStI2sv q
  | stHcont => exact ends_execStHcont

/-- WR CMD ends as the command its word encodes does, or refuses a reserved word (R110, R112). -/
theorem ends_exec (i : Instr) (s : State) : Ends s (exec i s) := by
  cases i with
  | wrCmd w =>
    obtain hd | ⟨j, -, hne, hj⟩ := decodeCmd_cases w
    · exact exec_wrCmd_of_error hd ▸ ends_command fun _ hu => hu.refuse _
    · exact hj ▸ ends_exec_of_ne_wrCmd hne
  | _ => exact ends_exec_of_ne_wrCmd nofun

/-- No update changes the trace or the draw count. -/
theorem Changes.pending_draws (h : Changes s i t) : t.pending = s.pending ∧ t.draws = s.draws := by
  induction h with
  | refl | enter | arg0 | arg1 | stgPtr | stgPut | stgGet | bufSel | bufPtr => exact ⟨rfl, rfl⟩
  | mark _ _ _ _ _ ih | chan _ _ _ ih | port _ _ _ ih | i2c _ _ _ ih => exact ih
  | result _ _ _ ih | wait _ _ ih | bufNext _ _ _ _ ih => exact ih

end Sys2Proof.Machine

namespace Sys2Proof.Proofs

open Sys2Proof.Machine

/-- Settles O12: by the state the transition ends in; CMD is written by a command, or by WR CMD, only (R59). -/
theorem stopChangesNothingElse : Obligations.StopChangesNothingElse := by
  intro s i t h
  obtain ⟨-, hf, hr⟩ := (gated_exec i).live h
  obtain ⟨-, -, -, hcmd, -⟩ := registerWriters s t i h
  cases ends_exec i s t h with
  | unmarked hf' hr' => exact ⟨absurd hr', absurd hf'⟩
  | refused w r => exact ⟨fun _ => ⟨rfl, or_iff_not_imp_left.2 hcmd⟩, absurd hf⟩
  | faulted f => exact ⟨absurd hr, fun _ => rfl⟩

/-- Settles O13: a running machine passes the gate, and the state it ends in has one mark at most. -/
theorem liveMachineAnswersNext : Obligations.LiveMachineAnswersNext := by
  intro s i hl
  obtain ⟨t, ht⟩ := (gated_exec i).advances hl
  obtain ⟨-, hf, hr⟩ := hl
  have hc := exec_changes ht
  obtain ⟨hp, hd⟩ := hc.pending_draws
  refine ⟨t, ht, hc.cfg, hp, hd, ?_⟩
  cases ends_exec i s t ht with
  | unmarked hf' _ => exact .inl hf'
  | refused => exact .inl hf
  | faulted => exact .inr hr

end Sys2Proof.Proofs

/-! ## O2: words written out from the encoding tables. -/

namespace Sys2Proof.Proofs

/-- Settles O2: each word that names an instruction is the one its instruction encodes to, which decodes to it (O1); the
other three run into the decoders' refusals. -/
theorem writtenOutWordsDecode : Obligations.WrittenOutWordsDecode :=
  ⟨decode_of_encode rfl, decode_of_encode rfl, decode_of_encode rfl, decode_of_encode rfl, decode_of_encode rfl,
    decode_of_encode rfl, decode_of_encode rfl, decode_of_encode rfl, decode_of_encode rfl, decode_of_encode rfl,
    decode_of_encode rfl, rfl, rfl, rfl⟩

end Sys2Proof.Proofs
